-- ==== Sys2Proof/Word.lean ====
section
/-! DEFINITION. The widths of the words memsim-TU moves (spec/00_scope.md rule R5, spec/30_encoding.md rule R60). -/

namespace Sys2Proof

/-- One byte of a page, of a frame or of the backing store (R5: PAGE_SIZE bytes in a page and in a frame). -/
abbrev Byte := BitVec 8

/-- A page number, a frame number or an offset: 8 bits each (R5 PAGE_BITS, OFFSET_BITS; R17, R19). -/
abbrev Index := BitVec 8

/-- A host command, a class U code or a word of the reference stream: 32 bits (R60, R64, R44). -/
abbrev Word := BitVec 32

/-- A block: the 256 bytes of one page or of one frame, in ascending index (R41, R46). -/
abbrev Block := Vector Byte 256

/-- The block whose byte at index k is `g k`. -/
def blockOf (g : Nat → Byte) : Block :=
  ⟨((List.range 256).map g).toArray, by simp⟩

end Sys2Proof
end

