-- ==== Sys2Proof/Machine/Regs.lean ====
section
/-! DEFINITION. The registers of the unit that lose their specified value when an error is raised: everything of
spec/10_state.md rule R10 but RUNSTATE, ERR_CODE and the frame memory (spec/60_exceptions.md rule R196). Plain data. -/

namespace Sys2Proof.Machine

/-- One valid TLB slot: "(pageNumber, frameNumber) pair" (R17). -/
structure TlbEntry where
  /-- PAGE, 8 bits. -/
  page : Index
  /-- FRAME, 8 bits. -/
  frame : Index
  deriving DecidableEq, Repr, Inhabited

/-- One page-table entry (R19). -/
structure PtEntry where
  /-- PRESENT: 1 once the entry has been created. -/
  present : Bool
  /-- ACTIVE: the page owns a frame now. -/
  active : Bool
  /-- FRAME, meaningful only while ACTIVE = 1. -/
  frame : Index
  /-- LOAD_TIME: CLOCK when the page was last brought into a frame. -/
  loadTime : Nat
  /-- LAST_REF: CLOCK at the last reference to the page. -/
  lastRef : Nat
  deriving DecidableEq, Repr, Inhabited

/-- The page table: 256 entries indexed directly by page number (R19). -/
abbrev PageTable := Vector PtEntry 256

/-- The registers R196 leaves without a specified value after an error. The quantities that are CLK_W bits wide are
natural numbers: "a model may take every CLK_W-wide quantity as an unbounded natural number" (spec/00_scope.md R7). -/
structure Regs where
  /-- CFG_FRAMES (R11). -/
  cfgFrames : BitVec 9
  /-- CFG_POLICY (R12). -/
  cfgPolicy : BitVec 2
  /-- CLOCK, the program counter's analogue (R15). -/
  clock : Nat
  /-- REF_N (R16). -/
  refN : Nat
  /-- TLB[0] to TLB[TLB_LEN − 1], oldest first; TLB_LEN is its length (R17). -/
  tlb : List TlbEntry
  /-- PT (R19). -/
  pt : PageTable
  /-- NEXT_FREE (R22). -/
  nextFree : BitVec 9
  /-- TLB_HITS (R23). -/
  tlbHits : Nat
  /-- TLB_MISSES (R23). -/
  tlbMisses : Nat
  /-- PAGE_FAULTS (R23). -/
  pageFaults : Nat
  /-- W_REF (R24). -/
  wRef : Word
  /-- LA (R24). -/
  la : BitVec 16
  /-- P (R24). -/
  p : Index
  /-- OFF (R24). -/
  off : Index
  /-- F (R24). -/
  f : Index
  /-- VICT (R24). -/
  vict : Index
  /-- BLK (R24). -/
  blk : Block
  /-- RAW (R24). -/
  raw : Byte
  /-- SB, 9 bits, two's complement (R24, R157). -/
  sb : BitVec 9
  /-- The hit flag, TLB.LOOKUP's result beside F (spec/30_encoding.md R65). -/
  hit : Bool
  /-- PT.LOOKUP's result: an entry, or Absent (R65, R100). -/
  ent : Option PtEntry
  deriving DecidableEq, Repr, Inhabited

end Sys2Proof.Machine
end

