-- ==== Sys2Proof/Config.lean ====
section
/-! DEFINITION. What an implementation fixes (CLK_W) and the free values: constants without a body, of which nothing
can be proved but what holds for every choice (spec/00_scope.md R7, spec/93_implementation_defined.md U9, U10, U12,
U13). -/

namespace Sys2Proof

open Sys2Proof.Machine

/-- How far CLK_W is above 1, the least width R7 allows: open, any implementation may choose. Log 10. -/
opaque Config.clkWAboveOne : Nat

/-- CLK_W, the open parameter of R7, D14 and U12: at least 1, and nothing else is known of it. Log 10. -/
def Config.clkW : Nat := Config.clkWAboveOne + 1

/-- The number in a value word of `width` bits for a register value `v` of more than `width` bits, where R68's
zero-extension to CLK_W bits states no result. Log 10. -/
opaque Config.cutValue : (width v : Nat) → Nat

/-- The bits of the last word of a value above bit CLK_W − 1, where CLK_W is no multiple of 32: R68 extends the value to
CLK_W bits only and R176 is silent on the rest. Log 10. -/
opaque Config.padBits : (width v : Nat) → Nat

/-- The 32-bit word a `.ref` value becomes that no unsigned 32-bit word holds, a negative one or one of 2 to the 32 or
more (R72, spec/91_not_in_source.md N14). Log 21. -/
opaque Config.unheldRef : (v : Int) → Word

/-- The registers after an error, whose content R196 leaves unspecified: one free value for each index. Log 6. -/
opaque Config.afterError : Nat → Regs

/-- The byte at an address of the frame memory that nothing has written since generation `gen` began (U9). Log 7. -/
opaque Config.frameByte : (gen addr : Nat) → Byte

/-- The byte of the backing store at an address the launch environment does not list: the host's own (R25). Log 1. -/
opaque Config.storeByte : (addr : Nat) → Byte

/-- The word the reference port returns for an index at or above the real end of a stream: "their values are whatever the
port returns" (R219). Log 9. -/
opaque Config.refPort : (stream : List Word) → (index : Nat) → Word

/-- The page number in VICT after RP.FIFO, RP.LRU or RP.OPT with no active page, a result R131 to R133 do not
state. Log 8. -/
opaque Config.victim : Nat → Index

end Sys2Proof
end

