-- ==== Sys2Proof/Machine/State.lean ====
section
/-! DEFINITION. The state of memsim-TU as plain data (spec/10_state.md), the launch environment and the two ports
that stand beside the unit, the machine right after reset, and the reasons a step can stop. -/

namespace Sys2Proof.Machine

/-- RUNSTATE (R13); code 3 is never held. -/
inductive RunState where
  /-- 0: after reset, no INIT accepted yet. -/
  | unconfigured
  /-- 1: an INIT was accepted. -/
  | ready
  /-- 2: a fatal error was raised. -/
  | error
  deriving DecidableEq, Repr

/-- The five fatal error kinds (spec/60_exceptions.md R190). -/
inductive ErrKind where
  /-- ConfigError (R191). -/
  | config
  /-- InputMalformedError (R192). -/
  | inputMalformed
  /-- ResourceExhaustionError (R193). -/
  | resourceExhaustion
  /-- BackingStoreError (R194). -/
  | backingStore
  /-- CommandError (R195). -/
  | command
  deriving DecidableEq, Repr

/-- A response or a record, as the sum type of five constructors spec/30_encoding.md R73 offers a model; its words on
the port are `responseWords` (Machine/Responses.lean). -/
inductive Response where
  /-- plain OK: INIT accepted. -/
  | ok
  /-- value: RDSTAT accepted. -/
  | value (v : Nat)
  /-- output record: ADDR, SBYTE, FRAME and the frame's 256 bytes. -/
  | record (addr : BitVec 16) (sbyte : BitVec 9) (frame : Index) (data : Block)
  /-- done: the stream is exhausted. -/
  | done
  /-- error, with ERR_CODE. -/
  | error (code : BitVec 3)
  deriving DecidableEq, Repr

/-- The launch environment (R25): fixed by the host for a run, read and never written by the unit. -/
structure Env where
  /-- REF: the words the host put on the reference port. -/
  refWords : List Word
  /-- N, the input `ref_count`: a natural number, as R7 lets a model hold a CLK_W-wide quantity; that it fits CLK_W bits
  is `countFits` (Machine/Operands.lean). Log 10. -/
  refCount : Nat
  /-- BS: the bytes of the store the model knows, as (address, byte) cells. -/
  bs : List Host.Cell
  /-- BS_LEN. -/
  bsLen : Nat
  /-- BS_BAD: the addresses that cannot be read. -/
  bsBad : List Nat
  deriving DecidableEq, Repr

/-- What the host does next at the ports (spec/47_host_commands.md R176, spec/70_reset_and_hazards.md R215, R216). -/
inductive PortEvent where
  /-- A word on the command port. -/
  | word (w : Word)
  /-- `rst` = 1 at a clock edge between two commands. -/
  | rst
  /-- A word on the command port, and `rst` = 1 while its command is in progress, when the command has delivered `n`
  records, or all it delivers before its response if these are fewer: the command is abandoned (R215). Log 19. -/
  | rstDuring (w : Word) (n : Nat)
  /-- The host makes a backing store and a reference stream available (R216 steps 2 and 3). -/
  | attach (env : Env)
  deriving DecidableEq, Repr

/-- The machine. The fields of `Regs` are its own (R10); those below are RUNSTATE, ERR_CODE, the frame memory, the
internal bus, what stands beside the unit, and the model's two counters for free values. -/
structure State extends Regs where
  /-- RUNSTATE (R13). -/
  runState : RunState
  /-- ERR_CODE (R14). -/
  errCode : BitVec 3
  /-- FRAME: the bytes something has written, as (frame × 256 + offset, byte), addresses strictly rising (R21, R43). -/
  frame : List Host.Cell
  /-- The word driven on the internal micro-operation bus, if one is (R64). Log 4. -/
  bus : Option Word
  /-- The launch environment (R25). Log 1. -/
  env : Env
  /-- The model's own: an INIT has been accepted since the last reset, the window of R218. Log 20. -/
  launched : Bool
  /-- What the host will do, in order (R52, R217). Log 2. -/
  input : List PortEvent
  /-- What the unit has sent, oldest first (R73). Log 2. -/
  out : List Response
  /-- The model's own: the index of the next free value. Log 6. -/
  free : Nat
  /-- The model's own: which unknown content the unwritten frame bytes have. Log 7. -/
  gen : Nat
  deriving DecidableEq, Repr

/-- An ABSENT page-table entry at reset: PRESENT = 0 and ACTIVE = 0 (R33); the other fields, unspecified there, are
0 by log 11 (DESIGN CHOICE). -/
def PtEntry.reset : PtEntry :=
  { present := false, active := false, frame := 0, loadTime := 0, lastRef := 0 }

/-- The registers right after reset (R33). The working registers, the hit flag and the looked-up entry are unspecified
there and 0 or Absent by log 11 (DESIGN CHOICE). -/
def Regs.reset : Regs :=
  { cfgFrames := 0, cfgPolicy := 0, clock := 0, refN := 0
    tlb := [], pt := Vector.replicate 256 PtEntry.reset, nextFree := 0
    tlbHits := 0, tlbMisses := 0, pageFaults := 0
    wRef := 0, la := 0, p := 0, off := 0, f := 0, vict := 0
    blk := Vector.replicate 256 0, raw := 0, sb := 0
    hit := false, ent := none }

/-- The launch environment before the host attaches one: no stream, and a well-formed store (65536 bytes, all
readable) of which no byte is known. Log 1 (DESIGN CHOICE). -/
def Env.reset : Env :=
  { refWords := [], refCount := 0, bs := [], bsLen := 65536, bsBad := [] }

/-- The machine right after reset (R33, R215): RUNSTATE = UNCONFIGURED, ERR_CODE = 0, no frame byte written. -/
def State.reset : State :=
  { toRegs := Regs.reset
    runState := .unconfigured, errCode := 0, frame := [], bus := none
    env := Env.reset, launched := false, input := [], out := [], free := 1, gen := 0 }

/-- Why the machine stops without a next state. -/
inductive Fault where
  /-- Raised by `step` when the internal micro-operation bus carries a word that is no class U code: the sequencer
  drives class U codes only (R64) and the spec gives such a word no effect. SAFE: nothing is claimed of it. Log 17. -/
  | badMicroWord (w : Word)
  deriving DecidableEq, Repr

/-- Why the model gives no meaning. -/
inductive Refusal where
  /-- Raised by `exec` for an instruction that has no meaning yet; no arm of this model raises it. SAFE. -/
  | notModelled (mnemonic : String)
  /-- Raised by `step` when the host changes the launch environment after an accepted INIT and before the next reset: "a
  model should ... refuse, not describe, a changing one" (R218, U13). SAFE: nothing is claimed of such a run. Log 20. -/
  | envChanged
  /-- Raised by `step` when the host attaches a launch environment whose `ref_count` does not fit CLK_W bits: "larger N is
  refused" (spec/92_eei_decisions.md D14, R7). SAFE: nothing is claimed of such a run. Log 10. -/
  | countTooWide
  /-- Raised by `step` when the host attaches a launch environment whose `ref_count` is larger than the stream: U13 refuses
  it (R219, spec/93_implementation_defined.md U13). SAFE: nothing is claimed of such a run. Log 9. -/
  | countPastStream
  deriving DecidableEq, Repr

end Sys2Proof.Machine
end

