-- ==== Sys2Proof/Machine/Ops.lean ====
section
/-! DEFINITION. The named operations over memory, registers and ports: the access primitives of spec/20_memory.md
rule R56, the page-table and response accessors, the error entry of spec/60_exceptions.md rule R196 and the hardware
reset of spec/70_reset_and_hazards.md rule R215. Everything else reads and writes the machine through these. -/

namespace Sys2Proof.Machine

/-! ### A byte memory as a canonical list of cells -/

/-- The byte written at `a`, or none where nothing has written one. -/
def memRead : List Host.Cell → Nat → Option Byte
  | [], _ => none
  | c :: m, a => if c.1 = a then some c.2 else memRead m a

/-- Write one byte, keeping the addresses strictly rising. -/
def memWrite : List Host.Cell → Nat → Byte → List Host.Cell
  | [], a, b => [(a, b)]
  | c :: m, a, b =>
    if a < c.1 then (a, b) :: c :: m
    else if a = c.1 then (a, b) :: m
    else c :: memWrite m a b

/-- Write a run of bytes at ascending addresses from `a` (R46, R56). -/
def memWriteRun : List Host.Cell → Nat → List Byte → List Host.Cell
  | m, _, [] => m
  | m, a, b :: bs => memWriteRun (memWrite m a b) (a + 1) bs

/-- The addresses are strictly rising. -/
def memRising : List Host.Cell → Bool
  | [] => true
  | [_] => true
  | c :: d :: m => decide (c.1 < d.1) && memRising (d :: m)

/-- The canonical form of the frame memory: addresses strictly rising and inside the 65536 bytes of R21. An unlisted
address has no value, so no listed entry can equal what an unlisted address reads as (log 7). -/
def Memory.wf (m : List Host.Cell) : Bool :=
  memRising m && m.all fun c => decide (c.1 < 65536)

/-! ### The four address spaces (R40, R56) -/

/-- `frame × 256 + offset`, or `page × 256 + offset`: R43, R42. -/
def addrOf (hi : Index) (lo : Nat) : Nat :=
  hi.toNat * 256 + lo

/-- MemRead(REF, i, 1) (R56); at or above the stream's real end, whatever the port returns (R219, log 9). -/
def refWord (env : Env) (i : Nat) : Word :=
  match env.refWords[i]? with
  | some w => w
  | none => Config.refPort env.refWords i

/-- The byte at an address of the backing store; a byte the environment does not list is the host's own (log 1). -/
def storeByte (env : Env) (a : Nat) : Byte :=
  match memRead env.bs a with
  | some b => b
  | none => Config.storeByte a

/-- `bs_short`: 1 when BS_LEN < 65536 (R176). -/
def storeShort (env : Env) : Bool :=
  decide (env.bsLen < 65536)

/-- `bs_err`: the address is at or beyond BS_LEN or in BS_BAD (R176). -/
def storeUnreadable (env : Env) (a : Nat) : Bool :=
  decide (env.bsLen ≤ a) || env.bsBad.contains a

/-- Some address of block `p` is in BS_BAD (R56). -/
def blockBad (env : Env) (p : Index) : Bool :=
  env.bsBad.any fun a => decide (addrOf p 0 ≤ a) && decide (a < addrOf p 256)

/-- MemRead(BS, p × 256, 256) (R56): fails on a short store whichever page is asked, and on an unreadable byte. -/
def storeBlock (env : Env) (p : Index) : Except ErrKind Block :=
  if storeShort env then .error .backingStore
  else if blockBad env p then .error .backingStore
  else .ok (blockOf fun k => storeByte env (addrOf p k))

/-- MemRead(FR, a, 1) (R56). A byte nothing has written is a free value (U9, log 7), and every address f × 256 + o
exists in the array (R21, log 13). -/
def frameByte (s : State) (a : Nat) : Byte :=
  match memRead s.frame a with
  | some b => b
  | none => Config.frameByte s.gen a

/-- MemRead(FR, f × 256, 256) (R56). -/
def frameBlock (s : State) (f : Index) : Block :=
  blockOf fun k => frameByte s (addrOf f k)

/-- MemWrite(FR, f × 256, 256, blk) (R56). -/
def writeFrame (s : State) (f : Index) (blk : Block) : State :=
  { s with frame := memWriteRun s.frame (addrOf f 0) blk.toList }

/-! ### The page table (R19) -/

/-- PT[p]. -/
def ptAt (s : State) (p : Index) : PtEntry :=
  s.pt[p.toNat]'p.isLt

/-- PT[p] <- e. -/
def ptPut (s : State) (p : Index) (e : PtEntry) : State :=
  { s with pt := s.pt.set p.toNat e p.isLt }

/-! ### Responses, error entry, reset -/

/-- Deliver a response or a record (R73). -/
def respond (s : State) (r : Response) : State :=
  { s with out := s.out ++ [r] }

/-- The code of an error kind (R190). -/
def errorCode : ErrKind → BitVec 3
  | .config => 1
  | .inputMalformed => 2
  | .resourceExhaustion => 3
  | .backingStore => 4
  | .command => 5

/-- The registers after an error (R196): free values (log 6), in the form the hardware can hold, a TLB of at most 16
entries. -/
def registersAfterError (n : Nat) : Regs :=
  let r := Config.afterError n
  { r with tlb := r.tlb.take 16 }

/-- What a refused command is answered with (R174): the latched ERR_CODE, no other change. -/
def refuse (s : State) : State :=
  respond s (.error s.errCode)

/-- The error entry `raise e` (R196): ERR_CODE and RUNSTATE are written and the error response is sent; every other
register, the TLB, the page table and the frame memory become free values (log 6). In ERROR no second error is raised
and the first code stays (R14, R197, log 5). -/
def raise (e : ErrKind) (s : State) : State :=
  if s.runState = .error then refuse s
  else
    { s with
      toRegs := registersAfterError s.free
      runState := .error
      errCode := errorCode e
      frame := []
      gen := s.free
      free := s.free + 1
      out := s.out ++ [.error (errorCode e)] }

/-- Hardware reset (R215): every piece of the unit's state takes its reset value, a word on the bus is dropped without
a response, and the frame bytes are unknown anew. The window of R218 closes (log 20). What stands beside the unit is
untouched (log 19). -/
def hardReset (s : State) : State :=
  { s with
    toRegs := Regs.reset
    runState := .unconfigured
    errCode := 0
    frame := []
    bus := none
    launched := false
    gen := s.free
    free := s.free + 1 }

/-- How a micro-operation that may raise ends: its next state, or the error entry (R196). -/
def settle (s : State) : Except ErrKind State → State
  | .ok t => t
  | .error e => raise e s

end Sys2Proof.Machine
end

