-- ==== Sys2Proof/Machine/Operands.lean ====
section
/-! DEFINITION. The operands: the split of a reference word (spec/40_address_decoder.md rule R80), the `.ref` directive
(spec/30_encoding.md rule R72) and the range of `ref_count` (spec/00_scope.md rule R7), the signed reading of a byte
(spec/46_translation_engine.md rule R157), the policy codes (spec/30_encoding.md rule R67) and RDSTAT's selectors
(rule R68). -/

namespace Sys2Proof.Machine

/-- A reference word is malformed when any of bits 31 to 16 is 1 (R44, R80). -/
def malformed (w : Word) : Bool :=
  w.extractLsb' 16 16 != 0

/-- LA = w[15:0] (R80). -/
def addressOf (w : Word) : BitVec 16 :=
  w.extractLsb' 0 16

/-- The page number, LA[15:8] (R80). -/
def pageOf (la : BitVec 16) : Index :=
  la.extractLsb' 8 8

/-- The offset, LA[7:0] (R80). -/
def offsetOf (la : BitVec 16) : Index :=
  la.extractLsb' 0 8

/-- A value of `.ref` as a 32-bit word: a value outside 0 to 65535 "is kept, as a 32-bit word, and is malformed" (R72).
A negative value or one of 2 to the 32 or more, which no unsigned 32-bit word holds, is the model's choice (log 21): some
malformed word, a free value, with no signed reading assumed (spec/91_not_in_source.md N14). -/
def refValue (v : Int) : Word :=
  if 0 ≤ v ∧ v < 2 ^ 32 then BitVec.ofNat 32 v.toNat
  else if malformed (Config.unheldRef v) then Config.unheldRef v
  else 0xFFFFFFFF

/-- `.ref v1, v2, ...` (R72): append the values to REF in order as 32-bit words (`refValue`, log 21 for a negative value
and for one of 2 to the 32 or more); N is the number of words. -/
def refDirective (env : Env) (vs : List Int) : Env :=
  let ws := env.refWords ++ vs.map refValue
  { env with refWords := ws, refCount := ws.length }

/-- The launch environment's N is a CLK_W-bit number: N ≤ 2^CLK_W − 1 (R7, R25). Log 10. -/
def countFits (env : Env) : Bool :=
  decide (env.refCount < 2 ^ Config.clkW)

/-- The words REF[0] to REF[N−1] all exist on the reference port: `ref_count` is not larger than the stream (R219, U13).
Log 9. -/
def streamHolds (env : Env) : Bool :=
  decide (env.refCount ≤ env.refWords.length)

/-- The signed byte value: a raw byte greater than SIGN_THRESHOLD = 129 is raw − 256, any other is itself (R157, U2). -/
def signedValue (raw : Byte) : Int :=
  if raw.toNat > 129 then (raw.toNat : Int) - 256 else (raw.toNat : Int)

/-- SBYTE: the signed byte value as a 9-bit two's complement number (R157, R73). -/
def signedByte (raw : Byte) : BitVec 9 :=
  BitVec.ofInt 9 (signedValue raw)

/-- POLICY code 0 (R12, R67). -/
def policyFifo : BitVec 2 := 0

/-- POLICY code 1 (R12, R67). -/
def policyLru : BitVec 2 := 1

/-- POLICY code 2 (R12, R67). -/
def policyOpt : BitVec 2 := 2

/-- POLICY code 3, reserved (R12, R67). -/
def policyReserved : BitVec 2 := 3

/-- INIT's operand check: FRAMES in 1 to 256 (FRAMES_MIN, FRAMES_MAX) and POLICY not the reserved code (R170, R5). -/
def configLegal (frames : BitVec 9) (policy : BitVec 2) : Bool :=
  decide (1 ≤ frames.toNat) && decide (frames.toNat ≤ 256) && policy != policyReserved

/-- The 2-bit code of RUNSTATE (R13). -/
def runStateCode : RunState → BitVec 2
  | .unconfigured => 0
  | .ready => 1
  | .error => 2

/-- The register an RDSTAT selector names, as a number (R68); none for the reserved selectors. -/
def statRegister (s : State) (sel : BitVec 4) : Option Nat :=
  match sel.toNat with
  | 0 => some s.tlbHits
  | 1 => some s.tlbMisses
  | 2 => some s.pageFaults
  | 3 => some s.clock
  | 4 => some s.refN
  | 5 => some s.cfgFrames.toNat
  | 6 => some s.cfgPolicy.toNat
  | 7 => some s.nextFree.toNat
  | 8 => some s.tlb.length
  | 9 => some (runStateCode s.runState).toNat
  | _ => none

end Sys2Proof.Machine
end

