-- ==== Sys2Proof/Machine/Flags.lean ====
section
/-! DEFINITION. The conditions the unit branches on and the level it drives. It has no flags register; what stands for
flags is the residency test (spec/42_page_table.md rule R104), the set of active pages (rule R105), the acceptance
test (spec/47_host_commands.md rule R174) and the output `err` (rule R176). -/

namespace Sys2Proof.Machine

/-- `resident(r)`: an entry with ACTIVE = 1 (R104). -/
def residentResult : Option PtEntry → Bool
  | some e => e.active
  | none => false

/-- Page p is in Active: PRESENT = 1 and ACTIVE = 1 (R104, R105). -/
def isActive (s : State) (p : Index) : Bool :=
  (ptAt s p).present && (ptAt s p).active

/-- The 256 page numbers in ascending order (R105). -/
def allPages : List Index :=
  (List.range 256).map (BitVec.ofNat 8)

/-- Active, scanned in ascending page number (R105). -/
def activePages (s : State) : List Index :=
  allPages.filter (isActive s)

/-- The acceptance test R174: in ERROR the command is refused, in a RUNSTATE that does not allow it CommandError is
raised, else the command goes on. -/
def accept (allowed : RunState → Bool) (s : State) (go : State → State) : State :=
  if s.runState = .error then refuse s
  else if allowed s.runState then go s
  else raise .command s

/-- The output `err`: 1 exactly when RUNSTATE = ERROR (R176, R199). -/
def errPin (s : State) : Bool :=
  s.runState == .error

end Sys2Proof.Machine
end

