-- ==== Sys2Proof/Machine/AddressDecoder.lean ====
section
/-! DEFINITION. The address decoder: DECODE (spec/40_address_decoder.md). -/

namespace Sys2Proof.Machine

/-- DECODE (R80): W_REF to LA, P and OFF, or InputMalformedError. -/
def decodeReference (s : State) : Except ErrKind State :=
  if malformed s.wRef then .error .inputMalformed
  else
    let la := addressOf s.wRef
    .ok { s with la := la, p := pageOf la, off := offsetOf la }

/-- The micro-operation DECODE, 0x10. -/
def execDecode (s : State) : Host.Outcome State Fault Refusal :=
  .next (settle s (decodeReference s))

end Sys2Proof.Machine
end

