-- ==== Sys2Proof/Machine/BackingStore.lean ====
section
/-! DEFINITION. The backing-store fetch: BS.READ (spec/43_backing_store.md). -/

namespace Sys2Proof.Machine

/-- BS.READ (R115): the block of page P to BLK, or BackingStoreError. -/
def bsRead (s : State) : Except ErrKind State :=
  match storeBlock s.env s.p with
  | .ok blk => .ok { s with blk := blk }
  | .error e => .error e

/-- The micro-operation BS.READ, 0x18. -/
def execBsRead (s : State) : Host.Outcome State Fault Refusal :=
  .next (settle s (bsRead s))

end Sys2Proof.Machine
end

