-- ==== Sys2Proof/Machine/Engine.lean ====
section
/-! DEFINITION. The two micro-operations of the translation engine itself: FR.XBYTE and CLK.ADV
(spec/46_translation_engine.md). -/

namespace Sys2Proof.Machine

/-- FR.XBYTE (R157): the byte at offset OFF of frame F to RAW, its signed value to SB. -/
def frXbyte (s : State) : State :=
  let raw := frameByte s (addrOf s.f s.off.toNat)
  { s with raw := raw, sb := signedByte raw }

/-- CLK.ADV (R158). -/
def clkAdv (s : State) : State :=
  { s with clock := s.clock + 1 }

/-- The micro-operation FR.XBYTE, 0x1F. -/
def execFrXbyte (s : State) : Host.Outcome State Fault Refusal :=
  .next (frXbyte s)

/-- The micro-operation CLK.ADV, 0x20. -/
def execClkAdv (s : State) : Host.Outcome State Fault Refusal :=
  .next (clkAdv s)

end Sys2Proof.Machine
end

