-- ==== Sys2Proof/Machine/PageTable.lean ====
section
/-! DEFINITION. The page table: PT.LOOKUP, PT.RECFAULT, PT.RECHIT, PT.DEACT, the only writers of PT
(spec/42_page_table.md). -/

namespace Sys2Proof.Machine

/-- PT.LOOKUP (R100): the entry of page P, or Absent. -/
def ptLookup (s : State) : State :=
  let e := ptAt s s.p
  { s with ent := if e.present then some e else none }

/-- PT.RECFAULT (R101): all five fields of PT[P]. -/
def ptRecfault (s : State) : State :=
  ptPut s s.p { present := true, active := true, frame := s.f, loadTime := s.clock, lastRef := s.clock }

/-- PT.RECHIT (R102): PT[P].LAST_REF and nothing else, whatever the entry's state (U6, log 14). -/
def ptRechit (s : State) : State :=
  ptPut s s.p { ptAt s s.p with lastRef := s.clock }

/-- PT.DEACT (R103): PT[VICT].ACTIVE and nothing else; the FRAME bits stay (spec/90_conflicts.md C13). -/
def ptDeact (s : State) : State :=
  ptPut s s.vict { ptAt s s.vict with active := false }

/-- The micro-operation PT.LOOKUP, 0x14. -/
def execPtLookup (s : State) : Host.Outcome State Fault Refusal :=
  .next (ptLookup s)

/-- The micro-operation PT.RECFAULT, 0x15. -/
def execPtRecfault (s : State) : Host.Outcome State Fault Refusal :=
  .next (ptRecfault s)

/-- The micro-operation PT.RECHIT, 0x16. -/
def execPtRechit (s : State) : Host.Outcome State Fault Refusal :=
  .next (ptRechit s)

/-- The micro-operation PT.DEACT, 0x17. -/
def execPtDeact (s : State) : Host.Outcome State Fault Refusal :=
  .next (ptDeact s)

end Sys2Proof.Machine
end

