-- ==== Sys2Proof/Machine/Replacement.lean ====
section
/-! DEFINITION. The replacement-policy selector and the victim choices: RP.SELECT, RP.FIFO, RP.LRU, RP.OPT
(spec/45_replacement_policy.md). They write nothing but VICT. -/

namespace Sys2Proof.Machine

/-- The page of least key, the first of them in the scan on a tie; none for an empty scan (R131, R132). -/
def firstLeast (key : Index → Nat) : List Index → Option Index
  | [] => none
  | q :: qs =>
    match firstLeast key qs with
    | none => some q
    | some r => if key r < key q then some r else some q

/-- The page of greatest key, the first of them in the scan on a tie; none for an empty scan (R133). -/
def firstGreatest (key : Index → Nat) : List Index → Option Index
  | [] => none
  | q :: qs =>
    match firstGreatest key qs with
    | none => some q
    | some r => if key q < key r then some r else some q

/-- The indices CLOCK+1 to REF_N−1 of the future suffix (R134). -/
def futureIndices (s : State) : List Nat :=
  List.range' (s.clock + 1) (s.refN - (s.clock + 1))

/-- The page numbers of a run of reference words, or InputMalformedError where one is malformed (R134). -/
def pagesOf : List Word → Except ErrKind (List Index)
  | [] => .ok []
  | w :: ws =>
    if malformed w then .error .inputMalformed
    else
      match pagesOf ws with
      | .ok ps => .ok (pageOf (addressOf w) :: ps)
      | .error e => .error e

/-- `future()`, the suffix FUT (R134). -/
def future (s : State) : Except ErrKind (List Index) :=
  pagesOf ((futureIndices s).map (refWord s.env))

/-- next(p): the least j with FUT[j] = p; none is NEVER (R133). -/
def nextUse (fut : List Index) (p : Index) : Option Nat :=
  fut.findIdx? fun q => q == p

/-- next(p) as a number, for pages that do occur in FUT (R133). -/
def nextUseIndex (fut : List Index) (p : Index) : Nat :=
  match nextUse fut p with
  | some j => j
  | none => 0

/-- OPT's choice over a scan of active pages: the first page never used again, else the page whose next use is
farthest (R133; spec/90_conflicts.md C1). -/
def optChoice (fut : List Index) (active : List Index) : Option Index :=
  match active.find? (fun q => (nextUse fut q).isNone) with
  | some q => some q
  | none => firstGreatest (nextUseIndex fut) active

/-- FIFO's choice: the active page of least LOAD_TIME, the lowest page number on a tie (R131). -/
def fifoChoice (s : State) : Option Index :=
  firstLeast (fun q => (ptAt s q).loadTime) (activePages s)

/-- LRU's choice: the active page of least LAST_REF, the lowest page number on a tie (R132). -/
def lruChoice (s : State) : Option Index :=
  firstLeast (fun q => (ptAt s q).lastRef) (activePages s)

/-- The page number a choice delivers. With no active page the rules state no result: a free value (log 8). -/
def chosen (n : Nat) : Option Index → Index
  | some v => v
  | none => Config.victim n

/-- The free-value counter after a choice: it advances when a free value was drawn (log 8). -/
def drawn (n : Nat) : Option Index → Nat
  | some _ => n
  | none => n + 1

/-- Write VICT. -/
def setVictim (s : State) (c : Option Index) : State :=
  { s with vict := chosen s.free c, free := drawn s.free c }

/-- RP.FIFO (R131). -/
def rpFifo (s : State) : State :=
  setVictim s (fifoChoice s)

/-- RP.LRU (R132). -/
def rpLru (s : State) : State :=
  setVictim s (lruChoice s)

/-- RP.OPT (R133): the scan of the future may raise InputMalformedError. -/
def rpOpt (s : State) : Except ErrKind State :=
  match future s with
  | .ok fut => .ok (setVictim s (optChoice fut (activePages s)))
  | .error e => .error e

/-- RP.SELECT (R130), with its two dead arms (R136). -/
def rpSelect (s : State) : Except ErrKind State :=
  if (activePages s).isEmpty then .error .resourceExhaustion
  else if s.cfgPolicy = policyFifo then .ok (rpFifo s)
  else if s.cfgPolicy = policyLru then .ok (rpLru s)
  else if s.cfgPolicy = policyOpt then rpOpt s
  else .error .config

/-- The micro-operation RP.SELECT, 0x1A. -/
def execRpSelect (s : State) : Host.Outcome State Fault Refusal :=
  .next (settle s (rpSelect s))

/-- The micro-operation RP.FIFO, 0x1B. -/
def execRpFifo (s : State) : Host.Outcome State Fault Refusal :=
  .next (rpFifo s)

/-- The micro-operation RP.LRU, 0x1C. -/
def execRpLru (s : State) : Host.Outcome State Fault Refusal :=
  .next (rpLru s)

/-- The micro-operation RP.OPT, 0x1D. -/
def execRpOpt (s : State) : Host.Outcome State Fault Refusal :=
  .next (settle s (rpOpt s))

end Sys2Proof.Machine
end

