-- ==== Sys2Proof/Machine/TlbCache.lean ====
section
/-! DEFINITION. The TLB cache: TLB.LOOKUP, TLB.INSERT, TLB.INVAL (spec/41_tlb_cache.md). The TLB is the list of its
valid entries, oldest first (spec/10_state.md R17). -/

namespace Sys2Proof.Machine

/-- The slot compares page numbers only; the frame field takes no part in the match (R86). -/
def slotMatches (p : Index) (e : TlbEntry) : Bool :=
  e.page == p

/-- The entry of page p, if p is cached; at most one matches (R18). -/
def tlbFind (tlb : List TlbEntry) (p : Index) : Option TlbEntry :=
  tlb.find? (slotMatches p)

/-- Close the gap left by page p's entry: the entries above it move down one slot (R86, R88). -/
def tlbRemove (tlb : List TlbEntry) (p : Index) : List TlbEntry :=
  tlb.eraseP (slotMatches p)

/-- TLB_ENTRIES, the capacity (R5, R85). -/
def tlbCapacity : Nat := 16

/-- Append a pair as the newest entry, dropping TLB[0], the oldest, when the TLB is full (R87). -/
def tlbAppend (tlb : List TlbEntry) (e : TlbEntry) : List TlbEntry :=
  (if tlb.length = tlbCapacity then tlb.drop 1 else tlb) ++ [e]

/-- The entries after a lookup of page p: a hit moves p's entry to the newest end (R86). -/
def tlbTouch (tlb : List TlbEntry) (p : Index) : List TlbEntry :=
  match tlbFind tlb p with
  | some e => tlbRemove tlb p ++ [e]
  | none => tlb

/-- The frame number a lookup of page p delivers: the entry's on a hit, and F stays as it is on a miss (R86, log 16). -/
def lookupFrame (tlb : List TlbEntry) (p f : Index) : Index :=
  match tlbFind tlb p with
  | some e => e.frame
  | none => f

/-- The entries after an insert: unchanged when the page is present, "existing mapping is authoritative" (R87). -/
def tlbAdd (tlb : List TlbEntry) (e : TlbEntry) : List TlbEntry :=
  match tlbFind tlb e.page with
  | some _ => tlb
  | none => tlbAppend tlb e

/-- TLB.LOOKUP (R86) of page P: the hit flag, F on a hit, and the order of the entries on a hit. -/
def tlbLookup (s : State) : State :=
  { s with
    tlb := tlbTouch s.tlb s.p
    hit := (tlbFind s.tlb s.p).isSome
    f := lookupFrame s.tlb s.p s.f }

/-- TLB.INSERT (R87) of the pair (P, F). -/
def tlbInsert (s : State) : State :=
  { s with tlb := tlbAdd s.tlb { page := s.p, frame := s.f } }

/-- TLB.INVAL (R88): remove the entry of page VICT; nothing if it is not cached. -/
def tlbInval (s : State) : State :=
  { s with tlb := tlbRemove s.tlb s.vict }

/-- The micro-operation TLB.LOOKUP, 0x11. -/
def execTlbLookup (s : State) : Host.Outcome State Fault Refusal :=
  .next (tlbLookup s)

/-- The micro-operation TLB.INSERT, 0x12. -/
def execTlbInsert (s : State) : Host.Outcome State Fault Refusal :=
  .next (tlbInsert s)

/-- The micro-operation TLB.INVAL, 0x13. -/
def execTlbInval (s : State) : Host.Outcome State Fault Refusal :=
  .next (tlbInval s)

end Sys2Proof.Machine
end

