-- ==== Sys2Proof/Machine/FrameAllocator.lean ====
section
/-! DEFINITION. The frame allocator and the frame fill: FA.ALLOC and FR.FILL (spec/44_frame_allocator.md). -/

namespace Sys2Proof.Machine

/-- The bump path (R121): F takes NEXT_FREE, which goes up by one. -/
def allocBump (s : State) : State :=
  { s with f := s.nextFree.setWidth 8, nextFree := s.nextFree + 1 }

/-- The evict path after the choice of VICT (R122): the victim's frame number is read while it is still active, then
the victim is deactivated and purged from the TLB. -/
def allocEvict (s : State) : State :=
  tlbInval (ptDeact { s with f := (ptAt s s.vict).frame })

/-- FA.ALLOC (R120): the exhaustion guard R123, the bump path R121, the evict path R122. -/
def faAlloc (s : State) : Except ErrKind State :=
  if s.cfgFrames.toNat < s.nextFree.toNat then .error .resourceExhaustion
  else if s.nextFree.toNat < s.cfgFrames.toNat then .ok (allocBump s)
  else
    match rpSelect s with
    | .ok t => .ok (allocEvict t)
    | .error e => .error e

/-- FR.FILL (R124): the 256 bytes of frame F. -/
def frFill (s : State) : State :=
  writeFrame s s.f s.blk

/-- The micro-operation FA.ALLOC, 0x19. -/
def execFaAlloc (s : State) : Host.Outcome State Fault Refusal :=
  .next (settle s (faAlloc s))

/-- The micro-operation FR.FILL, 0x1E. -/
def execFrFill (s : State) : Host.Outcome State Fault Refusal :=
  .next (frFill s)

end Sys2Proof.Machine
end

