-- ==== Sys2Proof/Machine/Sequencer.lean ====
section
/-! DEFINITION. The sequencer: the state chain of one reference and XLATE, the chain run from DECODE back to IDLE
(spec/46_translation_engine.md rules R145 to R160). -/

namespace Sys2Proof.Machine

/-- The sequencer's states (R145). IDLE is the only one between commands, so it is no field of `State` (R10, log 3). -/
inductive SeqState where
  /-- No reference in progress. -/
  | idle
  /-- R146. -/
  | decode
  /-- R147. -/
  | tlbLookup
  /-- R148. -/
  | tlbHit
  /-- R149. -/
  | tlbMiss
  /-- R150. -/
  | pageLookup
  /-- R151. -/
  | pageResident
  /-- R152. -/
  | pageFault
  /-- R153. -/
  | fetch
  /-- R154. -/
  | allocateOrEvict
  /-- R155. -/
  | updatePageTable
  /-- R156. -/
  | updateTlb
  /-- R157. -/
  | extractByte
  /-- R158. -/
  | advanceClock
  deriving DecidableEq, Repr

/-- DECODE's first half, W_REF <- MemRead(REF, CLOCK, 1) (R146). -/
def fetchReference (s : State) : State :=
  { s with wRef := refWord s.env s.clock }

/-- TLB_HIT (R148); F already holds the hit's frame number. -/
def onTlbHit (s : State) : State :=
  ptRechit { s with tlbHits := s.tlbHits + 1 }

/-- TLB_MISS (R149). -/
def onTlbMiss (s : State) : State :=
  { s with tlbMisses := s.tlbMisses + 1 }

/-- The FRAME field of PT.LOOKUP's result (R151); never used on Absent. -/
def entryFrame (s : State) : Index :=
  match s.ent with
  | some e => e.frame
  | none => s.f

/-- PAGE_RESIDENT, the soft miss (R151). -/
def onPageResident (s : State) : State :=
  ptRechit { s with f := entryFrame s }

/-- PAGE_FAULT (R152). -/
def onPageFault (s : State) : State :=
  { s with pageFaults := s.pageFaults + 1 }

/-- UPDATE_PAGE_TABLE (R155): FR.FILL, then PT.RECFAULT. -/
def updatePageTable (s : State) : State :=
  ptRecfault (frFill s)

/-- One state of the chain: what is done in it (R146 to R158) and the state that follows (the table of R145). -/
def seqAct : SeqState → State → Except ErrKind (SeqState × State)
  | .idle, s => .ok (.idle, s)
  | .decode, s => (decodeReference (fetchReference s)).map fun t => (.tlbLookup, t)
  | .tlbLookup, s =>
    let t := tlbLookup s
    .ok (if t.hit then .tlbHit else .tlbMiss, t)
  | .tlbHit, s => .ok (.updateTlb, onTlbHit s)
  | .tlbMiss, s => .ok (.pageLookup, onTlbMiss s)
  | .pageLookup, s =>
    let t := ptLookup s
    .ok (if residentResult t.ent then .pageResident else .pageFault, t)
  | .pageResident, s => .ok (.updateTlb, onPageResident s)
  | .pageFault, s => .ok (.fetch, onPageFault s)
  | .fetch, s => (bsRead s).map fun t => (.allocateOrEvict, t)
  | .allocateOrEvict, s => (faAlloc s).map fun t => (.updatePageTable, t)
  | .updatePageTable, s => .ok (.updateTlb, updatePageTable s)
  | .updateTlb, s => .ok (.extractByte, tlbInsert s)
  | .extractByte, s => .ok (.advanceClock, frXbyte s)
  | .advanceClock, s => .ok (.idle, clkAdv s)

/-- Run the chain until it is back in IDLE, at most `n` states. -/
def runSequencer : Nat → SeqState → State → Except ErrKind State
  | 0, _, s => .ok s
  | n + 1, q, s =>
    if q = .idle then .ok s
    else
      match seqAct q s with
      | .ok (q', t) => runSequencer n q' t
      | .error e => .error e

/-- The longest chain, that of a page fault, has eleven states (R145). -/
def longestChain : Nat := 11

/-- XLATE (R159): one reference through the chain. Precondition RUNSTATE = READY and CLOCK < REF_N. -/
def xlate (s : State) : Except ErrKind State :=
  runSequencer longestChain .decode s

/-- The output record of the reference just processed (R159, R73): LA, SB, F and the frame's bytes as they are after
any fill. CLK.ADV, the one micro-operation after the record is formed, writes none of these. -/
def recordOf (s : State) : Response :=
  .record s.la s.sb s.f (frameBlock s s.f)

end Sys2Proof.Machine
end

