-- ==== Sys2Proof/Machine/HostCommands.lean ====
section
/-! DEFINITION. The host commands: INIT, STEP, RUN, RDSTAT (spec/47_host_commands.md). -/

namespace Sys2Proof.Machine

/-- INIT is accepted in UNCONFIGURED only (R174). -/
def initAllowed : RunState → Bool
  | .unconfigured => true
  | .ready => false
  | .error => false

/-- STEP and RUN are accepted in READY only (R174). -/
def runAllowed : RunState → Bool
  | .unconfigured => false
  | .ready => true
  | .error => false

/-- RDSTAT is accepted outside ERROR (R174). -/
def readAllowed : RunState → Bool
  | .unconfigured => true
  | .ready => true
  | .error => false

/-- INIT's body after the acceptance test (R170). An accepted INIT opens the window of R218 (log 20). -/
def configure (frames : BitVec 9) (policy : BitVec 2) (s : State) : State :=
  if configLegal frames policy then
    respond { s with
      cfgFrames := frames
      cfgPolicy := policy
      refN := s.env.refCount
      runState := .ready
      launched := true } .ok
  else raise .config s

/-- One XLATE with its record, or the error entry. When an XLATE raises, the half-done reference is never seen (R160):
the entry starts from the state before it, whose records have been sent (R172, R196). -/
def processReference (s : State) : State :=
  match xlate s with
  | .ok t => respond t (recordOf t)
  | .error e => raise e s

/-- STEP's body after the acceptance test (R171). -/
def stepBody (s : State) : State :=
  if s.clock = s.refN then respond s .done else processReference s

/-- RUN's loop (R172), with as much fuel as there are references left: each XLATE adds 1 to CLOCK. -/
def runLoop : Nat → State → State
  | 0, s => respond s .done
  | n + 1, s =>
    if s.clock < s.refN then
      match xlate s with
      | .ok t => runLoop n (respond t (recordOf t))
      | .error e => raise e s
    else respond s .done

/-- RUN's body after the acceptance test (R172). -/
def runBody (s : State) : State :=
  runLoop (s.refN - s.clock) s

/-- What a RUN in progress has done when `rst` cuts it after `n` records (R172, R215): at most `n` references with their
records; an XLATE that raises, or the end of the stream, comes to no response any more. -/
def runCut : Nat → State → State
  | 0, s => s
  | n + 1, s =>
    if s.clock < s.refN then
      match xlate s with
      | .ok t => runCut n (respond t (recordOf t))
      | .error _ => s
    else s

/-- RDSTAT's body after the acceptance test (R173); a reserved selector is an illegal word (R69, R174). -/
def readStatus (sel : BitVec 4) (s : State) : State :=
  match statRegister s sel with
  | some v => respond s (.value v)
  | none => raise .command s

/-- The host command INIT, 0x01. -/
def execInit (frames : BitVec 9) (policy : BitVec 2) (s : State) : Host.Outcome State Fault Refusal :=
  .next (accept initAllowed s (configure frames policy))

/-- The host command STEP, 0x02. -/
def execStep (s : State) : Host.Outcome State Fault Refusal :=
  .next (accept runAllowed s stepBody)

/-- The host command RUN, 0x03. -/
def execRun (s : State) : Host.Outcome State Fault Refusal :=
  .next (accept runAllowed s runBody)

/-- The host command RDSTAT, 0x04. -/
def execRdstat (sel : BitVec 4) (s : State) : Host.Outcome State Fault Refusal :=
  .next (accept readAllowed s (readStatus sel))

end Sys2Proof.Machine
end

