-- ==== Sys2Proof/Syntax.lean ====
section
/-! DEFINITION. The instructions of memsim-TU: one constructor per row of spec/opcode_table.json, the four host
commands first, then the seventeen class U micro-operations (spec/30_encoding.md rules R64 and R65). -/

namespace Sys2Proof

/-- The instruction set. A host command carries the operand fields of its word (R62, R63); a micro-operation carries
none, because its operands are working registers (R64, R65, R66). -/
inductive Instr where
  /-- INIT, 0x01, format C (R62, R170). -/
  | init (frames : BitVec 9) (policy : BitVec 2)
  /-- STEP, 0x02, format N (R171). -/
  | step
  /-- RUN, 0x03, format N (R172). -/
  | run
  /-- RDSTAT, 0x04, format S (R63, R173). -/
  | rdstat (sel : BitVec 4)
  /-- DECODE, 0x10 (R80). -/
  | decode
  /-- TLB.LOOKUP, 0x11 (R86). -/
  | tlbLookup
  /-- TLB.INSERT, 0x12 (R87). -/
  | tlbInsert
  /-- TLB.INVAL, 0x13 (R88). -/
  | tlbInval
  /-- PT.LOOKUP, 0x14 (R100). -/
  | ptLookup
  /-- PT.RECFAULT, 0x15 (R101). -/
  | ptRecfault
  /-- PT.RECHIT, 0x16 (R102). -/
  | ptRechit
  /-- PT.DEACT, 0x17 (R103). -/
  | ptDeact
  /-- BS.READ, 0x18 (R115). -/
  | bsRead
  /-- FA.ALLOC, 0x19 (R120). -/
  | faAlloc
  /-- RP.SELECT, 0x1A (R130). -/
  | rpSelect
  /-- RP.FIFO, 0x1B (R131). -/
  | rpFifo
  /-- RP.LRU, 0x1C (R132). -/
  | rpLru
  /-- RP.OPT, 0x1D (R133). -/
  | rpOpt
  /-- FR.FILL, 0x1E (R124). -/
  | frFill
  /-- FR.XBYTE, 0x1F (R157). -/
  | frXbyte
  /-- CLK.ADV, 0x20 (R158). -/
  | clkAdv
  deriving DecidableEq, Repr

end Sys2Proof
end

