-- ==== Sys2Proof/Machine/Dispatch.lean ====
section
/-! DEFINITION. One arm per constructor of Instr: the host commands, then the class U micro-operations
(spec/30_encoding.md rule R65). -/

namespace Sys2Proof.Machine

/-- The meaning of an instruction. -/
def exec (i : Instr) (s : State) : Host.Outcome State Fault Refusal :=
  match i with
  | .init frames policy => Sys2Proof.Machine.execInit frames policy s
  | .step => Sys2Proof.Machine.execStep s
  | .run => Sys2Proof.Machine.execRun s
  | .rdstat sel => Sys2Proof.Machine.execRdstat sel s
  | .decode => Sys2Proof.Machine.execDecode s
  | .tlbLookup => Sys2Proof.Machine.execTlbLookup s
  | .tlbInsert => Sys2Proof.Machine.execTlbInsert s
  | .tlbInval => Sys2Proof.Machine.execTlbInval s
  | .ptLookup => Sys2Proof.Machine.execPtLookup s
  | .ptRecfault => Sys2Proof.Machine.execPtRecfault s
  | .ptRechit => Sys2Proof.Machine.execPtRechit s
  | .ptDeact => Sys2Proof.Machine.execPtDeact s
  | .bsRead => Sys2Proof.Machine.execBsRead s
  | .faAlloc => Sys2Proof.Machine.execFaAlloc s
  | .rpSelect => Sys2Proof.Machine.execRpSelect s
  | .rpFifo => Sys2Proof.Machine.execRpFifo s
  | .rpLru => Sys2Proof.Machine.execRpLru s
  | .rpOpt => Sys2Proof.Machine.execRpOpt s
  | .frFill => Sys2Proof.Machine.execFrFill s
  | .frXbyte => Sys2Proof.Machine.execFrXbyte s
  | .clkAdv => Sys2Proof.Machine.execClkAdv s

end Sys2Proof.Machine
end

