-- ==== Sys2Proof/WellFormed.lean ====
section
/-! DEFINITION. Which instructions are well formed: the one check the spec makes on an operand field as part of the
encoding is RDSTAT's selector (spec/30_encoding.md rules R68 and R69). -/

namespace Sys2Proof

/-- RDSTAT's selectors 0 to 9 are defined, 10 to 15 are reserved and make the word illegal (R68, R69). -/
def selectorDefined (sel : BitVec 4) : Bool :=
  sel.toNat < 10

/-- An instruction a legal word stands for. INIT with FRAMES outside 1 to 256 or with POLICY = 3 is well formed: "the
word decodes, and the command raises ConfigError" (R69). -/
def WellFormed : Instr → Bool
  | .init _ _ => true
  | .step => true
  | .run => true
  | .rdstat sel => selectorDefined sel
  | .decode => true
  | .tlbLookup => true
  | .tlbInsert => true
  | .tlbInval => true
  | .ptLookup => true
  | .ptRecfault => true
  | .ptRechit => true
  | .ptDeact => true
  | .bsRead => true
  | .faAlloc => true
  | .rpSelect => true
  | .rpFifo => true
  | .rpLru => true
  | .rpOpt => true
  | .frFill => true
  | .frXbyte => true
  | .clkAdv => true

/-- The four host commands are accepted on the command port; the seventeen class U micro-operations are not (R64). -/
def isHostCommand : Instr → Bool
  | .init _ _ => true
  | .step => true
  | .run => true
  | .rdstat _ => true
  | .decode => false
  | .tlbLookup => false
  | .tlbInsert => false
  | .tlbInval => false
  | .ptLookup => false
  | .ptRecfault => false
  | .ptRechit => false
  | .ptDeact => false
  | .bsRead => false
  | .faAlloc => false
  | .rpSelect => false
  | .rpFifo => false
  | .rpLru => false
  | .rpOpt => false
  | .frFill => false
  | .frXbyte => false
  | .clkAdv => false

end Sys2Proof
end

