-- ==== Sys2Proof/Decode.lean ====
section
/-! DEFINITION. The decoder and the encoder of the 32-bit words (spec/30_encoding.md rules R60 to R66, R69). The
decoder is total on every word and rejects by name; `decodeHost` is what the host command port accepts, `decodeBus`
what the internal micro-operation bus carries. -/

namespace Sys2Proof

/-- Why a word is no instruction (R69, R64). -/
inductive Reject where
  /-- OPC is no code of the opcode map (R65, R69). -/
  | unknownOpcode
  /-- A bit the format does not name is 1 (R60, R69). -/
  | reservedBit
  /-- RDSTAT with SEL in 10 to 15 (R68, R69). -/
  | reservedSelector
  /-- A class U code on the host command port (R64, R69). -/
  | microOpOnHostPort
  /-- A host command on the internal micro-operation bus, which carries class U codes only (R64). -/
  | hostCommandOnBus
  deriving DecidableEq, Repr

/-- OPC = word[31:24] (R60, R66). -/
def opcField (w : Word) : BitVec 8 := w.extractLsb' 24 8

/-- The operand field, word[23:0] (R60). -/
def operandField (w : Word) : BitVec 24 := w.extractLsb' 0 24

/-- FRAMES = word[8:0] (R62, R66). -/
def framesField (w : Word) : BitVec 9 := w.extractLsb' 0 9

/-- POLICY = word[10:9] (R62, R66). -/
def policyField (w : Word) : BitVec 2 := w.extractLsb' 9 2

/-- SEL = word[3:0] (R63, R66). -/
def selField (w : Word) : BitVec 4 := w.extractLsb' 0 4

/-- Format N: the whole operand field is reserved and must be 0 (R61). -/
def formatN (w : Word) (i : Instr) : Except Reject Instr :=
  if operandField w = 0 then .ok i else .error .reservedBit

/-- Format C: bits 23:11 are reserved (R62). -/
def formatC (w : Word) : Except Reject Instr :=
  if w.extractLsb' 11 13 = 0 then .ok (.init (framesField w) (policyField w)) else .error .reservedBit

/-- Format S: bits 23:4 are reserved, and SEL must be one of 0 to 9 (R63, R68). -/
def formatS (w : Word) : Except Reject Instr :=
  if w.extractLsb' 4 20 = 0 then
    if selectorDefined (selField w) then .ok (.rdstat (selField w)) else .error .reservedSelector
  else .error .reservedBit

/-- The opcode map R65, host part and class U together. -/
def decodeWord (w : Word) : Except Reject Instr :=
  match (opcField w).toNat with
  | 0x01 => formatC w
  | 0x02 => formatN w .step
  | 0x03 => formatN w .run
  | 0x04 => formatS w
  | 0x10 => formatN w .decode
  | 0x11 => formatN w .tlbLookup
  | 0x12 => formatN w .tlbInsert
  | 0x13 => formatN w .tlbInval
  | 0x14 => formatN w .ptLookup
  | 0x15 => formatN w .ptRecfault
  | 0x16 => formatN w .ptRechit
  | 0x17 => formatN w .ptDeact
  | 0x18 => formatN w .bsRead
  | 0x19 => formatN w .faAlloc
  | 0x1A => formatN w .rpSelect
  | 0x1B => formatN w .rpFifo
  | 0x1C => formatN w .rpLru
  | 0x1D => formatN w .rpOpt
  | 0x1E => formatN w .frFill
  | 0x1F => formatN w .frXbyte
  | 0x20 => formatN w .clkAdv
  | _ => .error .unknownOpcode

/-- What the host command port accepts: R69 makes every class U code illegal there. -/
def decodeHost (w : Word) : Except Reject Instr :=
  match decodeWord w with
  | .ok i => if isHostCommand i then .ok i else .error .microOpOnHostPort
  | .error r => .error r

/-- What the internal micro-operation bus carries: class U codes only (R64). -/
def decodeBus (w : Word) : Except Reject Instr :=
  match decodeWord w with
  | .ok i => if isHostCommand i then .error .hostCommandOnBus else .ok i
  | .error r => .error r

/-- The opcode of each instruction (R65). -/
def opcodeOf : Instr → BitVec 8
  | .init _ _ => 0x01
  | .step => 0x02
  | .run => 0x03
  | .rdstat _ => 0x04
  | .decode => 0x10
  | .tlbLookup => 0x11
  | .tlbInsert => 0x12
  | .tlbInval => 0x13
  | .ptLookup => 0x14
  | .ptRecfault => 0x15
  | .ptRechit => 0x16
  | .ptDeact => 0x17
  | .bsRead => 0x18
  | .faAlloc => 0x19
  | .rpSelect => 0x1A
  | .rpFifo => 0x1B
  | .rpLru => 0x1C
  | .rpOpt => 0x1D
  | .frFill => 0x1E
  | .frXbyte => 0x1F
  | .clkAdv => 0x20

/-- The operand field of each instruction: format C (R62), format S (R63), format N (R61). -/
def operandOf : Instr → BitVec 24
  | .init frames policy => policy.setWidth 24 <<< 9 ||| frames.setWidth 24
  | .rdstat sel => sel.setWidth 24
  | .step => 0
  | .run => 0
  | .decode => 0
  | .tlbLookup => 0
  | .tlbInsert => 0
  | .tlbInval => 0
  | .ptLookup => 0
  | .ptRecfault => 0
  | .ptRechit => 0
  | .ptDeact => 0
  | .bsRead => 0
  | .faAlloc => 0
  | .rpSelect => 0
  | .rpFifo => 0
  | .rpLru => 0
  | .rpOpt => 0
  | .frFill => 0
  | .frXbyte => 0
  | .clkAdv => 0

/-- The word of an instruction: OPC in bits 31:24 above the operand field (R60). -/
def encode (i : Instr) : Word :=
  (opcodeOf i).setWidth 32 <<< 24 ||| (operandOf i).setWidth 32

/-- The instruction the decoder reads from `nbits` bits numbered as spec/opcode_table.json numbers them: one 32-bit
word, the bits above `nbits` zero. Host commands and class U codes alike, since the table has both. -/
def decodeTableWord (nbits w : Nat) : Option Instr :=
  match decodeWord (BitVec.ofNat 32 (w % 2 ^ nbits)) with
  | .ok i => some i
  | .error _ => none

end Sys2Proof
end

