-- ==== Sys2Proof/Machine/Fetch.lean ====
section
/-! DEFINITION. What the unit does next: a class U code on the internal bus is performed first, else the next event at
the ports is taken (spec/30_encoding.md rules R64, R69, R70; spec/47_host_commands.md rules R174, R176;
spec/70_reset_and_hazards.md rules R215, R218). -/

namespace Sys2Proof.Machine

/-- What a step finds to do. -/
inductive Fetched where
  /-- An instruction, and the state it starts from: the word has been taken. -/
  | instr (i : Instr) (s : State)
  /-- No instruction: the state after what was done instead. -/
  | done (s : State)
  /-- The machine stops. -/
  | stop (r : Fault)
  /-- The model gives no meaning. -/
  | refuse (r : Refusal)

/-- Take a word on the host command port. In ERROR nothing is decoded and the command is refused (R70, R174); an
illegal word raises CommandError (R69, R195). -/
def takeCommand (w : Word) (s : State) : Fetched :=
  if s.runState = .error then .done (refuse s)
  else
    match decodeHost w with
    | .ok i => .instr i s
    | .error _ => .done (raise .command s)

/-- Hardware reset while the command of a host word is in progress (R215): "A command in progress is abandoned without a
response". Of all commands only a RUN accepted in READY delivers anything before its response: its records (R172,
log 19). -/
def abandonCommand (w : Word) (n : Nat) (s : State) : State :=
  hardReset (if decodeHost w = .ok .run ∧ s.runState = .ready then runCut n s else s)

/-- The host attaches a launch environment (R216 steps 2 and 3). From an accepted INIT until reset the spec rules this out
(R218, U13, log 20); an N larger than the stream is refused (R219, U13, log 9), and so is one of more than CLK_W bits (R7,
D14, log 10). -/
def takeEnv (env : Env) (s : State) : Fetched :=
  if s.launched then .refuse .envChanged
  else if !streamHolds env then .refuse .countPastStream
  else if countFits env then .done { s with env := env }
  else .refuse .countTooWide

/-- Take a word on the internal micro-operation bus (R64, log 4). -/
def takeMicro (w : Word) (s : State) : Fetched :=
  match decodeBus w with
  | .ok i => .instr i s
  | .error _ => .stop (.badMicroWord w)

/-- The bus first, then the next event at the ports; with neither, the unit waits (log 2). -/
def fetch (s : State) : Fetched :=
  match s.bus with
  | some w => takeMicro w { s with bus := none }
  | none =>
    match s.input with
    | [] => .done s
    | .word w :: rest => takeCommand w { s with input := rest }
    | .rst :: rest => .done (hardReset { s with input := rest })
    | .rstDuring w n :: rest => .done (abandonCommand w n { s with input := rest })
    | .attach env :: rest => takeEnv env { s with input := rest }

/-- Put a word where the next step takes its instruction from: a class U code on the internal bus, any other word at
the head of the command port, with the bus empty (log 2, log 4). -/
def placeWord (s : State) (w : Word) : State :=
  match decodeBus w with
  | .ok _ => { s with bus := some w }
  | .error _ => { s with bus := none, input := .word w :: s.input }

end Sys2Proof.Machine
end

