-- ==== Sys2Proof/Machine/Step.lean ====
section
/-! DEFINITION. One step of the machine: one whole host command, one micro-operation on the internal bus, one hardware
reset, alone or in the middle of a command, or one launch environment attached (spec/46_translation_engine.md rule R160, spec/92_eei_decisions.md D29). -/

namespace Sys2Proof.Machine

/-- One step. -/
def step (s : State) : Host.Outcome State Fault Refusal :=
  match fetch s with
  | .instr i t => exec i t
  | .done t => .next t
  | .stop r => .fault r
  | .refuse r => .refused r

/-- `s` with the instruction whose bits are `w` where the next step takes it from. The bits above `nbits` are zero. -/
def State.withFetchWord (s : State) (nbits w : Nat) : State :=
  placeWord s (BitVec.ofNat 32 (w % 2 ^ nbits))

end Sys2Proof.Machine
end

