-- ==== Sys2Proof/Machine/Responses.lean ====
section
/-! DEFINITION. The words of a response on the response port: the header and payloads of spec/30_encoding.md rule R73
and the packing of spec/47_host_commands.md rule R176. -/

namespace Sys2Proof.Machine

/-- STATUS code 0. -/
def statusOk : BitVec 2 := 0

/-- STATUS code 1. -/
def statusDone : BitVec 2 := 1

/-- STATUS code 2; 3 is never sent. -/
def statusError : BitVec 2 := 2

/-- The header word: ADDR 31:16, FRAME 15:8, reserved 7:5, ERR 4:2, STATUS 1:0 (R73). -/
def headerWord (addr : BitVec 16) (frame : Index) (err : BitVec 3) (status : BitVec 2) : Word :=
  addr.setWidth 32 <<< 16 ||| frame.setWidth 32 <<< 8 ||| err.setWidth 32 <<< 2 ||| status.setWidth 32

/-- A register value zero-extended to `width` bits (R68); a value of more than `width` bits, which only a CLK_W below 9
can meet, is a free value (log 10). -/
def valueField (width v : Nat) : Nat :=
  if v < 2 ^ width then v else Config.cutValue width v % 2 ^ width

/-- Word `k` of the value word of `width` bits. The bits of a last word above bit `width` − 1, on which the spec is silent,
are a free value (log 10, DESIGN CHOICE). -/
def valueWordAt (width v k : Nat) : Word :=
  let part := valueField width v / 2 ^ (32 * k)
  if 32 * (k + 1) ≤ width then BitVec.ofNat 32 part
  else BitVec.ofNat 32 (part + 2 ^ (width - 32 * k) * Config.padBits width v)

/-- The value word of `width` bits on a 32-bit port, low 32 bits first (R73, R176). -/
def valueWordsAt (width v : Nat) : List Word :=
  (List.range ((width + 31) / 32)).map (valueWordAt width v)

/-- The value word of CLK_W bits (R73, R7). -/
def valueWords (v : Nat) : List Word :=
  valueWordsAt Config.clkW v

/-- The SBYTE word: SBYTE in bits 8:0, upper bits 0 (R73). -/
def sbyteWord (sb : BitVec 9) : Word :=
  sb.setWidth 32

/-- Data word k: FRAME[F][4k] in bits 7:0 up to FRAME[F][4k+3] in bits 31:24 (R176). -/
def dataWord (data : Block) (k : Fin 64) : Word :=
  data[4 * k.val + 3].setWidth 32 <<< 24 ||| data[4 * k.val + 2].setWidth 32 <<< 16 |||
    data[4 * k.val + 1].setWidth 32 <<< 8 ||| data[4 * k.val].setWidth 32

/-- The words of a response, header first (R73, R176). -/
def responseWords : Response → List Word
  | .ok => [headerWord 0 0 0 statusOk]
  | .value v => headerWord 0 0 0 statusOk :: valueWords v
  | .record addr sb frame data =>
    headerWord addr frame 0 statusOk :: sbyteWord sb :: (List.finRange 64).map (dataWord data)
  | .done => [headerWord 0 0 0 statusDone]
  | .error code => [headerWord 0 0 code statusError]

/-- The words with `rsp_last`, which marks the last word of a response or record (R176). -/
def withLast : List Word → List (Word × Bool)
  | [] => []
  | [w] => [(w, true)]
  | w :: v :: ws => (w, false) :: withLast (v :: ws)

/-- What the response port carries for a response: `rsp_data` and `rsp_last` (R176). -/
def responseBeats (r : Response) : List (Word × Bool) :=
  withLast (responseWords r)

end Sys2Proof.Machine
end

