-- ==== Sys2Proof/Safety.lean ====
section
/-! DEFINITION. What counts as a safe run, in the terms claims use: the physical form of the state, the invariants of
spec/10_state.md rules R18, R26, R27, R30 to R32 and spec/46_translation_engine.md rule R161, a well-formed launch
environment, and the two readings of a run the rules give beside the machine's own (R159, R172). -/

namespace Sys2Proof

open Sys2Proof.Machine

/-- A state the unit may go on from: RUNSTATE is not ERROR (R13). -/
def Safe (s : State) : Prop := s.runState ≠ .error

/-- The form the hardware gives the state whatever ran: the frame memory is canonical and the TLB has at most
TLB_ENTRIES entries (R17, R21). -/
structure Form (s : State) : Prop where
  /-- The frame memory is in its canonical form. -/
  memory : Memory.wf s.frame = true
  /-- TLB_LEN ≤ 16. -/
  capacity : s.tlb.length ≤ tlbCapacity

/-- In UNCONFIGURED every register R33 gives a reset value is at that value, since no command has written one (R33, R170,
R173). -/
structure Fresh (s : State) : Prop where
  /-- CFG_FRAMES = 0. -/
  cfgFrames : s.cfgFrames = 0
  /-- CFG_POLICY = 0. -/
  cfgPolicy : s.cfgPolicy = 0
  /-- REF_N = 0. -/
  refN : s.refN = 0
  /-- CLOCK = 0. -/
  clock : s.clock = 0
  /-- The TLB is empty. -/
  tlb : s.tlb = []
  /-- Every page is ABSENT. -/
  absent : ∀ q, (ptAt s q).present = false ∧ (ptAt s q).active = false
  /-- NEXT_FREE = 0. -/
  nextFree : s.nextFree = 0
  /-- TLB_HITS = 0. -/
  tlbHits : s.tlbHits = 0
  /-- TLB_MISSES = 0. -/
  tlbMisses : s.tlbMisses = 0
  /-- PAGE_FAULTS = 0. -/
  pageFaults : s.pageFaults = 0

/-- What holds between commands while RUNSTATE is READY. -/
structure Running (s : State) : Prop where
  /-- The configuration is legal (R11, R12). -/
  config : configLegal s.cfgFrames s.cfgPolicy = true
  /-- REF_N is the `ref_count` INIT sampled (R16, R218). -/
  refN : s.refN = s.env.refCount
  /-- CLOCK ≤ REF_N (R15). -/
  clock : s.clock ≤ s.refN
  /-- TLB_HITS + TLB_MISSES = CLOCK (R161). -/
  counted : s.tlbHits + s.tlbMisses = s.clock
  /-- PAGE_FAULTS ≤ TLB_MISSES (R161). -/
  faults : s.pageFaults ≤ s.tlbMisses
  /-- The first CFG_FRAMES page faults are given the frames 0, 1, 2, ... (R30). -/
  bumped : s.nextFree.toNat = min s.pageFaults s.cfgFrames.toNat
  /-- No page is in the TLB twice (R18). -/
  tlbNodup : (s.tlb.map TlbEntry.page).Nodup
  /-- Every TLB entry is the mapping of an active page (R27). -/
  tlbActive : ∀ e ∈ s.tlb, isActive s e.page = true ∧ (ptAt s e.page).frame = e.frame
  /-- With at most 16 frames every active page is in the TLB (R151). -/
  tlbAll : s.cfgFrames.toNat ≤ 16 → ∀ q, isActive s q = true → ∃ e ∈ s.tlb, e.page = q
  /-- ACTIVE = 1 only in a created entry (R19). -/
  created : ∀ q, (ptAt s q).active = true → (ptAt s q).present = true
  /-- An active page's frame has been handed out (R26, R30). -/
  owned : ∀ q, isActive s q = true → (ptAt s q).frame.toNat < s.nextFree.toNat
  /-- Two active pages own two frames (R26). -/
  distinct : ∀ q r, isActive s q = true → isActive s r = true → (ptAt s q).frame = (ptAt s r).frame → q = r
  /-- Every frame handed out is owned by an active page (R30). -/
  covered : ∀ k, k < s.nextFree.toNat → ∃ q, isActive s q = true ∧ (ptAt s q).frame.toNat = k
  /-- An active page's frame holds its block of the backing store (R31). -/
  content : ∀ q, isActive s q = true → ∀ o < 256,
    memRead s.frame (addrOf (ptAt s q).frame o) = some (storeByte s.env (addrOf q o))
  /-- LOAD_TIME ≤ LAST_REF < CLOCK (R32). -/
  stamped : ∀ q, (ptAt s q).present = true → (ptAt s q).loadTime ≤ (ptAt s q).lastRef ∧ (ptAt s q).lastRef < s.clock
  /-- Two created entries have two LAST_REFs and two LOAD_TIMEs (R32). -/
  apart : ∀ q r, (ptAt s q).present = true → (ptAt s r).present = true → q ≠ r →
    (ptAt s q).lastRef ≠ (ptAt s r).lastRef ∧ (ptAt s q).loadTime ≠ (ptAt s r).loadTime

/-- The invariant of the unit between commands. -/
structure UnitInv (s : State) : Prop where
  /-- The form of the state. -/
  form : Form s
  /-- Nothing is driven on the internal bus between commands (R160). -/
  quiet : s.bus = none
  /-- ERR_CODE is 0 exactly when no error was raised (R14). -/
  code : s.errCode = 0 ↔ s.runState ≠ .error
  /-- The window of R218 is shut in UNCONFIGURED and open in READY (log 20). -/
  window : (s.runState = .unconfigured → s.launched = false) ∧ (s.runState = .ready → s.launched = true)
  /-- In UNCONFIGURED nothing has moved since reset (R33, R170). -/
  fresh : s.runState = .unconfigured → Fresh s
  /-- In READY the invariants of R18, R26, R27, R30 to R32 and R161 hold. -/
  running : s.runState = .ready → Running s

/-- The next step is a hardware reset, between two commands or in the middle of one (R215). -/
def ResetNext (s : State) : Prop :=
  s.bus = none ∧ ((∃ rest, s.input = .rst :: rest) ∨ ∃ w n rest, s.input = .rstDuring w n :: rest)

/-- The state right after a hardware reset, in everything R33 gives a value, with nothing on the internal bus (R215). -/
structure AtReset (s : State) : Prop where
  /-- RUNSTATE = UNCONFIGURED. -/
  runState : s.runState = .unconfigured
  /-- ERR_CODE = 0. -/
  errCode : s.errCode = 0
  /-- The registers. -/
  registers : Fresh s
  /-- Nothing is driven on the internal bus. -/
  quiet : s.bus = none

/-- A backing store of which every byte can be read: BS_LEN ≥ 65536 and no address below 65536 in BS_BAD (R25, R56). -/
abbrev StoreReadable (env : Env) : Prop :=
  65536 ≤ env.bsLen ∧ ∀ a ∈ env.bsBad, 65536 ≤ a

/-- A legal word on the host command port, read as a number: INIT with bits 23:11 zero, STEP and RUN with bits 23:0 zero,
RDSTAT with SEL below 10 and bits 23:4 zero (R61, R62, R63, R69). -/
def LegalHostWord (w : Word) : Prop :=
  (w.toNat / 2 ^ 24 = 1 ∧ w.toNat % 2 ^ 24 < 2 ^ 11) ∨ (w.toNat / 2 ^ 24 = 2 ∧ w.toNat % 2 ^ 24 = 0) ∨
  (w.toNat / 2 ^ 24 = 3 ∧ w.toNat % 2 ^ 24 = 0) ∨ (w.toNat / 2 ^ 24 = 4 ∧ w.toNat % 2 ^ 24 < 10)

/-- Reference i is well formed: bits 31 to 16 are 0 (R25, R44). -/
abbrev WordGood (env : Env) (i : Nat) : Prop :=
  (refWord env i).toNat < 65536

/-- Every reference of the future suffix is well formed (R134). -/
abbrev FutureGood (s : State) : Prop :=
  ∀ i, s.clock < i → i < s.refN → WordGood s.env i

/-- Reference i, if it is beyond the current one and inside the stream, is to page q (R134). -/
def UsedAt (s : State) (q : Index) (i : Nat) : Prop :=
  s.clock < i ∧ i < s.refN ∧ (refWord s.env i).toNat / 256 % 256 = q.toNat

/-- The record of reference i but for its frame number: the address, the signed byte of BS at that address and the 256
bytes of its page of BS (R73, R31). -/
def recordFor (env : Env) (i : Nat) (frame : Index) : Response :=
  let la := addressOf (refWord env i)
  .record la (signedByte (storeByte env la.toNat)) frame (blockOf fun k => storeByte env (addrOf (pageOf la) k))


/-- The records of the references from index `i` on, given the frame number of each (R172). -/
def recordsFrom (env : Env) (i : Nat) : List Index → List Response
  | [] => []
  | f :: fs => recordFor env i f :: recordsFrom env (i + 1) fs

/-- XLATE written out as the one function of R159, in place of the chain of states. -/
def xlateWhole (s : State) : Except ErrKind State :=
  match decodeReference { s with wRef := refWord s.env s.clock } with
  | .error e => .error e
  | .ok s1 =>
    let s2 := tlbLookup s1
    let resolved : Except ErrKind State :=
      if s2.hit then .ok (ptRechit { s2 with tlbHits := s2.tlbHits + 1 })
      else
        let s3 := ptLookup { s2 with tlbMisses := s2.tlbMisses + 1 }
        if isActive s3 s3.p then .ok (ptRechit { s3 with f := (ptAt s3 s3.p).frame })
        else
          match bsRead { s3 with pageFaults := s3.pageFaults + 1 } with
          | .error e => .error e
          | .ok s4 =>
            match faAlloc s4 with
            | .error e => .error e
            | .ok s5 => .ok (ptRecfault (frFill s5))
    match resolved with
    | .error e => .error e
    | .ok s6 => .ok (clkAdv (frXbyte (tlbInsert s6)))

/-- STEP issued again and again: `n` times while RUNSTATE stays READY, and once more (R172). -/
def stepAgain : Nat → State → Host.Outcome State Fault Refusal
  | 0, s => exec .step s
  | n + 1, s =>
    match exec .step s with
    | .next t => if t.runState = .ready then stepAgain n t else .next t
    | r => r

end Sys2Proof
end

