-- ==== Sys2Proof/Certificates/Slice0/Obligations.lean ====
section
/-! DEFINITION. The statements for the provers, one definition each, in the order of OBLIGATIONS.json. Each docstring
names the rules of spec/ it comes from. -/

open Sys2Proof Sys2Proof.Machine

/-! ### Encodings -/

/-- Decoding the word of a well-formed instruction gives the instruction back, whatever its operands (R60 to R66). -/
def Obligations.DecodeOfEncodeIsTheInstruction : Prop :=
  ∀ i, WellFormed i = true → decodeWord (encode i) = .ok i

/-- A word that decodes is the word of the instruction it decodes to, which is well formed: no word has two readings and
no reserved bit is dropped (R60 to R66). -/
def Obligations.EncodeOfDecodeIsTheWord : Prop :=
  ∀ w i, decodeWord w = .ok i → WellFormed i = true ∧ encode i = w

/-- Words the spec lists (R71, V6.1) decode as it says, and the listing formula of R71 gives the words of INIT and
RDSTAT. -/
def Obligations.ListedWordsDecode : Prop :=
  decodeHost 0x01000002 = .ok (.init 2 0) ∧ decodeHost 0x01000500 = .ok (.init 256 2) ∧
  decodeHost 0x01000203 = .ok (.init 3 1) ∧ decodeHost 0x010005FF = .ok (.init 511 2) ∧
  decodeHost 0x02000000 = .ok .step ∧ decodeHost 0x03000000 = .ok .run ∧
  decodeHost 0x04000002 = .ok (.rdstat 2) ∧ decodeHost 0x04000009 = .ok (.rdstat 9) ∧
  decodeBus 0x10000000 = .ok .decode ∧ decodeBus 0x11000000 = .ok .tlbLookup ∧
  decodeBus 0x17000000 = .ok .ptDeact ∧ decodeBus 0x20000000 = .ok .clkAdv ∧
  decodeHost 0x10000000 = .error .microOpOnHostPort ∧ decodeHost 0x00000000 = .error .unknownOpcode ∧
  decodeHost 0x01000802 = .error .reservedBit ∧ decodeHost 0x0400000A = .error .reservedSelector ∧
  (∀ f p, (encode (.init f p)).toNat = 0x01000000 + p.toNat * 512 + f.toNat) ∧
  (∀ sel, (encode (.rdstat sel)).toNat = 0x04000000 + sel.toNat)

/-- The host port accepts exactly the legal words of R69, and an illegal word raises CommandError, unless RUNSTATE is
ERROR, where it is refused like any other command. -/
def Obligations.HostPortAcceptsExactlyTheLegalWords : Prop :=
  (∀ w, (∃ i, decodeHost w = .ok i) ↔ LegalHostWord w) ∧
  ∀ s w rest, s.bus = none → s.input = .word w :: rest → ¬ LegalHostWord w →
    (s.runState ≠ .error → step s = .next (raise .command { s with input := rest })) ∧
    (s.runState = .error → step s = .next { s with input := rest, out := s.out ++ [.error s.errCode] })

/-! ### The step -/

/-- A step runs the decoded instruction: the word at the head of the command port, which is taken from it, or the class
U word on the internal bus, which is cleared (R64, R174; the queue and the bus are the model's, log 2 and log 4). -/
def Obligations.StepRunsTheDecodedInstruction : Prop :=
  (∀ s w i rest, s.bus = none → s.input = .word w :: rest → decodeHost w = .ok i →
    step s = exec i { s with input := rest }) ∧
  ∀ s w i, s.bus = some w → decodeBus w = .ok i → step s = exec i { s with bus := none }

/-- With nothing pending the unit waits, and a step stops without a next state in four cases only: a word on the
internal bus that is no class U code (log 17), a launch environment attached from an accepted INIT until reset (R218,
log 20), one whose N is larger than its stream (R219, U13, log 9), and one whose N does not fit CLK_W bits (R7, D14,
log 10). -/
def Obligations.StepStopsOnlyOnBadBusWordOrChangedEnvironment : Prop :=
  (∀ s, s.bus = none → s.input = [] → step s = .next s) ∧
  (∀ s r, step s = .fault r ↔ ∃ w e, s.bus = some w ∧ decodeBus w = .error e ∧ r = .badMicroWord w) ∧
  ∀ s r, step s = .refused r ↔ s.bus = none ∧ ∃ env rest, s.input = .attach env :: rest ∧
    ((s.launched = true ∧ r = .envChanged) ∨
      (s.launched = false ∧ env.refWords.length < env.refCount ∧ r = .countPastStream) ∨
      (s.launched = false ∧ env.refCount ≤ env.refWords.length ∧ 2 ^ Config.clkW ≤ env.refCount ∧ r = .countTooWide))

/-- Which command is accepted when (R174). -/
def Obligations.AcceptanceDependsOnRunState : Prop :=
  ∀ s,
    (s.runState = .error →
      (∀ w rest, s.bus = none → s.input = .word w :: rest →
        step s = .next { s with input := rest, out := s.out ++ [.error s.errCode] }) ∧
      ∀ i, isHostCommand i = true → exec i s = .next { s with out := s.out ++ [.error s.errCode] }) ∧
    (s.runState ≠ .error → ∀ w rest, s.bus = none → s.input = .word w :: rest → ¬ LegalHostWord w →
      step s = .next (raise .command { s with input := rest })) ∧
    (s.runState = .unconfigured →
      (∀ f p, exec (.init f p) s = .next (configure f p s)) ∧
      exec .step s = .next (raise .command s) ∧ exec .run s = .next (raise .command s)) ∧
    (s.runState = .ready →
      (∀ f p, exec (.init f p) s = .next (raise .command s)) ∧
      exec .step s = .next (stepBody s) ∧ exec .run s = .next (runBody s)) ∧
    (s.runState ≠ .error → ∀ sel, exec (.rdstat sel) s = .next (readStatus sel s))

/-! ### Reset and errors -/

/-- The values R33 gives for reset, on the state right after it. -/
def Obligations.ResetHoldsTheSpecifiedValues : Prop :=
  State.reset.cfgFrames = 0 ∧ State.reset.cfgPolicy = 0 ∧ State.reset.runState = .unconfigured ∧
  State.reset.errCode = 0 ∧ State.reset.clock = 0 ∧ State.reset.refN = 0 ∧ State.reset.tlb.length = 0 ∧
  (∀ q, (ptAt State.reset q).present = false ∧ (ptAt State.reset q).active = false) ∧
  State.reset.nextFree = 0 ∧ State.reset.tlbHits = 0 ∧ State.reset.tlbMisses = 0 ∧ State.reset.pageFaults = 0

/-- Hardware reset gives every piece of state the value R33 specifies, from any state, without a response, and the launch
environment is untouched. In the middle of a command it abandons the command without a response: of what the command would
have sent had it been let run, the first n records were sent, or all if fewer, and never its response, which comes last
(R215, R172, R33; reset as an event at the ports is the model's, log 19, and so is the bus, log 4). -/
def Obligations.HardwareResetRestoresTheSpecifiedValues : Prop :=
  ∀ s rest, s.bus = none →
    (s.input = .rst :: rest →
      ∃ t, step s = .next t ∧ AtReset t ∧ t.out = s.out ∧ t.env = s.env ∧ t.input = rest) ∧
    ∀ w n, s.input = .rstDuring w n :: rest →
      ∃ t u, step s = .next t ∧ AtReset t ∧ t.env = s.env ∧ t.input = rest ∧
        step { s with input := .word w :: rest } = .next u ∧ t.out = u.out.dropLast.take (s.out.length + n)

/-- The error entry (R196) with the codes of R190: ERR_CODE and RUNSTATE are written and the error response is sent. -/
def Obligations.ErrorEntryWritesCodeAndRunState : Prop :=
  errorCode .config = 1 ∧ errorCode .inputMalformed = 2 ∧ errorCode .resourceExhaustion = 3 ∧
  errorCode .backingStore = 4 ∧ errorCode .command = 5 ∧
  ∀ e s, s.runState ≠ .error →
    (raise e s).errCode = errorCode e ∧ (raise e s).runState = .error ∧
    (raise e s).out = s.out ++ [.error (errorCode e)]

/-- ERROR is left by hardware reset only, and until then the first code stays: no step, of the host or of the internal
bus, changes RUNSTATE or ERR_CODE (R197, R14; that a micro-operation is performed in ERROR is the model's, log 5). -/
def Obligations.ErrorIsLeftByHardwareResetOnly : Prop :=
  ∀ s t, s.runState = .error → step s = .next t →
    (t.runState = .error ∧ t.errCode = s.errCode) ∨ ResetNext s

/-- The transitions of RUNSTATE: reset to UNCONFIGURED, UNCONFIGURED to READY by an accepted INIT, any state to ERROR,
no other (R13), with the codes RDSTAT selector 9 reads. That a micro-operation alone on the bus may raise in any RUNSTATE
is the model's (log 5). -/
def Obligations.RunStateMovesOnlyAlongItsTransitions : Prop :=
  runStateCode .unconfigured = 0 ∧ runStateCode .ready = 1 ∧ runStateCode .error = 2 ∧
  State.reset.runState = .unconfigured ∧
  ∀ s t, step s = .next t → t.runState ≠ s.runState →
    (t.runState = .unconfigured ∧ ResetNext s) ∨
    (s.runState = .unconfigured ∧ t.runState = .ready ∧ s.bus = none ∧
      ∃ w rest f p, s.input = .word w :: rest ∧ decodeHost w = .ok (.init f p) ∧ configLegal f p = true) ∨
    (t.runState = .error ∧ ∃ e, t.errCode = errorCode e)

/-! ### Host commands -/

/-- INIT (R170): in UNCONFIGURED with legal operands it configures the unit and nothing else, with illegal ones it raises
ConfigError; in READY it raises CommandError; in ERROR it is refused. The model's own mark of R218's window is left out of
the statement (log 20). -/
def Obligations.InitConfiguresTheUnit : Prop :=
  ∀ s f p,
    (s.runState = .unconfigured → 1 ≤ f.toNat → f.toNat ≤ 256 → p ≠ 3 →
      ∃ t, exec (.init f p) s = .next t ∧ t = { s with
        cfgFrames := f, cfgPolicy := p, refN := s.env.refCount, runState := .ready, launched := t.launched
        out := s.out ++ [.ok] }) ∧
    (s.runState = .unconfigured → (f.toNat < 1 ∨ 256 < f.toNat ∨ p = 3) →
      exec (.init f p) s = .next (raise .config s)) ∧
    (s.runState = .ready → exec (.init f p) s = .next (raise .command s)) ∧
    (s.runState = .error → exec (.init f p) s = .next { s with out := s.out ++ [.error s.errCode] })

/-- RDSTAT answers the register its selector names, and changes nothing (R68, R173); the reserved selectors raise
CommandError. -/
def Obligations.RdstatReadsTheSelectedRegister : Prop :=
  ∀ s, s.runState ≠ .error →
    exec (.rdstat 0) s = .next { s with out := s.out ++ [.value s.tlbHits] } ∧
    exec (.rdstat 1) s = .next { s with out := s.out ++ [.value s.tlbMisses] } ∧
    exec (.rdstat 2) s = .next { s with out := s.out ++ [.value s.pageFaults] } ∧
    exec (.rdstat 3) s = .next { s with out := s.out ++ [.value s.clock] } ∧
    exec (.rdstat 4) s = .next { s with out := s.out ++ [.value s.refN] } ∧
    exec (.rdstat 5) s = .next { s with out := s.out ++ [.value s.cfgFrames.toNat] } ∧
    exec (.rdstat 6) s = .next { s with out := s.out ++ [.value s.cfgPolicy.toNat] } ∧
    exec (.rdstat 7) s = .next { s with out := s.out ++ [.value s.nextFree.toNat] } ∧
    exec (.rdstat 8) s = .next { s with out := s.out ++ [.value s.tlb.length] } ∧
    exec (.rdstat 9) s = .next { s with out := s.out ++ [.value (runStateCode s.runState).toNat] } ∧
    ∀ sel : BitVec 4, 10 ≤ sel.toNat → exec (.rdstat sel) s = .next (raise .command s)

/-- At the end of the stream STEP and RUN answer done and change nothing (R171, R172). -/
def Obligations.EndOfStreamAnswersDone : Prop :=
  ∀ s, s.runState = .ready → s.clock = s.refN →
    exec .step s = .next { s with out := s.out ++ [.done] } ∧
    exec .run s = .next { s with out := s.out ++ [.done] }

/-- STEP processes the reference: in READY, with references left, the current one well formed, the store readable and,
under OPT, the future well formed, it answers the record of the reference, whose byte and page are the backing store's
whatever the frame count and the policy, and advances CLOCK by 1 (R171, R31, R161). -/
def Obligations.StepAnswersTheRecordOfTheReference : Prop :=
  ∀ s, UnitInv s → s.runState = .ready → s.clock < s.refN → StoreReadable s.env → WordGood s.env s.clock →
    (s.cfgPolicy = policyOpt → FutureGood s) →
    ∃ t, exec .step s = .next t ∧ t.runState = .ready ∧ t.clock = s.clock + 1 ∧
      t.out = s.out ++ [recordFor s.env s.clock t.f] ∧
      isActive t (pageOf (addressOf (refWord s.env s.clock))) = true ∧
      (ptAt t (pageOf (addressOf (refWord s.env s.clock)))).frame = t.f ∧
      t.f.toNat < s.cfgFrames.toNat

/-- RUN processes every remaining reference: with all of them well formed and the store readable it answers their
records in order, then done, with CLOCK = REF_N (R172, R31, R161). -/
def Obligations.RunAnswersEveryRecordThenDone : Prop :=
  ∀ s, UnitInv s → s.runState = .ready → StoreReadable s.env → (s.clock < s.refN → WordGood s.env s.clock) →
    FutureGood s →
    ∃ t fs, exec .run s = .next t ∧ t.runState = .ready ∧ t.clock = s.refN ∧
      fs.length = s.refN - s.clock ∧ t.out = s.out ++ recordsFrom s.env s.clock fs ++ [.done]

/-- RUN is precise: with the store readable and without OPT, RUN over a stream whose word k is the first malformed one
answers the records of the references before it, in order, and then the error of code 2 (R81, R172, R192, R196). -/
def Obligations.RunStopsAtTheFirstMalformedWord : Prop :=
  ∀ s k, UnitInv s → s.runState = .ready → StoreReadable s.env → s.cfgPolicy ≠ policyOpt →
    s.clock ≤ k → k < s.refN → (∀ i, s.clock ≤ i → i < k → WordGood s.env i) → ¬ WordGood s.env k →
    ∃ t fs, exec .run s = .next t ∧ t.runState = .error ∧ t.errCode = 2 ∧ fs.length = k - s.clock ∧
      t.out = s.out ++ recordsFrom s.env s.clock fs ++ [.error 2]

/-- The first reference of a run is always a page fault, and it is given frame 0 (R161, R30). -/
def Obligations.FirstReferenceIsAPageFault : Prop :=
  ∀ s, UnitInv s → s.runState = .ready → s.clock = 0 → 0 < s.refN → StoreReadable s.env → WordGood s.env 0 →
    ∃ t, exec .step s = .next t ∧ t.tlbHits = 0 ∧ t.tlbMisses = 1 ∧ t.pageFaults = 1 ∧ t.f = 0 ∧ t.nextFree = 1

/-- The errors of STEP come in the order of XLATE (R198): a malformed word first; then, for a page that is not resident,
an unreadable block of the store; then, when every frame is in use, OPT's malformed future. -/
def Obligations.StepRaisesTheFirstErrorOfTheOrder : Prop :=
  ∀ s, UnitInv s → s.runState = .ready → s.clock < s.refN →
    (¬ WordGood s.env s.clock → exec .step s = .next (raise .inputMalformed s)) ∧
    (WordGood s.env s.clock → isActive s (pageOf (addressOf (refWord s.env s.clock))) = false →
      ((s.env.bsLen < 65536 ∨ ∃ k < 256, addrOf (pageOf (addressOf (refWord s.env s.clock))) k ∈ s.env.bsBad) →
        exec .step s = .next (raise .backingStore s)) ∧
      (StoreReadable s.env → s.nextFree = s.cfgFrames → s.cfgPolicy = policyOpt → ¬ FutureGood s →
        exec .step s = .next (raise .inputMalformed s)))

/-- RUN is exactly a sequence of REF_N − CLOCK STEPs followed by one more that answers done; an error in one of them ends
both alike (R172). -/
def Obligations.RunIsRepeatedStep : Prop :=
  ∀ s, s.clock ≤ s.refN → exec .run s = stepAgain (s.refN - s.clock) s

/-- XLATE as the chain of sequencer states (R145) is the one function of R159. -/
def Obligations.XlateIsTheWholeSequence : Prop :=
  ∀ s, xlate s = xlateWhole s

/-! ### The micro-operations -/

/-- DECODE splits a well-formed word into its page number and offset and raises InputMalformedError on any other
(R80). -/
def Obligations.DecodeSplitsTheReferenceWord : Prop :=
  ∀ s,
    (s.wRef.toNat < 65536 →
      ∃ t, exec .decode s = .next t ∧ t.la.toNat = s.wRef.toNat ∧ t.p.toNat = s.wRef.toNat / 256 ∧
        t.off.toNat = s.wRef.toNat % 256 ∧ t = { s with la := t.la, p := t.p, off := t.off }) ∧
    (65536 ≤ s.wRef.toNat → exec .decode s = .next (raise .inputMalformed s))

/-- TLB.LOOKUP moves the entry it hits to the newest end and delivers its frame number; a miss changes nothing but the
hit flag (R86; the flag as a register is the model's, log 16). -/
def Obligations.TlbLookupRefreshesTheHitEntry : Prop :=
  ∀ s,
    (∀ pre e post, s.tlb = pre ++ e :: post → e.page = s.p → (∀ x ∈ pre, x.page ≠ s.p) →
      exec .tlbLookup s = .next { s with tlb := pre ++ post ++ [e], hit := true, f := e.frame }) ∧
    ((∀ x ∈ s.tlb, x.page ≠ s.p) → exec .tlbLookup s = .next { s with hit := false })

/-- TLB.INSERT is a no-op when the page is present; otherwise the pair is appended, after the oldest entry of a full TLB
is dropped (R87). -/
def Obligations.TlbInsertAppendsAnAbsentPage : Prop :=
  ∀ s,
    ((∃ x ∈ s.tlb, x.page = s.p) → exec .tlbInsert s = .next s) ∧
    ((∀ x ∈ s.tlb, x.page ≠ s.p) → s.tlb.length < 16 →
      exec .tlbInsert s = .next { s with tlb := s.tlb ++ [{ page := s.p, frame := s.f }] }) ∧
    (∀ oldest rest, s.tlb = oldest :: rest → rest.length = 15 → (∀ x ∈ s.tlb, x.page ≠ s.p) →
      exec .tlbInsert s = .next { s with tlb := rest ++ [{ page := s.p, frame := s.f }] })

/-- TLB.INVAL removes the entry of page VICT and keeps the order of the others; a page that is not cached changes nothing
(R88). -/
def Obligations.TlbInvalRemovesTheVictimsEntry : Prop :=
  ∀ s,
    (∀ pre e post, s.tlb = pre ++ e :: post → e.page = s.vict → (∀ x ∈ pre, x.page ≠ s.vict) →
      exec .tlbInval s = .next { s with tlb := pre ++ post }) ∧
    ((∀ x ∈ s.tlb, x.page ≠ s.vict) → exec .tlbInval s = .next s)

/-- Laws 1 to 4 of the TLB operations (R89): a lookup after an insert hits, a lookup after an invalidation misses, no
operation makes a page appear twice or the TLB too long, a lookup keeps the set of pairs, an invalidation removes at most
the pair of its page, and an insert adds at most its pair and removes at most the pair at slot 0. -/
def Obligations.TlbOperationsKeepTheTlbLaws : Prop :=
  (∀ s t, (∀ x ∈ s.tlb, x.page ≠ s.p) → exec .tlbInsert s = .next t →
    ∃ u, exec .tlbLookup t = .next u ∧ u.hit = true ∧ u.f = s.f) ∧
  (∀ s t, (s.tlb.map TlbEntry.page).Nodup → exec .tlbInval s = .next t →
    ∃ u, exec .tlbLookup { t with p := s.vict } = .next u ∧ u.hit = false) ∧
  (∀ s t (i : Instr), i = .tlbLookup ∨ i = .tlbInsert ∨ i = .tlbInval → (s.tlb.map TlbEntry.page).Nodup →
    s.tlb.length ≤ 16 → exec i s = .next t → (t.tlb.map TlbEntry.page).Nodup ∧ t.tlb.length ≤ 16) ∧
  (∀ s t, exec .tlbLookup s = .next t → t.tlb.Perm s.tlb) ∧
  (∀ s t, exec .tlbInval s = .next t → t.tlb = s.tlb ∨ ∃ e, e.page = s.vict ∧ s.tlb.Perm (e :: t.tlb)) ∧
  (∀ s t, exec .tlbInsert s = .next t → t.tlb = s.tlb ∨ t.tlb = s.tlb ++ [{ page := s.p, frame := s.f }] ∨
    ∃ slot0 rest, s.tlb = slot0 :: rest ∧ t.tlb = rest ++ [{ page := s.p, frame := s.f }])

/-- PT.LOOKUP answers the entry of a created page and Absent for any other, and what it answers is resident exactly when
PRESENT and ACTIVE are both 1 (R100, R104; the result as a register is the model's, log 16). -/
def Obligations.PtLookupAnswersTheEntry : Prop :=
  ∀ s,
    ((ptAt s s.p).present = true → exec .ptLookup s = .next { s with ent := some (ptAt s s.p) }) ∧
    ((ptAt s s.p).present = false → exec .ptLookup s = .next { s with ent := none }) ∧
    ∀ t, exec .ptLookup s = .next t →
      (residentResult t.ent = true ↔ (ptAt s s.p).present = true ∧ (ptAt s s.p).active = true)

/-- PT.RECFAULT writes all five fields of PT[P] and no other entry (R101). -/
def Obligations.PtRecfaultCreatesTheEntry : Prop :=
  ∀ s, ∃ t, exec .ptRecfault s = .next t ∧
    ptAt t s.p = { present := true, active := true, frame := s.f, loadTime := s.clock, lastRef := s.clock } ∧
    (∀ q, q ≠ s.p → ptAt t q = ptAt s q) ∧ t = { s with pt := t.pt }

/-- PT.RECHIT writes LAST_REF of PT[P] and nothing else, whatever the entry's state (R102; log 14). -/
def Obligations.PtRechitWritesLastRefOnly : Prop :=
  ∀ s, ∃ t, exec .ptRechit s = .next t ∧ ptAt t s.p = { ptAt s s.p with lastRef := s.clock } ∧
    (∀ q, q ≠ s.p → ptAt t q = ptAt s q) ∧ t = { s with pt := t.pt }

/-- PT.DEACT clears ACTIVE of PT[VICT] and nothing else (R103). -/
def Obligations.PtDeactClearsActiveOnly : Prop :=
  ∀ s, ∃ t, exec .ptDeact s = .next t ∧ ptAt t s.vict = { ptAt s s.vict with active := false } ∧
    (∀ q, q ≠ s.vict → ptAt t q = ptAt s q) ∧ t = { s with pt := t.pt }

/-- BS.READ fetches the block of page P, byte k from address P × 256 + k, and raises BackingStoreError on a short store
or an unreadable byte of the block (R115, R56). -/
def Obligations.BsReadFetchesTheBlock : Prop :=
  ∀ s,
    (65536 ≤ s.env.bsLen → (∀ k < 256, s.p.toNat * 256 + k ∉ s.env.bsBad) →
      ∃ t, exec .bsRead s = .next t ∧
        (∀ k (h : k < 256), t.blk[k] = storeByte s.env (s.p.toNat * 256 + k)) ∧ t = { s with blk := t.blk }) ∧
    ((s.env.bsLen < 65536 ∨ ∃ k < 256, s.p.toNat * 256 + k ∈ s.env.bsBad) →
      exec .bsRead s = .next (raise .backingStore s))

/-- FA.ALLOC's bump path: while NEXT_FREE < CFG_FRAMES it hands out frame NEXT_FREE, whatever the policy and the stream
(R121). -/
def Obligations.FaAllocBumpsWhileFramesAreLeft : Prop :=
  ∀ s, s.nextFree.toNat < s.cfgFrames.toNat → s.cfgFrames.toNat ≤ 256 →
    ∃ t, exec .faAlloc s = .next t ∧ t.f.toNat = s.nextFree.toNat ∧ t.nextFree.toNat = s.nextFree.toNat + 1 ∧
      t = { s with f := t.f, nextFree := t.nextFree }

/-- FA.ALLOC's evict path: with every frame in use it takes the frame of an active page the policy chose, deactivates that
page and purges it from the TLB (R122). -/
def Obligations.FaAllocEvictsTheChosenVictim : Prop :=
  ∀ s, s.nextFree = s.cfgFrames → (∃ q, isActive s q = true) → (s.tlb.map TlbEntry.page).Nodup →
    s.cfgPolicy ≠ policyReserved → (s.cfgPolicy = policyOpt → FutureGood s) →
    ∃ t v, exec .rpSelect s = .next { s with vict := v } ∧ exec .faAlloc s = .next t ∧ isActive s v = true ∧
      t.vict = v ∧ t.f = (ptAt s v).frame ∧ ptAt t v = { ptAt s v with active := false } ∧
      (∀ q, q ≠ v → ptAt t q = ptAt s q) ∧ t.tlb = s.tlb.filter (fun e => e.page != v) ∧
      t = { s with vict := t.vict, f := t.f, pt := t.pt, tlb := t.tlb }

/-- RP.SELECT issues the algorithm CFG_POLICY names; the arms for corrupted state raise: no active page and
NEXT_FREE > CFG_FRAMES ResourceExhaustionError, the reserved code ConfigError (R130, R136, R123). -/
def Obligations.RpSelectFollowsThePolicyCode : Prop :=
  ∀ s,
    ((∀ q, isActive s q = false) → exec .rpSelect s = .next (raise .resourceExhaustion s)) ∧
    ((∃ q, isActive s q = true) →
      (s.cfgPolicy = 0 → exec .rpSelect s = exec .rpFifo s) ∧ (s.cfgPolicy = 1 → exec .rpSelect s = exec .rpLru s) ∧
      (s.cfgPolicy = 2 → exec .rpSelect s = exec .rpOpt s) ∧
      (s.cfgPolicy = 3 → exec .rpSelect s = .next (raise .config s))) ∧
    (s.cfgFrames.toNat < s.nextFree.toNat → exec .faAlloc s = .next (raise .resourceExhaustion s))

/-- RP.FIFO chooses the active page of least LOAD_TIME, the lowest page number on a tie, and writes nothing but VICT
(R131). -/
def Obligations.RpFifoChoosesTheOldestLoad : Prop :=
  ∀ s, (∃ q, isActive s q = true) →
    ∃ v, exec .rpFifo s = .next { s with vict := v } ∧
      (s.cfgPolicy = 0 → exec .rpSelect s = .next { s with vict := v }) ∧ isActive s v = true ∧
      ∀ q, isActive s q = true → (ptAt s v).loadTime < (ptAt s q).loadTime ∨
        ((ptAt s v).loadTime = (ptAt s q).loadTime ∧ v.toNat ≤ q.toNat)

/-- RP.LRU chooses the active page of least LAST_REF, the lowest page number on a tie, and writes nothing but VICT
(R132). -/
def Obligations.RpLruChoosesTheLeastRecentReference : Prop :=
  ∀ s, (∃ q, isActive s q = true) →
    ∃ v, exec .rpLru s = .next { s with vict := v } ∧
      (s.cfgPolicy = 1 → exec .rpSelect s = .next { s with vict := v }) ∧ isActive s v = true ∧
      ∀ q, isActive s q = true → (ptAt s v).lastRef < (ptAt s q).lastRef ∨
        ((ptAt s v).lastRef = (ptAt s q).lastRef ∧ v.toNat ≤ q.toNat)

/-- RP.OPT chooses the lowest-numbered active page that the future never uses again, or, when every active page is used
again, the one whose next use is farthest; a malformed future word raises InputMalformedError (R133, R134). -/
def Obligations.RpOptLooksFarthestIntoTheFuture : Prop :=
  ∀ s,
    ((∃ q, isActive s q = true) → FutureGood s →
      ∃ v, exec .rpOpt s = .next { s with vict := v } ∧ isActive s v = true ∧
        ((∃ q, isActive s q = true ∧ ∀ i, ¬ UsedAt s q i) →
          (∀ i, ¬ UsedAt s v i) ∧ ∀ q, isActive s q = true → (∀ i, ¬ UsedAt s q i) → v.toNat ≤ q.toNat) ∧
        ((∀ q, isActive s q = true → ∃ i, UsedAt s q i) →
          ∀ q, isActive s q = true → q ≠ v → ∃ i, UsedAt s q i ∧ ∀ j, j ≤ i → ¬ UsedAt s v j)) ∧
    (¬ FutureGood s → exec .rpOpt s = .next (raise .inputMalformed s))

/-- FR.FILL writes the 256 bytes of frame F and no other byte (R124). That it does so also for F at CFG_FRAMES or above,
where R56 gives MemWrite a precondition, is the model's reading (log 13). -/
def Obligations.FrFillWritesTheWholeFrame : Prop :=
  ∀ s, ∃ t, exec .frFill s = .next t ∧
    (∀ k (h : k < 256), memRead t.frame (addrOf s.f k) = some s.blk[k]) ∧
    (∀ a, a < addrOf s.f 0 ∨ addrOf s.f 256 ≤ a → memRead t.frame a = memRead s.frame a) ∧ t = { s with frame := t.frame }

/-- FR.XBYTE reads the byte at offset OFF of frame F; a byte greater than 129 is output as that byte minus 256, any other
as itself (R157). That it reads the array also for F at NEXT_FREE or above, where R56 gives MemRead a precondition, is the
model's reading (log 13). -/
def Obligations.FrXbyteKeepsTheSignThreshold : Prop :=
  ∀ s, ∃ t, exec .frXbyte s = .next t ∧ t.raw = frameByte s (s.f.toNat * 256 + s.off.toNat) ∧
    (129 < t.raw.toNat → t.sb.toInt = (t.raw.toNat : Int) - 256) ∧ (t.raw.toNat ≤ 129 → t.sb.toInt = t.raw.toNat) ∧
    t = { s with raw := t.raw, sb := t.sb }

/-- CLK.ADV adds 1 to CLOCK and writes nothing else (R158). -/
def Obligations.ClkAdvAddsOne : Prop :=
  ∀ s, exec .clkAdv s = .next { s with clock := s.clock + 1 }

/-! ### Frames -/

/-- What a micro-operation that raises no error leaves unchanged: everything but the results its rule names; every byte of
the frame memory but those of frame F under FR.FILL (R80 to R88, R100 to R103, R115, R120, R124, R130 to R133, R157,
R158). -/
def Obligations.MicroOperationsWriteOnlyTheirResults : Prop :=
  ∀ i s t, isHostCommand i = false → exec i s = .next t → (t.runState = .error → s.runState = .error) →
    (t.cfgFrames = s.cfgFrames ∧ t.cfgPolicy = s.cfgPolicy ∧ t.refN = s.refN ∧ t.tlbHits = s.tlbHits ∧
      t.tlbMisses = s.tlbMisses ∧ t.pageFaults = s.pageFaults ∧ t.wRef = s.wRef ∧ t.runState = s.runState ∧
      t.errCode = s.errCode ∧ t.env = s.env ∧ t.launched = s.launched ∧ t.input = s.input ∧ t.bus = s.bus) ∧
    (i ≠ .clkAdv → t.clock = s.clock) ∧
    (i ≠ .tlbLookup → i ≠ .tlbInsert → i ≠ .tlbInval → i ≠ .faAlloc → t.tlb = s.tlb) ∧
    (i ≠ .ptRecfault → i ≠ .ptRechit → i ≠ .ptDeact → i ≠ .faAlloc → ∀ q, ptAt t q = ptAt s q) ∧
    (i ≠ .faAlloc → t.nextFree = s.nextFree) ∧
    (i ≠ .decode → t.la = s.la ∧ t.p = s.p ∧ t.off = s.off) ∧
    (i ≠ .tlbLookup → i ≠ .faAlloc → t.f = s.f) ∧
    (i ≠ .faAlloc → i ≠ .rpSelect → i ≠ .rpFifo → i ≠ .rpLru → i ≠ .rpOpt → t.vict = s.vict) ∧
    (i ≠ .bsRead → t.blk = s.blk) ∧ (i ≠ .frXbyte → t.raw = s.raw ∧ t.sb = s.sb) ∧
    (i ≠ .tlbLookup → t.hit = s.hit) ∧ (i ≠ .ptLookup → t.ent = s.ent) ∧
    ∀ a, (i = .frFill → a < addrOf s.f 0 ∨ addrOf s.f 256 ≤ a) → memRead t.frame a = memRead s.frame a

/-- What STEP leaves unchanged when no error is raised: the configuration, RUNSTATE, ERR_CODE, and every byte of the frame
memory outside the frame F it resolved, and every byte at all when no page fault was counted (R171, R159, R124). -/
def Obligations.StepStoresOnlyInTheResolvedFrame : Prop :=
  ∀ s t, exec .step s = .next t → t.runState ≠ .error →
    t.cfgFrames = s.cfgFrames ∧ t.cfgPolicy = s.cfgPolicy ∧ t.refN = s.refN ∧ t.runState = s.runState ∧
    t.errCode = s.errCode ∧ t.env = s.env ∧ t.launched = s.launched ∧ t.input = s.input ∧ t.bus = s.bus ∧
    (∀ a, a < addrOf t.f 0 ∨ addrOf t.f 256 ≤ a → memRead t.frame a = memRead s.frame a) ∧
    (t.pageFaults = s.pageFaults → ∀ a, memRead t.frame a = memRead s.frame a)

/-- What RUN leaves unchanged when no error is raised: the configuration, RUNSTATE, ERR_CODE, and every byte of the frames
CFG_FRAMES and above, which are never written (R172, R21, R43). -/
def Obligations.RunLeavesTheUnusedFrames : Prop :=
  ∀ s t, UnitInv s → exec .run s = .next t → t.runState ≠ .error →
    t.cfgFrames = s.cfgFrames ∧ t.cfgPolicy = s.cfgPolicy ∧ t.refN = s.refN ∧ t.runState = s.runState ∧
    t.errCode = s.errCode ∧ t.env = s.env ∧ t.launched = s.launched ∧ t.input = s.input ∧ t.bus = s.bus ∧
    ∀ a, s.cfgFrames.toNat * 256 ≤ a → memRead t.frame a = memRead s.frame a

/-- The launch environment is never written: only the host's own attaching changes it, never from an accepted INIT until
reset, and its N is no larger than its stream and fits CLK_W bits (R8, R42, R44, R218, R219, R7; the attaching event and its
three refusals are the model's, log 9, log 10 and log 20). -/
def Obligations.EnvironmentIsNeverWritten : Prop :=
  ∀ s t, step s = .next t →
    t.env = s.env ∨ (s.bus = none ∧ s.launched = false ∧ t.env.refCount ≤ t.env.refWords.length ∧
      t.env.refCount < 2 ^ Config.clkW ∧
      ∃ rest, s.input = .attach t.env :: rest)

/-- The frame number of a page is stable while it is active: a page active before and after a STEP has the same frame
number (R28). -/
def Obligations.FrameNumberIsStableWhileActive : Prop :=
  ∀ s t q, exec .step s = .next t → t.runState ≠ .error → isActive s q = true → isActive t q = true →
    (ptAt t q).frame = (ptAt s q).frame

/-- CLOCK counts references and is the sole basis of the time stamps: STEP adds 1, or nothing at the end of the stream,
RUN goes to REF_N, and a stamp that changed is a value CLOCK held meanwhile (R29, R15). -/
def Obligations.ClockIsTheSoleTimeBasis : Prop :=
  (∀ s t, exec .step s = .next t → t.runState ≠ .error →
    (s.clock = s.refN → t.clock = s.clock) ∧ (s.clock ≠ s.refN → t.clock = s.clock + 1)) ∧
  (∀ s t, exec .run s = .next t → t.runState ≠ .error → t.clock = max s.clock s.refN) ∧
  ∀ (i : Instr) s t, i = .step ∨ i = .run → exec i s = .next t → t.runState ≠ .error → ∀ q,
    ((ptAt t q).lastRef = (ptAt s q).lastRef ∨ (s.clock ≤ (ptAt t q).lastRef ∧ (ptAt t q).lastRef < t.clock)) ∧
    ((ptAt t q).loadTime = (ptAt s q).loadTime ∨ (s.clock ≤ (ptAt t q).loadTime ∧ (ptAt t q).loadTime < t.clock))

/-! ### Invariants -/

/-- The reset state meets the invariant. -/
def Obligations.ResetMeetsTheInvariant : Prop :=
  UnitInv State.reset

/-- Every step keeps the invariant of the unit between commands (R18, R26, R27, R30 to R33, R161, R163). Its clauses that
the internal bus is empty, that the TLB has at most 16 entries also in ERROR, and on the window of R218 are the model's
(log 4, log 6, log 20). -/
def Obligations.StepKeepsTheInvariant : Prop :=
  ∀ s t, UnitInv s → step s = .next t → UnitInv t

/-- Every step, of the host or of the internal bus, in any RUNSTATE, keeps the form of the state: a canonical frame
memory inside its 65536 bytes and a TLB of at most 16 entries (R17, R21; that the free TLB after an error has at most 16
is the model's, log 6). -/
def Obligations.StepKeepsTheForm : Prop :=
  ∀ s t, Form s → step s = .next t → Form t

/-- After every step that ends in READY, at most CFG_FRAMES pages are active and each owns a distinct frame number below
CFG_FRAMES; their number is NEXT_FREE, and the frames handed out are exactly theirs (R26, R30). -/
def Obligations.ActivePagesOwnDistinctFrames : Prop :=
  ∀ s t, UnitInv s → step s = .next t → t.runState = .ready →
    (activePages t).length ≤ t.cfgFrames.toNat ∧
    (∀ q, isActive t q = true → (ptAt t q).frame.toNat < t.cfgFrames.toNat) ∧
    (∀ q r, isActive t q = true → isActive t r = true → q ≠ r → (ptAt t q).frame ≠ (ptAt t r).frame) ∧
    t.nextFree.toNat ≤ t.cfgFrames.toNat ∧ (activePages t).length = t.nextFree.toNat ∧
    (∀ k, k < t.nextFree.toNat ↔ ∃ q, isActive t q = true ∧ (ptAt t q).frame.toNat = k) ∧
    t.tlb.length ≤ min 16 t.nextFree.toNat

/-- After every step that ends in READY, every TLB entry is the mapping of an active page and no page is in the TLB twice
(R27, R18). -/
def Obligations.TlbHoldsOnlyActiveMappings : Prop :=
  ∀ s t, UnitInv s → step s = .next t → t.runState = .ready →
    (∀ e ∈ t.tlb, (ptAt t e.page).active = true ∧ (ptAt t e.page).frame = e.frame) ∧
    (t.tlb.map TlbEntry.page).Nodup

/-- After every step that ends in READY, every active page's frame holds its page of the backing store (R31). -/
def Obligations.FramesHoldTheirPages : Prop :=
  ∀ s t, UnitInv s → step s = .next t → t.runState = .ready →
    ∀ q, isActive t q = true → ∀ o < 256,
      frameByte t (addrOf (ptAt t q).frame o) = storeByte t.env (q.toNat * 256 + o)

/-- After every step that ends in READY, LOAD_TIME ≤ LAST_REF < CLOCK for every created page, and two created pages
differ in both time stamps (R32). -/
def Obligations.TimeStampsAreOrderedAndDistinct : Prop :=
  ∀ s t, UnitInv s → step s = .next t → t.runState = .ready →
    (∀ q, (ptAt t q).present = true →
      (ptAt t q).loadTime ≤ (ptAt t q).lastRef ∧ (ptAt t q).lastRef < t.clock) ∧
    ∀ q r, (ptAt t q).present = true → (ptAt t r).present = true → q ≠ r →
      (ptAt t q).lastRef ≠ (ptAt t r).lastRef ∧ (ptAt t q).loadTime ≠ (ptAt t r).loadTime

/-- After every step that ends in READY, hits and misses add up to the references processed, page faults are misses, and no
counter passes REF_N, which fits CLK_W bits where N does, as R7 asks of every launch environment (R161, R163; log 10). -/
def Obligations.CountersAddUpToTheClock : Prop :=
  ∀ s t, UnitInv s → step s = .next t → t.runState = .ready →
    t.tlbHits + t.tlbMisses = t.clock ∧ t.pageFaults ≤ t.tlbMisses ∧ t.clock ≤ t.refN ∧
    (t.env.refCount < 2 ^ Config.clkW → t.refN < 2 ^ Config.clkW)

/-! ### Whole-machine rules -/

/-- The errors for corrupted state are dead: from a state of the invariant no step raises ResourceExhaustionError, and
ConfigError is raised by an INIT with illegal operands only (R193, R136, R191). -/
def Obligations.CorruptedStateErrorsAreNeverRaised : Prop :=
  ∀ s t, UnitInv s → s.runState ≠ .error → step s = .next t → t.runState = .error →
    t.errCode ≠ 3 ∧
    (t.errCode = 1 → ∃ w rest f p, s.input = .word w :: rest ∧ decodeHost w = .ok (.init f p) ∧
      configLegal f p = false)

/-- With at most 16 frames the soft miss never occurs: every TLB miss a STEP or a RUN counts is a page fault (R151). -/
def Obligations.SmallPoolsNeverMissSoftly : Prop :=
  ∀ (i : Instr) s t, i = .step ∨ i = .run → UnitInv s → s.runState = .ready → s.cfgFrames.toNat ≤ 16 → exec i s = .next t →
    t.runState = .ready → t.tlbMisses + s.pageFaults = s.tlbMisses + t.pageFaults

/-- With 256 frames no eviction ever happens and the three policies give identical runs: the same responses, counters
and state but for CFG_POLICY itself (R161). -/
def Obligations.FullPoolPoliciesAgree : Prop :=
  ∀ (i : Instr) s t p, i = .step ∨ i = .run → UnitInv s → s.runState = .ready → s.cfgFrames.toNat = 256 → p ≠ policyReserved →
    exec i s = .next t → t.runState = .ready →
    exec i { s with cfgPolicy := p } = .next { t with cfgPolicy := p }

/-- Repeating a page number twice in a row is a TLB hit the second time, with the same frame number and content (R89). -/
def Obligations.SamePageTwiceHitsTheTlb : Prop :=
  ∀ s t u, UnitInv s → s.runState = .ready → s.clock + 1 < s.refN →
    pageOf (addressOf (refWord s.env s.clock)) = pageOf (addressOf (refWord s.env (s.clock + 1))) →
    exec .step s = .next t → t.runState = .ready → exec .step t = .next u → u.runState = .ready →
    u.tlbHits = t.tlbHits + 1 ∧ u.f = t.f ∧
    ∃ la sb la' sb' data, t.out = s.out ++ [.record la sb t.f data] ∧ u.out = t.out ++ [.record la' sb' t.f data]

/-! ### Responses -/

/-- The words of the five kinds of response (R73, R176): the fixed ones, the value word of CLK_W bits, low 32 bits first
when it is wider than the port, and an output record of a header, the SBYTE word and 64 data words, lowest byte index in the
lowest bits; `rsp_last` marks the last word only. CLK_W is open, and of a value that does not fit it only the number of
words is stated; the bits of the last word above CLK_W are open too (log 10). -/
def Obligations.ResponseWordsFollowTheLayout : Prop :=
  responseWords .ok = [0x00000000] ∧ responseWords .done = [0x00000001] ∧
  (∀ e, responseWords (.error (errorCode e)) = [BitVec.ofNat 32 ((errorCode e).toNat * 4 + 2)]) ∧
  (∀ v, ∃ ws : List Word, responseWords (.value v) = 0x00000000 :: ws ∧ ws.length = (Config.clkW + 31) / 32 ∧
    (v < 2 ^ Config.clkW → ∀ k < ws.length, ∃ w, ws[k]? = some w ∧
      if 32 * (k + 1) ≤ Config.clkW then w = BitVec.ofNat 32 (v / 2 ^ (32 * k))
      else w.toNat % 2 ^ (Config.clkW - 32 * k) = v / 2 ^ (32 * k))) ∧
  (∀ addr sb f data, ∃ ds : List Word, responseWords (.record addr sb f data) =
      BitVec.ofNat 32 (addr.toNat * 65536 + f.toNat * 256) :: BitVec.ofNat 32 sb.toNat :: ds ∧ ds.length = 64 ∧
      ∀ k (h : k < 64), ds[k]? = some (BitVec.ofNat 32
        (data[4 * k].toNat + data[4 * k + 1].toNat * 2 ^ 8 + data[4 * k + 2].toNat * 2 ^ 16 +
          data[4 * k + 3].toNat * 2 ^ 24))) ∧
  ∀ r, ∃ ws w, responseBeats r = ws.map (fun v => (v, false)) ++ [(w, true)] ∧ responseWords r = ws ++ [w]
end

