-- ==== Sys2Proof/Laws/State.lean ====
section
/-! SUPPORT. One lemma per field per update, each true by `rfl`: what a named operation writes and what it leaves. With
them no later proof unfolds a record update. -/

namespace Sys2Proof.Laws

open Sys2Proof.Machine

/-- The machine after DECODE of a well-formed current reference (R146, R80): the state the rest of XLATE starts from. -/
def decoded (s : State) : State :=
  let w := refWord s.env s.clock
  { s with wRef := w, la := addressOf w, p := pageOf (addressOf w), off := offsetOf (addressOf w) }

/-! ### respond -/

@[simp] theorem respond_cfgFrames (s : State) (r : Response) : (respond s r).cfgFrames = s.cfgFrames := rfl
@[simp] theorem respond_cfgPolicy (s : State) (r : Response) : (respond s r).cfgPolicy = s.cfgPolicy := rfl
@[simp] theorem respond_clock (s : State) (r : Response) : (respond s r).clock = s.clock := rfl
@[simp] theorem respond_refN (s : State) (r : Response) : (respond s r).refN = s.refN := rfl
@[simp] theorem respond_tlb (s : State) (r : Response) : (respond s r).tlb = s.tlb := rfl
@[simp] theorem respond_pt (s : State) (r : Response) : (respond s r).pt = s.pt := rfl
@[simp] theorem respond_nextFree (s : State) (r : Response) : (respond s r).nextFree = s.nextFree := rfl
@[simp] theorem respond_tlbHits (s : State) (r : Response) : (respond s r).tlbHits = s.tlbHits := rfl
@[simp] theorem respond_tlbMisses (s : State) (r : Response) : (respond s r).tlbMisses = s.tlbMisses := rfl
@[simp] theorem respond_pageFaults (s : State) (r : Response) : (respond s r).pageFaults = s.pageFaults := rfl
@[simp] theorem respond_wRef (s : State) (r : Response) : (respond s r).wRef = s.wRef := rfl
@[simp] theorem respond_la (s : State) (r : Response) : (respond s r).la = s.la := rfl
@[simp] theorem respond_p (s : State) (r : Response) : (respond s r).p = s.p := rfl
@[simp] theorem respond_off (s : State) (r : Response) : (respond s r).off = s.off := rfl
@[simp] theorem respond_f (s : State) (r : Response) : (respond s r).f = s.f := rfl
@[simp] theorem respond_vict (s : State) (r : Response) : (respond s r).vict = s.vict := rfl
@[simp] theorem respond_blk (s : State) (r : Response) : (respond s r).blk = s.blk := rfl
@[simp] theorem respond_raw (s : State) (r : Response) : (respond s r).raw = s.raw := rfl
@[simp] theorem respond_sb (s : State) (r : Response) : (respond s r).sb = s.sb := rfl
@[simp] theorem respond_hit (s : State) (r : Response) : (respond s r).hit = s.hit := rfl
@[simp] theorem respond_ent (s : State) (r : Response) : (respond s r).ent = s.ent := rfl
@[simp] theorem respond_runState (s : State) (r : Response) : (respond s r).runState = s.runState := rfl
@[simp] theorem respond_errCode (s : State) (r : Response) : (respond s r).errCode = s.errCode := rfl
@[simp] theorem respond_frame (s : State) (r : Response) : (respond s r).frame = s.frame := rfl
@[simp] theorem respond_bus (s : State) (r : Response) : (respond s r).bus = s.bus := rfl
@[simp] theorem respond_env (s : State) (r : Response) : (respond s r).env = s.env := rfl
@[simp] theorem respond_launched (s : State) (r : Response) : (respond s r).launched = s.launched := rfl
@[simp] theorem respond_input (s : State) (r : Response) : (respond s r).input = s.input := rfl
@[simp] theorem respond_out (s : State) (r : Response) : (respond s r).out = s.out ++ [r] := rfl
@[simp] theorem respond_free (s : State) (r : Response) : (respond s r).free = s.free := rfl
@[simp] theorem respond_gen (s : State) (r : Response) : (respond s r).gen = s.gen := rfl
@[simp] theorem respond_ptAt (s : State) (r : Response) (q : Index) : ptAt (respond s r) q = ptAt s q := rfl

/-! ### writeFrame -/

@[simp] theorem writeFrame_cfgFrames (s : State) (f : Index) (blk : Block) : (writeFrame s f blk).cfgFrames = s.cfgFrames := rfl
@[simp] theorem writeFrame_cfgPolicy (s : State) (f : Index) (blk : Block) : (writeFrame s f blk).cfgPolicy = s.cfgPolicy := rfl
@[simp] theorem writeFrame_clock (s : State) (f : Index) (blk : Block) : (writeFrame s f blk).clock = s.clock := rfl
@[simp] theorem writeFrame_refN (s : State) (f : Index) (blk : Block) : (writeFrame s f blk).refN = s.refN := rfl
@[simp] theorem writeFrame_tlb (s : State) (f : Index) (blk : Block) : (writeFrame s f blk).tlb = s.tlb := rfl
@[simp] theorem writeFrame_pt (s : State) (f : Index) (blk : Block) : (writeFrame s f blk).pt = s.pt := rfl
@[simp] theorem writeFrame_nextFree (s : State) (f : Index) (blk : Block) : (writeFrame s f blk).nextFree = s.nextFree := rfl
@[simp] theorem writeFrame_tlbHits (s : State) (f : Index) (blk : Block) : (writeFrame s f blk).tlbHits = s.tlbHits := rfl
@[simp] theorem writeFrame_tlbMisses (s : State) (f : Index) (blk : Block) : (writeFrame s f blk).tlbMisses = s.tlbMisses := rfl
@[simp] theorem writeFrame_pageFaults (s : State) (f : Index) (blk : Block) : (writeFrame s f blk).pageFaults = s.pageFaults := rfl
@[simp] theorem writeFrame_wRef (s : State) (f : Index) (blk : Block) : (writeFrame s f blk).wRef = s.wRef := rfl
@[simp] theorem writeFrame_la (s : State) (f : Index) (blk : Block) : (writeFrame s f blk).la = s.la := rfl
@[simp] theorem writeFrame_p (s : State) (f : Index) (blk : Block) : (writeFrame s f blk).p = s.p := rfl
@[simp] theorem writeFrame_off (s : State) (f : Index) (blk : Block) : (writeFrame s f blk).off = s.off := rfl
@[simp] theorem writeFrame_f (s : State) (f : Index) (blk : Block) : (writeFrame s f blk).f = s.f := rfl
@[simp] theorem writeFrame_vict (s : State) (f : Index) (blk : Block) : (writeFrame s f blk).vict = s.vict := rfl
@[simp] theorem writeFrame_blk (s : State) (f : Index) (blk : Block) : (writeFrame s f blk).blk = s.blk := rfl
@[simp] theorem writeFrame_raw (s : State) (f : Index) (blk : Block) : (writeFrame s f blk).raw = s.raw := rfl
@[simp] theorem writeFrame_sb (s : State) (f : Index) (blk : Block) : (writeFrame s f blk).sb = s.sb := rfl
@[simp] theorem writeFrame_hit (s : State) (f : Index) (blk : Block) : (writeFrame s f blk).hit = s.hit := rfl
@[simp] theorem writeFrame_ent (s : State) (f : Index) (blk : Block) : (writeFrame s f blk).ent = s.ent := rfl
@[simp] theorem writeFrame_runState (s : State) (f : Index) (blk : Block) : (writeFrame s f blk).runState = s.runState := rfl
@[simp] theorem writeFrame_errCode (s : State) (f : Index) (blk : Block) : (writeFrame s f blk).errCode = s.errCode := rfl
@[simp] theorem writeFrame_frame (s : State) (f : Index) (blk : Block) : (writeFrame s f blk).frame = memWriteRun s.frame (addrOf f 0) blk.toList := rfl
@[simp] theorem writeFrame_bus (s : State) (f : Index) (blk : Block) : (writeFrame s f blk).bus = s.bus := rfl
@[simp] theorem writeFrame_env (s : State) (f : Index) (blk : Block) : (writeFrame s f blk).env = s.env := rfl
@[simp] theorem writeFrame_launched (s : State) (f : Index) (blk : Block) : (writeFrame s f blk).launched = s.launched := rfl
@[simp] theorem writeFrame_input (s : State) (f : Index) (blk : Block) : (writeFrame s f blk).input = s.input := rfl
@[simp] theorem writeFrame_out (s : State) (f : Index) (blk : Block) : (writeFrame s f blk).out = s.out := rfl
@[simp] theorem writeFrame_free (s : State) (f : Index) (blk : Block) : (writeFrame s f blk).free = s.free := rfl
@[simp] theorem writeFrame_gen (s : State) (f : Index) (blk : Block) : (writeFrame s f blk).gen = s.gen := rfl
@[simp] theorem writeFrame_ptAt (s : State) (f : Index) (blk : Block) (q : Index) : ptAt (writeFrame s f blk) q = ptAt s q := rfl

/-! ### ptPut -/

@[simp] theorem ptPut_cfgFrames (s : State) (p : Index) (e : PtEntry) : (ptPut s p e).cfgFrames = s.cfgFrames := rfl
@[simp] theorem ptPut_cfgPolicy (s : State) (p : Index) (e : PtEntry) : (ptPut s p e).cfgPolicy = s.cfgPolicy := rfl
@[simp] theorem ptPut_clock (s : State) (p : Index) (e : PtEntry) : (ptPut s p e).clock = s.clock := rfl
@[simp] theorem ptPut_refN (s : State) (p : Index) (e : PtEntry) : (ptPut s p e).refN = s.refN := rfl
@[simp] theorem ptPut_tlb (s : State) (p : Index) (e : PtEntry) : (ptPut s p e).tlb = s.tlb := rfl
@[simp] theorem ptPut_nextFree (s : State) (p : Index) (e : PtEntry) : (ptPut s p e).nextFree = s.nextFree := rfl
@[simp] theorem ptPut_tlbHits (s : State) (p : Index) (e : PtEntry) : (ptPut s p e).tlbHits = s.tlbHits := rfl
@[simp] theorem ptPut_tlbMisses (s : State) (p : Index) (e : PtEntry) : (ptPut s p e).tlbMisses = s.tlbMisses := rfl
@[simp] theorem ptPut_pageFaults (s : State) (p : Index) (e : PtEntry) : (ptPut s p e).pageFaults = s.pageFaults := rfl
@[simp] theorem ptPut_wRef (s : State) (p : Index) (e : PtEntry) : (ptPut s p e).wRef = s.wRef := rfl
@[simp] theorem ptPut_la (s : State) (p : Index) (e : PtEntry) : (ptPut s p e).la = s.la := rfl
@[simp] theorem ptPut_p (s : State) (p : Index) (e : PtEntry) : (ptPut s p e).p = s.p := rfl
@[simp] theorem ptPut_off (s : State) (p : Index) (e : PtEntry) : (ptPut s p e).off = s.off := rfl
@[simp] theorem ptPut_f (s : State) (p : Index) (e : PtEntry) : (ptPut s p e).f = s.f := rfl
@[simp] theorem ptPut_vict (s : State) (p : Index) (e : PtEntry) : (ptPut s p e).vict = s.vict := rfl
@[simp] theorem ptPut_blk (s : State) (p : Index) (e : PtEntry) : (ptPut s p e).blk = s.blk := rfl
@[simp] theorem ptPut_raw (s : State) (p : Index) (e : PtEntry) : (ptPut s p e).raw = s.raw := rfl
@[simp] theorem ptPut_sb (s : State) (p : Index) (e : PtEntry) : (ptPut s p e).sb = s.sb := rfl
@[simp] theorem ptPut_hit (s : State) (p : Index) (e : PtEntry) : (ptPut s p e).hit = s.hit := rfl
@[simp] theorem ptPut_ent (s : State) (p : Index) (e : PtEntry) : (ptPut s p e).ent = s.ent := rfl
@[simp] theorem ptPut_runState (s : State) (p : Index) (e : PtEntry) : (ptPut s p e).runState = s.runState := rfl
@[simp] theorem ptPut_errCode (s : State) (p : Index) (e : PtEntry) : (ptPut s p e).errCode = s.errCode := rfl
@[simp] theorem ptPut_frame (s : State) (p : Index) (e : PtEntry) : (ptPut s p e).frame = s.frame := rfl
@[simp] theorem ptPut_bus (s : State) (p : Index) (e : PtEntry) : (ptPut s p e).bus = s.bus := rfl
@[simp] theorem ptPut_env (s : State) (p : Index) (e : PtEntry) : (ptPut s p e).env = s.env := rfl
@[simp] theorem ptPut_launched (s : State) (p : Index) (e : PtEntry) : (ptPut s p e).launched = s.launched := rfl
@[simp] theorem ptPut_input (s : State) (p : Index) (e : PtEntry) : (ptPut s p e).input = s.input := rfl
@[simp] theorem ptPut_out (s : State) (p : Index) (e : PtEntry) : (ptPut s p e).out = s.out := rfl
@[simp] theorem ptPut_free (s : State) (p : Index) (e : PtEntry) : (ptPut s p e).free = s.free := rfl
@[simp] theorem ptPut_gen (s : State) (p : Index) (e : PtEntry) : (ptPut s p e).gen = s.gen := rfl

/-! ### fetchReference -/

@[simp] theorem fetchReference_cfgFrames (s : State) : (fetchReference s).cfgFrames = s.cfgFrames := rfl
@[simp] theorem fetchReference_cfgPolicy (s : State) : (fetchReference s).cfgPolicy = s.cfgPolicy := rfl
@[simp] theorem fetchReference_clock (s : State) : (fetchReference s).clock = s.clock := rfl
@[simp] theorem fetchReference_refN (s : State) : (fetchReference s).refN = s.refN := rfl
@[simp] theorem fetchReference_tlb (s : State) : (fetchReference s).tlb = s.tlb := rfl
@[simp] theorem fetchReference_pt (s : State) : (fetchReference s).pt = s.pt := rfl
@[simp] theorem fetchReference_nextFree (s : State) : (fetchReference s).nextFree = s.nextFree := rfl
@[simp] theorem fetchReference_tlbHits (s : State) : (fetchReference s).tlbHits = s.tlbHits := rfl
@[simp] theorem fetchReference_tlbMisses (s : State) : (fetchReference s).tlbMisses = s.tlbMisses := rfl
@[simp] theorem fetchReference_pageFaults (s : State) : (fetchReference s).pageFaults = s.pageFaults := rfl
@[simp] theorem fetchReference_wRef (s : State) : (fetchReference s).wRef = refWord s.env s.clock := rfl
@[simp] theorem fetchReference_la (s : State) : (fetchReference s).la = s.la := rfl
@[simp] theorem fetchReference_p (s : State) : (fetchReference s).p = s.p := rfl
@[simp] theorem fetchReference_off (s : State) : (fetchReference s).off = s.off := rfl
@[simp] theorem fetchReference_f (s : State) : (fetchReference s).f = s.f := rfl
@[simp] theorem fetchReference_vict (s : State) : (fetchReference s).vict = s.vict := rfl
@[simp] theorem fetchReference_blk (s : State) : (fetchReference s).blk = s.blk := rfl
@[simp] theorem fetchReference_raw (s : State) : (fetchReference s).raw = s.raw := rfl
@[simp] theorem fetchReference_sb (s : State) : (fetchReference s).sb = s.sb := rfl
@[simp] theorem fetchReference_hit (s : State) : (fetchReference s).hit = s.hit := rfl
@[simp] theorem fetchReference_ent (s : State) : (fetchReference s).ent = s.ent := rfl
@[simp] theorem fetchReference_runState (s : State) : (fetchReference s).runState = s.runState := rfl
@[simp] theorem fetchReference_errCode (s : State) : (fetchReference s).errCode = s.errCode := rfl
@[simp] theorem fetchReference_frame (s : State) : (fetchReference s).frame = s.frame := rfl
@[simp] theorem fetchReference_bus (s : State) : (fetchReference s).bus = s.bus := rfl
@[simp] theorem fetchReference_env (s : State) : (fetchReference s).env = s.env := rfl
@[simp] theorem fetchReference_launched (s : State) : (fetchReference s).launched = s.launched := rfl
@[simp] theorem fetchReference_input (s : State) : (fetchReference s).input = s.input := rfl
@[simp] theorem fetchReference_out (s : State) : (fetchReference s).out = s.out := rfl
@[simp] theorem fetchReference_free (s : State) : (fetchReference s).free = s.free := rfl
@[simp] theorem fetchReference_gen (s : State) : (fetchReference s).gen = s.gen := rfl
@[simp] theorem fetchReference_ptAt (s : State) (q : Index) : ptAt (fetchReference s) q = ptAt s q := rfl

/-! ### decoded -/

@[simp] theorem decoded_cfgFrames (s : State) : (decoded s).cfgFrames = s.cfgFrames := rfl
@[simp] theorem decoded_cfgPolicy (s : State) : (decoded s).cfgPolicy = s.cfgPolicy := rfl
@[simp] theorem decoded_clock (s : State) : (decoded s).clock = s.clock := rfl
@[simp] theorem decoded_refN (s : State) : (decoded s).refN = s.refN := rfl
@[simp] theorem decoded_tlb (s : State) : (decoded s).tlb = s.tlb := rfl
@[simp] theorem decoded_pt (s : State) : (decoded s).pt = s.pt := rfl
@[simp] theorem decoded_nextFree (s : State) : (decoded s).nextFree = s.nextFree := rfl
@[simp] theorem decoded_tlbHits (s : State) : (decoded s).tlbHits = s.tlbHits := rfl
@[simp] theorem decoded_tlbMisses (s : State) : (decoded s).tlbMisses = s.tlbMisses := rfl
@[simp] theorem decoded_pageFaults (s : State) : (decoded s).pageFaults = s.pageFaults := rfl
@[simp] theorem decoded_wRef (s : State) : (decoded s).wRef = refWord s.env s.clock := rfl
@[simp] theorem decoded_la (s : State) : (decoded s).la = addressOf (refWord s.env s.clock) := rfl
@[simp] theorem decoded_p (s : State) : (decoded s).p = pageOf (addressOf (refWord s.env s.clock)) := rfl
@[simp] theorem decoded_off (s : State) : (decoded s).off = offsetOf (addressOf (refWord s.env s.clock)) := rfl
@[simp] theorem decoded_f (s : State) : (decoded s).f = s.f := rfl
@[simp] theorem decoded_vict (s : State) : (decoded s).vict = s.vict := rfl
@[simp] theorem decoded_blk (s : State) : (decoded s).blk = s.blk := rfl
@[simp] theorem decoded_raw (s : State) : (decoded s).raw = s.raw := rfl
@[simp] theorem decoded_sb (s : State) : (decoded s).sb = s.sb := rfl
@[simp] theorem decoded_hit (s : State) : (decoded s).hit = s.hit := rfl
@[simp] theorem decoded_ent (s : State) : (decoded s).ent = s.ent := rfl
@[simp] theorem decoded_runState (s : State) : (decoded s).runState = s.runState := rfl
@[simp] theorem decoded_errCode (s : State) : (decoded s).errCode = s.errCode := rfl
@[simp] theorem decoded_frame (s : State) : (decoded s).frame = s.frame := rfl
@[simp] theorem decoded_bus (s : State) : (decoded s).bus = s.bus := rfl
@[simp] theorem decoded_env (s : State) : (decoded s).env = s.env := rfl
@[simp] theorem decoded_launched (s : State) : (decoded s).launched = s.launched := rfl
@[simp] theorem decoded_input (s : State) : (decoded s).input = s.input := rfl
@[simp] theorem decoded_out (s : State) : (decoded s).out = s.out := rfl
@[simp] theorem decoded_free (s : State) : (decoded s).free = s.free := rfl
@[simp] theorem decoded_gen (s : State) : (decoded s).gen = s.gen := rfl
@[simp] theorem decoded_ptAt (s : State) (q : Index) : ptAt (decoded s) q = ptAt s q := rfl

/-! ### tlbLookup -/

@[simp] theorem tlbLookup_cfgFrames (s : State) : (tlbLookup s).cfgFrames = s.cfgFrames := rfl
@[simp] theorem tlbLookup_cfgPolicy (s : State) : (tlbLookup s).cfgPolicy = s.cfgPolicy := rfl
@[simp] theorem tlbLookup_clock (s : State) : (tlbLookup s).clock = s.clock := rfl
@[simp] theorem tlbLookup_refN (s : State) : (tlbLookup s).refN = s.refN := rfl
@[simp] theorem tlbLookup_tlb (s : State) : (tlbLookup s).tlb = tlbTouch s.tlb s.p := rfl
@[simp] theorem tlbLookup_pt (s : State) : (tlbLookup s).pt = s.pt := rfl
@[simp] theorem tlbLookup_nextFree (s : State) : (tlbLookup s).nextFree = s.nextFree := rfl
@[simp] theorem tlbLookup_tlbHits (s : State) : (tlbLookup s).tlbHits = s.tlbHits := rfl
@[simp] theorem tlbLookup_tlbMisses (s : State) : (tlbLookup s).tlbMisses = s.tlbMisses := rfl
@[simp] theorem tlbLookup_pageFaults (s : State) : (tlbLookup s).pageFaults = s.pageFaults := rfl
@[simp] theorem tlbLookup_wRef (s : State) : (tlbLookup s).wRef = s.wRef := rfl
@[simp] theorem tlbLookup_la (s : State) : (tlbLookup s).la = s.la := rfl
@[simp] theorem tlbLookup_p (s : State) : (tlbLookup s).p = s.p := rfl
@[simp] theorem tlbLookup_off (s : State) : (tlbLookup s).off = s.off := rfl
@[simp] theorem tlbLookup_f (s : State) : (tlbLookup s).f = lookupFrame s.tlb s.p s.f := rfl
@[simp] theorem tlbLookup_vict (s : State) : (tlbLookup s).vict = s.vict := rfl
@[simp] theorem tlbLookup_blk (s : State) : (tlbLookup s).blk = s.blk := rfl
@[simp] theorem tlbLookup_raw (s : State) : (tlbLookup s).raw = s.raw := rfl
@[simp] theorem tlbLookup_sb (s : State) : (tlbLookup s).sb = s.sb := rfl
@[simp] theorem tlbLookup_hit (s : State) : (tlbLookup s).hit = (tlbFind s.tlb s.p).isSome := rfl
@[simp] theorem tlbLookup_ent (s : State) : (tlbLookup s).ent = s.ent := rfl
@[simp] theorem tlbLookup_runState (s : State) : (tlbLookup s).runState = s.runState := rfl
@[simp] theorem tlbLookup_errCode (s : State) : (tlbLookup s).errCode = s.errCode := rfl
@[simp] theorem tlbLookup_frame (s : State) : (tlbLookup s).frame = s.frame := rfl
@[simp] theorem tlbLookup_bus (s : State) : (tlbLookup s).bus = s.bus := rfl
@[simp] theorem tlbLookup_env (s : State) : (tlbLookup s).env = s.env := rfl
@[simp] theorem tlbLookup_launched (s : State) : (tlbLookup s).launched = s.launched := rfl
@[simp] theorem tlbLookup_input (s : State) : (tlbLookup s).input = s.input := rfl
@[simp] theorem tlbLookup_out (s : State) : (tlbLookup s).out = s.out := rfl
@[simp] theorem tlbLookup_free (s : State) : (tlbLookup s).free = s.free := rfl
@[simp] theorem tlbLookup_gen (s : State) : (tlbLookup s).gen = s.gen := rfl
@[simp] theorem tlbLookup_ptAt (s : State) (q : Index) : ptAt (tlbLookup s) q = ptAt s q := rfl

/-! ### tlbInsert -/

@[simp] theorem tlbInsert_cfgFrames (s : State) : (tlbInsert s).cfgFrames = s.cfgFrames := rfl
@[simp] theorem tlbInsert_cfgPolicy (s : State) : (tlbInsert s).cfgPolicy = s.cfgPolicy := rfl
@[simp] theorem tlbInsert_clock (s : State) : (tlbInsert s).clock = s.clock := rfl
@[simp] theorem tlbInsert_refN (s : State) : (tlbInsert s).refN = s.refN := rfl
@[simp] theorem tlbInsert_tlb (s : State) : (tlbInsert s).tlb = tlbAdd s.tlb { page := s.p, frame := s.f } := rfl
@[simp] theorem tlbInsert_pt (s : State) : (tlbInsert s).pt = s.pt := rfl
@[simp] theorem tlbInsert_nextFree (s : State) : (tlbInsert s).nextFree = s.nextFree := rfl
@[simp] theorem tlbInsert_tlbHits (s : State) : (tlbInsert s).tlbHits = s.tlbHits := rfl
@[simp] theorem tlbInsert_tlbMisses (s : State) : (tlbInsert s).tlbMisses = s.tlbMisses := rfl
@[simp] theorem tlbInsert_pageFaults (s : State) : (tlbInsert s).pageFaults = s.pageFaults := rfl
@[simp] theorem tlbInsert_wRef (s : State) : (tlbInsert s).wRef = s.wRef := rfl
@[simp] theorem tlbInsert_la (s : State) : (tlbInsert s).la = s.la := rfl
@[simp] theorem tlbInsert_p (s : State) : (tlbInsert s).p = s.p := rfl
@[simp] theorem tlbInsert_off (s : State) : (tlbInsert s).off = s.off := rfl
@[simp] theorem tlbInsert_f (s : State) : (tlbInsert s).f = s.f := rfl
@[simp] theorem tlbInsert_vict (s : State) : (tlbInsert s).vict = s.vict := rfl
@[simp] theorem tlbInsert_blk (s : State) : (tlbInsert s).blk = s.blk := rfl
@[simp] theorem tlbInsert_raw (s : State) : (tlbInsert s).raw = s.raw := rfl
@[simp] theorem tlbInsert_sb (s : State) : (tlbInsert s).sb = s.sb := rfl
@[simp] theorem tlbInsert_hit (s : State) : (tlbInsert s).hit = s.hit := rfl
@[simp] theorem tlbInsert_ent (s : State) : (tlbInsert s).ent = s.ent := rfl
@[simp] theorem tlbInsert_runState (s : State) : (tlbInsert s).runState = s.runState := rfl
@[simp] theorem tlbInsert_errCode (s : State) : (tlbInsert s).errCode = s.errCode := rfl
@[simp] theorem tlbInsert_frame (s : State) : (tlbInsert s).frame = s.frame := rfl
@[simp] theorem tlbInsert_bus (s : State) : (tlbInsert s).bus = s.bus := rfl
@[simp] theorem tlbInsert_env (s : State) : (tlbInsert s).env = s.env := rfl
@[simp] theorem tlbInsert_launched (s : State) : (tlbInsert s).launched = s.launched := rfl
@[simp] theorem tlbInsert_input (s : State) : (tlbInsert s).input = s.input := rfl
@[simp] theorem tlbInsert_out (s : State) : (tlbInsert s).out = s.out := rfl
@[simp] theorem tlbInsert_free (s : State) : (tlbInsert s).free = s.free := rfl
@[simp] theorem tlbInsert_gen (s : State) : (tlbInsert s).gen = s.gen := rfl
@[simp] theorem tlbInsert_ptAt (s : State) (q : Index) : ptAt (tlbInsert s) q = ptAt s q := rfl

/-! ### tlbInval -/

@[simp] theorem tlbInval_cfgFrames (s : State) : (tlbInval s).cfgFrames = s.cfgFrames := rfl
@[simp] theorem tlbInval_cfgPolicy (s : State) : (tlbInval s).cfgPolicy = s.cfgPolicy := rfl
@[simp] theorem tlbInval_clock (s : State) : (tlbInval s).clock = s.clock := rfl
@[simp] theorem tlbInval_refN (s : State) : (tlbInval s).refN = s.refN := rfl
@[simp] theorem tlbInval_tlb (s : State) : (tlbInval s).tlb = tlbRemove s.tlb s.vict := rfl
@[simp] theorem tlbInval_pt (s : State) : (tlbInval s).pt = s.pt := rfl
@[simp] theorem tlbInval_nextFree (s : State) : (tlbInval s).nextFree = s.nextFree := rfl
@[simp] theorem tlbInval_tlbHits (s : State) : (tlbInval s).tlbHits = s.tlbHits := rfl
@[simp] theorem tlbInval_tlbMisses (s : State) : (tlbInval s).tlbMisses = s.tlbMisses := rfl
@[simp] theorem tlbInval_pageFaults (s : State) : (tlbInval s).pageFaults = s.pageFaults := rfl
@[simp] theorem tlbInval_wRef (s : State) : (tlbInval s).wRef = s.wRef := rfl
@[simp] theorem tlbInval_la (s : State) : (tlbInval s).la = s.la := rfl
@[simp] theorem tlbInval_p (s : State) : (tlbInval s).p = s.p := rfl
@[simp] theorem tlbInval_off (s : State) : (tlbInval s).off = s.off := rfl
@[simp] theorem tlbInval_f (s : State) : (tlbInval s).f = s.f := rfl
@[simp] theorem tlbInval_vict (s : State) : (tlbInval s).vict = s.vict := rfl
@[simp] theorem tlbInval_blk (s : State) : (tlbInval s).blk = s.blk := rfl
@[simp] theorem tlbInval_raw (s : State) : (tlbInval s).raw = s.raw := rfl
@[simp] theorem tlbInval_sb (s : State) : (tlbInval s).sb = s.sb := rfl
@[simp] theorem tlbInval_hit (s : State) : (tlbInval s).hit = s.hit := rfl
@[simp] theorem tlbInval_ent (s : State) : (tlbInval s).ent = s.ent := rfl
@[simp] theorem tlbInval_runState (s : State) : (tlbInval s).runState = s.runState := rfl
@[simp] theorem tlbInval_errCode (s : State) : (tlbInval s).errCode = s.errCode := rfl
@[simp] theorem tlbInval_frame (s : State) : (tlbInval s).frame = s.frame := rfl
@[simp] theorem tlbInval_bus (s : State) : (tlbInval s).bus = s.bus := rfl
@[simp] theorem tlbInval_env (s : State) : (tlbInval s).env = s.env := rfl
@[simp] theorem tlbInval_launched (s : State) : (tlbInval s).launched = s.launched := rfl
@[simp] theorem tlbInval_input (s : State) : (tlbInval s).input = s.input := rfl
@[simp] theorem tlbInval_out (s : State) : (tlbInval s).out = s.out := rfl
@[simp] theorem tlbInval_free (s : State) : (tlbInval s).free = s.free := rfl
@[simp] theorem tlbInval_gen (s : State) : (tlbInval s).gen = s.gen := rfl
@[simp] theorem tlbInval_ptAt (s : State) (q : Index) : ptAt (tlbInval s) q = ptAt s q := rfl

/-! ### ptLookup -/

@[simp] theorem ptLookup_cfgFrames (s : State) : (ptLookup s).cfgFrames = s.cfgFrames := rfl
@[simp] theorem ptLookup_cfgPolicy (s : State) : (ptLookup s).cfgPolicy = s.cfgPolicy := rfl
@[simp] theorem ptLookup_clock (s : State) : (ptLookup s).clock = s.clock := rfl
@[simp] theorem ptLookup_refN (s : State) : (ptLookup s).refN = s.refN := rfl
@[simp] theorem ptLookup_tlb (s : State) : (ptLookup s).tlb = s.tlb := rfl
@[simp] theorem ptLookup_pt (s : State) : (ptLookup s).pt = s.pt := rfl
@[simp] theorem ptLookup_nextFree (s : State) : (ptLookup s).nextFree = s.nextFree := rfl
@[simp] theorem ptLookup_tlbHits (s : State) : (ptLookup s).tlbHits = s.tlbHits := rfl
@[simp] theorem ptLookup_tlbMisses (s : State) : (ptLookup s).tlbMisses = s.tlbMisses := rfl
@[simp] theorem ptLookup_pageFaults (s : State) : (ptLookup s).pageFaults = s.pageFaults := rfl
@[simp] theorem ptLookup_wRef (s : State) : (ptLookup s).wRef = s.wRef := rfl
@[simp] theorem ptLookup_la (s : State) : (ptLookup s).la = s.la := rfl
@[simp] theorem ptLookup_p (s : State) : (ptLookup s).p = s.p := rfl
@[simp] theorem ptLookup_off (s : State) : (ptLookup s).off = s.off := rfl
@[simp] theorem ptLookup_f (s : State) : (ptLookup s).f = s.f := rfl
@[simp] theorem ptLookup_vict (s : State) : (ptLookup s).vict = s.vict := rfl
@[simp] theorem ptLookup_blk (s : State) : (ptLookup s).blk = s.blk := rfl
@[simp] theorem ptLookup_raw (s : State) : (ptLookup s).raw = s.raw := rfl
@[simp] theorem ptLookup_sb (s : State) : (ptLookup s).sb = s.sb := rfl
@[simp] theorem ptLookup_hit (s : State) : (ptLookup s).hit = s.hit := rfl
@[simp] theorem ptLookup_ent (s : State) : (ptLookup s).ent = (if (ptAt s s.p).present then some (ptAt s s.p) else none) := rfl
@[simp] theorem ptLookup_runState (s : State) : (ptLookup s).runState = s.runState := rfl
@[simp] theorem ptLookup_errCode (s : State) : (ptLookup s).errCode = s.errCode := rfl
@[simp] theorem ptLookup_frame (s : State) : (ptLookup s).frame = s.frame := rfl
@[simp] theorem ptLookup_bus (s : State) : (ptLookup s).bus = s.bus := rfl
@[simp] theorem ptLookup_env (s : State) : (ptLookup s).env = s.env := rfl
@[simp] theorem ptLookup_launched (s : State) : (ptLookup s).launched = s.launched := rfl
@[simp] theorem ptLookup_input (s : State) : (ptLookup s).input = s.input := rfl
@[simp] theorem ptLookup_out (s : State) : (ptLookup s).out = s.out := rfl
@[simp] theorem ptLookup_free (s : State) : (ptLookup s).free = s.free := rfl
@[simp] theorem ptLookup_gen (s : State) : (ptLookup s).gen = s.gen := rfl
@[simp] theorem ptLookup_ptAt (s : State) (q : Index) : ptAt (ptLookup s) q = ptAt s q := rfl

/-! ### ptRecfault -/

@[simp] theorem ptRecfault_cfgFrames (s : State) : (ptRecfault s).cfgFrames = s.cfgFrames := rfl
@[simp] theorem ptRecfault_cfgPolicy (s : State) : (ptRecfault s).cfgPolicy = s.cfgPolicy := rfl
@[simp] theorem ptRecfault_clock (s : State) : (ptRecfault s).clock = s.clock := rfl
@[simp] theorem ptRecfault_refN (s : State) : (ptRecfault s).refN = s.refN := rfl
@[simp] theorem ptRecfault_tlb (s : State) : (ptRecfault s).tlb = s.tlb := rfl
@[simp] theorem ptRecfault_nextFree (s : State) : (ptRecfault s).nextFree = s.nextFree := rfl
@[simp] theorem ptRecfault_tlbHits (s : State) : (ptRecfault s).tlbHits = s.tlbHits := rfl
@[simp] theorem ptRecfault_tlbMisses (s : State) : (ptRecfault s).tlbMisses = s.tlbMisses := rfl
@[simp] theorem ptRecfault_pageFaults (s : State) : (ptRecfault s).pageFaults = s.pageFaults := rfl
@[simp] theorem ptRecfault_wRef (s : State) : (ptRecfault s).wRef = s.wRef := rfl
@[simp] theorem ptRecfault_la (s : State) : (ptRecfault s).la = s.la := rfl
@[simp] theorem ptRecfault_p (s : State) : (ptRecfault s).p = s.p := rfl
@[simp] theorem ptRecfault_off (s : State) : (ptRecfault s).off = s.off := rfl
@[simp] theorem ptRecfault_f (s : State) : (ptRecfault s).f = s.f := rfl
@[simp] theorem ptRecfault_vict (s : State) : (ptRecfault s).vict = s.vict := rfl
@[simp] theorem ptRecfault_blk (s : State) : (ptRecfault s).blk = s.blk := rfl
@[simp] theorem ptRecfault_raw (s : State) : (ptRecfault s).raw = s.raw := rfl
@[simp] theorem ptRecfault_sb (s : State) : (ptRecfault s).sb = s.sb := rfl
@[simp] theorem ptRecfault_hit (s : State) : (ptRecfault s).hit = s.hit := rfl
@[simp] theorem ptRecfault_ent (s : State) : (ptRecfault s).ent = s.ent := rfl
@[simp] theorem ptRecfault_runState (s : State) : (ptRecfault s).runState = s.runState := rfl
@[simp] theorem ptRecfault_errCode (s : State) : (ptRecfault s).errCode = s.errCode := rfl
@[simp] theorem ptRecfault_frame (s : State) : (ptRecfault s).frame = s.frame := rfl
@[simp] theorem ptRecfault_bus (s : State) : (ptRecfault s).bus = s.bus := rfl
@[simp] theorem ptRecfault_env (s : State) : (ptRecfault s).env = s.env := rfl
@[simp] theorem ptRecfault_launched (s : State) : (ptRecfault s).launched = s.launched := rfl
@[simp] theorem ptRecfault_input (s : State) : (ptRecfault s).input = s.input := rfl
@[simp] theorem ptRecfault_out (s : State) : (ptRecfault s).out = s.out := rfl
@[simp] theorem ptRecfault_free (s : State) : (ptRecfault s).free = s.free := rfl
@[simp] theorem ptRecfault_gen (s : State) : (ptRecfault s).gen = s.gen := rfl

/-! ### ptRechit -/

@[simp] theorem ptRechit_cfgFrames (s : State) : (ptRechit s).cfgFrames = s.cfgFrames := rfl
@[simp] theorem ptRechit_cfgPolicy (s : State) : (ptRechit s).cfgPolicy = s.cfgPolicy := rfl
@[simp] theorem ptRechit_clock (s : State) : (ptRechit s).clock = s.clock := rfl
@[simp] theorem ptRechit_refN (s : State) : (ptRechit s).refN = s.refN := rfl
@[simp] theorem ptRechit_tlb (s : State) : (ptRechit s).tlb = s.tlb := rfl
@[simp] theorem ptRechit_nextFree (s : State) : (ptRechit s).nextFree = s.nextFree := rfl
@[simp] theorem ptRechit_tlbHits (s : State) : (ptRechit s).tlbHits = s.tlbHits := rfl
@[simp] theorem ptRechit_tlbMisses (s : State) : (ptRechit s).tlbMisses = s.tlbMisses := rfl
@[simp] theorem ptRechit_pageFaults (s : State) : (ptRechit s).pageFaults = s.pageFaults := rfl
@[simp] theorem ptRechit_wRef (s : State) : (ptRechit s).wRef = s.wRef := rfl
@[simp] theorem ptRechit_la (s : State) : (ptRechit s).la = s.la := rfl
@[simp] theorem ptRechit_p (s : State) : (ptRechit s).p = s.p := rfl
@[simp] theorem ptRechit_off (s : State) : (ptRechit s).off = s.off := rfl
@[simp] theorem ptRechit_f (s : State) : (ptRechit s).f = s.f := rfl
@[simp] theorem ptRechit_vict (s : State) : (ptRechit s).vict = s.vict := rfl
@[simp] theorem ptRechit_blk (s : State) : (ptRechit s).blk = s.blk := rfl
@[simp] theorem ptRechit_raw (s : State) : (ptRechit s).raw = s.raw := rfl
@[simp] theorem ptRechit_sb (s : State) : (ptRechit s).sb = s.sb := rfl
@[simp] theorem ptRechit_hit (s : State) : (ptRechit s).hit = s.hit := rfl
@[simp] theorem ptRechit_ent (s : State) : (ptRechit s).ent = s.ent := rfl
@[simp] theorem ptRechit_runState (s : State) : (ptRechit s).runState = s.runState := rfl
@[simp] theorem ptRechit_errCode (s : State) : (ptRechit s).errCode = s.errCode := rfl
@[simp] theorem ptRechit_frame (s : State) : (ptRechit s).frame = s.frame := rfl
@[simp] theorem ptRechit_bus (s : State) : (ptRechit s).bus = s.bus := rfl
@[simp] theorem ptRechit_env (s : State) : (ptRechit s).env = s.env := rfl
@[simp] theorem ptRechit_launched (s : State) : (ptRechit s).launched = s.launched := rfl
@[simp] theorem ptRechit_input (s : State) : (ptRechit s).input = s.input := rfl
@[simp] theorem ptRechit_out (s : State) : (ptRechit s).out = s.out := rfl
@[simp] theorem ptRechit_free (s : State) : (ptRechit s).free = s.free := rfl
@[simp] theorem ptRechit_gen (s : State) : (ptRechit s).gen = s.gen := rfl

/-! ### ptDeact -/

@[simp] theorem ptDeact_cfgFrames (s : State) : (ptDeact s).cfgFrames = s.cfgFrames := rfl
@[simp] theorem ptDeact_cfgPolicy (s : State) : (ptDeact s).cfgPolicy = s.cfgPolicy := rfl
@[simp] theorem ptDeact_clock (s : State) : (ptDeact s).clock = s.clock := rfl
@[simp] theorem ptDeact_refN (s : State) : (ptDeact s).refN = s.refN := rfl
@[simp] theorem ptDeact_tlb (s : State) : (ptDeact s).tlb = s.tlb := rfl
@[simp] theorem ptDeact_nextFree (s : State) : (ptDeact s).nextFree = s.nextFree := rfl
@[simp] theorem ptDeact_tlbHits (s : State) : (ptDeact s).tlbHits = s.tlbHits := rfl
@[simp] theorem ptDeact_tlbMisses (s : State) : (ptDeact s).tlbMisses = s.tlbMisses := rfl
@[simp] theorem ptDeact_pageFaults (s : State) : (ptDeact s).pageFaults = s.pageFaults := rfl
@[simp] theorem ptDeact_wRef (s : State) : (ptDeact s).wRef = s.wRef := rfl
@[simp] theorem ptDeact_la (s : State) : (ptDeact s).la = s.la := rfl
@[simp] theorem ptDeact_p (s : State) : (ptDeact s).p = s.p := rfl
@[simp] theorem ptDeact_off (s : State) : (ptDeact s).off = s.off := rfl
@[simp] theorem ptDeact_f (s : State) : (ptDeact s).f = s.f := rfl
@[simp] theorem ptDeact_vict (s : State) : (ptDeact s).vict = s.vict := rfl
@[simp] theorem ptDeact_blk (s : State) : (ptDeact s).blk = s.blk := rfl
@[simp] theorem ptDeact_raw (s : State) : (ptDeact s).raw = s.raw := rfl
@[simp] theorem ptDeact_sb (s : State) : (ptDeact s).sb = s.sb := rfl
@[simp] theorem ptDeact_hit (s : State) : (ptDeact s).hit = s.hit := rfl
@[simp] theorem ptDeact_ent (s : State) : (ptDeact s).ent = s.ent := rfl
@[simp] theorem ptDeact_runState (s : State) : (ptDeact s).runState = s.runState := rfl
@[simp] theorem ptDeact_errCode (s : State) : (ptDeact s).errCode = s.errCode := rfl
@[simp] theorem ptDeact_frame (s : State) : (ptDeact s).frame = s.frame := rfl
@[simp] theorem ptDeact_bus (s : State) : (ptDeact s).bus = s.bus := rfl
@[simp] theorem ptDeact_env (s : State) : (ptDeact s).env = s.env := rfl
@[simp] theorem ptDeact_launched (s : State) : (ptDeact s).launched = s.launched := rfl
@[simp] theorem ptDeact_input (s : State) : (ptDeact s).input = s.input := rfl
@[simp] theorem ptDeact_out (s : State) : (ptDeact s).out = s.out := rfl
@[simp] theorem ptDeact_free (s : State) : (ptDeact s).free = s.free := rfl
@[simp] theorem ptDeact_gen (s : State) : (ptDeact s).gen = s.gen := rfl

/-! ### setVictim -/

@[simp] theorem setVictim_cfgFrames (s : State) (c : Option Index) : (setVictim s c).cfgFrames = s.cfgFrames := rfl
@[simp] theorem setVictim_cfgPolicy (s : State) (c : Option Index) : (setVictim s c).cfgPolicy = s.cfgPolicy := rfl
@[simp] theorem setVictim_clock (s : State) (c : Option Index) : (setVictim s c).clock = s.clock := rfl
@[simp] theorem setVictim_refN (s : State) (c : Option Index) : (setVictim s c).refN = s.refN := rfl
@[simp] theorem setVictim_tlb (s : State) (c : Option Index) : (setVictim s c).tlb = s.tlb := rfl
@[simp] theorem setVictim_pt (s : State) (c : Option Index) : (setVictim s c).pt = s.pt := rfl
@[simp] theorem setVictim_nextFree (s : State) (c : Option Index) : (setVictim s c).nextFree = s.nextFree := rfl
@[simp] theorem setVictim_tlbHits (s : State) (c : Option Index) : (setVictim s c).tlbHits = s.tlbHits := rfl
@[simp] theorem setVictim_tlbMisses (s : State) (c : Option Index) : (setVictim s c).tlbMisses = s.tlbMisses := rfl
@[simp] theorem setVictim_pageFaults (s : State) (c : Option Index) : (setVictim s c).pageFaults = s.pageFaults := rfl
@[simp] theorem setVictim_wRef (s : State) (c : Option Index) : (setVictim s c).wRef = s.wRef := rfl
@[simp] theorem setVictim_la (s : State) (c : Option Index) : (setVictim s c).la = s.la := rfl
@[simp] theorem setVictim_p (s : State) (c : Option Index) : (setVictim s c).p = s.p := rfl
@[simp] theorem setVictim_off (s : State) (c : Option Index) : (setVictim s c).off = s.off := rfl
@[simp] theorem setVictim_f (s : State) (c : Option Index) : (setVictim s c).f = s.f := rfl
@[simp] theorem setVictim_vict (s : State) (c : Option Index) : (setVictim s c).vict = chosen s.free c := rfl
@[simp] theorem setVictim_blk (s : State) (c : Option Index) : (setVictim s c).blk = s.blk := rfl
@[simp] theorem setVictim_raw (s : State) (c : Option Index) : (setVictim s c).raw = s.raw := rfl
@[simp] theorem setVictim_sb (s : State) (c : Option Index) : (setVictim s c).sb = s.sb := rfl
@[simp] theorem setVictim_hit (s : State) (c : Option Index) : (setVictim s c).hit = s.hit := rfl
@[simp] theorem setVictim_ent (s : State) (c : Option Index) : (setVictim s c).ent = s.ent := rfl
@[simp] theorem setVictim_runState (s : State) (c : Option Index) : (setVictim s c).runState = s.runState := rfl
@[simp] theorem setVictim_errCode (s : State) (c : Option Index) : (setVictim s c).errCode = s.errCode := rfl
@[simp] theorem setVictim_frame (s : State) (c : Option Index) : (setVictim s c).frame = s.frame := rfl
@[simp] theorem setVictim_bus (s : State) (c : Option Index) : (setVictim s c).bus = s.bus := rfl
@[simp] theorem setVictim_env (s : State) (c : Option Index) : (setVictim s c).env = s.env := rfl
@[simp] theorem setVictim_launched (s : State) (c : Option Index) : (setVictim s c).launched = s.launched := rfl
@[simp] theorem setVictim_input (s : State) (c : Option Index) : (setVictim s c).input = s.input := rfl
@[simp] theorem setVictim_out (s : State) (c : Option Index) : (setVictim s c).out = s.out := rfl
@[simp] theorem setVictim_free (s : State) (c : Option Index) : (setVictim s c).free = drawn s.free c := rfl
@[simp] theorem setVictim_gen (s : State) (c : Option Index) : (setVictim s c).gen = s.gen := rfl
@[simp] theorem setVictim_ptAt (s : State) (c : Option Index) (q : Index) : ptAt (setVictim s c) q = ptAt s q := rfl

/-! ### allocBump -/

@[simp] theorem allocBump_cfgFrames (s : State) : (allocBump s).cfgFrames = s.cfgFrames := rfl
@[simp] theorem allocBump_cfgPolicy (s : State) : (allocBump s).cfgPolicy = s.cfgPolicy := rfl
@[simp] theorem allocBump_clock (s : State) : (allocBump s).clock = s.clock := rfl
@[simp] theorem allocBump_refN (s : State) : (allocBump s).refN = s.refN := rfl
@[simp] theorem allocBump_tlb (s : State) : (allocBump s).tlb = s.tlb := rfl
@[simp] theorem allocBump_pt (s : State) : (allocBump s).pt = s.pt := rfl
@[simp] theorem allocBump_nextFree (s : State) : (allocBump s).nextFree = s.nextFree + 1 := rfl
@[simp] theorem allocBump_tlbHits (s : State) : (allocBump s).tlbHits = s.tlbHits := rfl
@[simp] theorem allocBump_tlbMisses (s : State) : (allocBump s).tlbMisses = s.tlbMisses := rfl
@[simp] theorem allocBump_pageFaults (s : State) : (allocBump s).pageFaults = s.pageFaults := rfl
@[simp] theorem allocBump_wRef (s : State) : (allocBump s).wRef = s.wRef := rfl
@[simp] theorem allocBump_la (s : State) : (allocBump s).la = s.la := rfl
@[simp] theorem allocBump_p (s : State) : (allocBump s).p = s.p := rfl
@[simp] theorem allocBump_off (s : State) : (allocBump s).off = s.off := rfl
@[simp] theorem allocBump_f (s : State) : (allocBump s).f = s.nextFree.setWidth 8 := rfl
@[simp] theorem allocBump_vict (s : State) : (allocBump s).vict = s.vict := rfl
@[simp] theorem allocBump_blk (s : State) : (allocBump s).blk = s.blk := rfl
@[simp] theorem allocBump_raw (s : State) : (allocBump s).raw = s.raw := rfl
@[simp] theorem allocBump_sb (s : State) : (allocBump s).sb = s.sb := rfl
@[simp] theorem allocBump_hit (s : State) : (allocBump s).hit = s.hit := rfl
@[simp] theorem allocBump_ent (s : State) : (allocBump s).ent = s.ent := rfl
@[simp] theorem allocBump_runState (s : State) : (allocBump s).runState = s.runState := rfl
@[simp] theorem allocBump_errCode (s : State) : (allocBump s).errCode = s.errCode := rfl
@[simp] theorem allocBump_frame (s : State) : (allocBump s).frame = s.frame := rfl
@[simp] theorem allocBump_bus (s : State) : (allocBump s).bus = s.bus := rfl
@[simp] theorem allocBump_env (s : State) : (allocBump s).env = s.env := rfl
@[simp] theorem allocBump_launched (s : State) : (allocBump s).launched = s.launched := rfl
@[simp] theorem allocBump_input (s : State) : (allocBump s).input = s.input := rfl
@[simp] theorem allocBump_out (s : State) : (allocBump s).out = s.out := rfl
@[simp] theorem allocBump_free (s : State) : (allocBump s).free = s.free := rfl
@[simp] theorem allocBump_gen (s : State) : (allocBump s).gen = s.gen := rfl
@[simp] theorem allocBump_ptAt (s : State) (q : Index) : ptAt (allocBump s) q = ptAt s q := rfl

/-! ### allocEvict -/

@[simp] theorem allocEvict_cfgFrames (s : State) : (allocEvict s).cfgFrames = s.cfgFrames := rfl
@[simp] theorem allocEvict_cfgPolicy (s : State) : (allocEvict s).cfgPolicy = s.cfgPolicy := rfl
@[simp] theorem allocEvict_clock (s : State) : (allocEvict s).clock = s.clock := rfl
@[simp] theorem allocEvict_refN (s : State) : (allocEvict s).refN = s.refN := rfl
@[simp] theorem allocEvict_tlb (s : State) : (allocEvict s).tlb = tlbRemove s.tlb s.vict := rfl
@[simp] theorem allocEvict_nextFree (s : State) : (allocEvict s).nextFree = s.nextFree := rfl
@[simp] theorem allocEvict_tlbHits (s : State) : (allocEvict s).tlbHits = s.tlbHits := rfl
@[simp] theorem allocEvict_tlbMisses (s : State) : (allocEvict s).tlbMisses = s.tlbMisses := rfl
@[simp] theorem allocEvict_pageFaults (s : State) : (allocEvict s).pageFaults = s.pageFaults := rfl
@[simp] theorem allocEvict_wRef (s : State) : (allocEvict s).wRef = s.wRef := rfl
@[simp] theorem allocEvict_la (s : State) : (allocEvict s).la = s.la := rfl
@[simp] theorem allocEvict_p (s : State) : (allocEvict s).p = s.p := rfl
@[simp] theorem allocEvict_off (s : State) : (allocEvict s).off = s.off := rfl
@[simp] theorem allocEvict_f (s : State) : (allocEvict s).f = (ptAt s s.vict).frame := rfl
@[simp] theorem allocEvict_vict (s : State) : (allocEvict s).vict = s.vict := rfl
@[simp] theorem allocEvict_blk (s : State) : (allocEvict s).blk = s.blk := rfl
@[simp] theorem allocEvict_raw (s : State) : (allocEvict s).raw = s.raw := rfl
@[simp] theorem allocEvict_sb (s : State) : (allocEvict s).sb = s.sb := rfl
@[simp] theorem allocEvict_hit (s : State) : (allocEvict s).hit = s.hit := rfl
@[simp] theorem allocEvict_ent (s : State) : (allocEvict s).ent = s.ent := rfl
@[simp] theorem allocEvict_runState (s : State) : (allocEvict s).runState = s.runState := rfl
@[simp] theorem allocEvict_errCode (s : State) : (allocEvict s).errCode = s.errCode := rfl
@[simp] theorem allocEvict_frame (s : State) : (allocEvict s).frame = s.frame := rfl
@[simp] theorem allocEvict_bus (s : State) : (allocEvict s).bus = s.bus := rfl
@[simp] theorem allocEvict_env (s : State) : (allocEvict s).env = s.env := rfl
@[simp] theorem allocEvict_launched (s : State) : (allocEvict s).launched = s.launched := rfl
@[simp] theorem allocEvict_input (s : State) : (allocEvict s).input = s.input := rfl
@[simp] theorem allocEvict_out (s : State) : (allocEvict s).out = s.out := rfl
@[simp] theorem allocEvict_free (s : State) : (allocEvict s).free = s.free := rfl
@[simp] theorem allocEvict_gen (s : State) : (allocEvict s).gen = s.gen := rfl

/-! ### frFill -/

@[simp] theorem frFill_cfgFrames (s : State) : (frFill s).cfgFrames = s.cfgFrames := rfl
@[simp] theorem frFill_cfgPolicy (s : State) : (frFill s).cfgPolicy = s.cfgPolicy := rfl
@[simp] theorem frFill_clock (s : State) : (frFill s).clock = s.clock := rfl
@[simp] theorem frFill_refN (s : State) : (frFill s).refN = s.refN := rfl
@[simp] theorem frFill_tlb (s : State) : (frFill s).tlb = s.tlb := rfl
@[simp] theorem frFill_pt (s : State) : (frFill s).pt = s.pt := rfl
@[simp] theorem frFill_nextFree (s : State) : (frFill s).nextFree = s.nextFree := rfl
@[simp] theorem frFill_tlbHits (s : State) : (frFill s).tlbHits = s.tlbHits := rfl
@[simp] theorem frFill_tlbMisses (s : State) : (frFill s).tlbMisses = s.tlbMisses := rfl
@[simp] theorem frFill_pageFaults (s : State) : (frFill s).pageFaults = s.pageFaults := rfl
@[simp] theorem frFill_wRef (s : State) : (frFill s).wRef = s.wRef := rfl
@[simp] theorem frFill_la (s : State) : (frFill s).la = s.la := rfl
@[simp] theorem frFill_p (s : State) : (frFill s).p = s.p := rfl
@[simp] theorem frFill_off (s : State) : (frFill s).off = s.off := rfl
@[simp] theorem frFill_f (s : State) : (frFill s).f = s.f := rfl
@[simp] theorem frFill_vict (s : State) : (frFill s).vict = s.vict := rfl
@[simp] theorem frFill_blk (s : State) : (frFill s).blk = s.blk := rfl
@[simp] theorem frFill_raw (s : State) : (frFill s).raw = s.raw := rfl
@[simp] theorem frFill_sb (s : State) : (frFill s).sb = s.sb := rfl
@[simp] theorem frFill_hit (s : State) : (frFill s).hit = s.hit := rfl
@[simp] theorem frFill_ent (s : State) : (frFill s).ent = s.ent := rfl
@[simp] theorem frFill_runState (s : State) : (frFill s).runState = s.runState := rfl
@[simp] theorem frFill_errCode (s : State) : (frFill s).errCode = s.errCode := rfl
@[simp] theorem frFill_frame (s : State) : (frFill s).frame = memWriteRun s.frame (addrOf s.f 0) s.blk.toList := rfl
@[simp] theorem frFill_bus (s : State) : (frFill s).bus = s.bus := rfl
@[simp] theorem frFill_env (s : State) : (frFill s).env = s.env := rfl
@[simp] theorem frFill_launched (s : State) : (frFill s).launched = s.launched := rfl
@[simp] theorem frFill_input (s : State) : (frFill s).input = s.input := rfl
@[simp] theorem frFill_out (s : State) : (frFill s).out = s.out := rfl
@[simp] theorem frFill_free (s : State) : (frFill s).free = s.free := rfl
@[simp] theorem frFill_gen (s : State) : (frFill s).gen = s.gen := rfl
@[simp] theorem frFill_ptAt (s : State) (q : Index) : ptAt (frFill s) q = ptAt s q := rfl

/-! ### frXbyte -/

@[simp] theorem frXbyte_cfgFrames (s : State) : (frXbyte s).cfgFrames = s.cfgFrames := rfl
@[simp] theorem frXbyte_cfgPolicy (s : State) : (frXbyte s).cfgPolicy = s.cfgPolicy := rfl
@[simp] theorem frXbyte_clock (s : State) : (frXbyte s).clock = s.clock := rfl
@[simp] theorem frXbyte_refN (s : State) : (frXbyte s).refN = s.refN := rfl
@[simp] theorem frXbyte_tlb (s : State) : (frXbyte s).tlb = s.tlb := rfl
@[simp] theorem frXbyte_pt (s : State) : (frXbyte s).pt = s.pt := rfl
@[simp] theorem frXbyte_nextFree (s : State) : (frXbyte s).nextFree = s.nextFree := rfl
@[simp] theorem frXbyte_tlbHits (s : State) : (frXbyte s).tlbHits = s.tlbHits := rfl
@[simp] theorem frXbyte_tlbMisses (s : State) : (frXbyte s).tlbMisses = s.tlbMisses := rfl
@[simp] theorem frXbyte_pageFaults (s : State) : (frXbyte s).pageFaults = s.pageFaults := rfl
@[simp] theorem frXbyte_wRef (s : State) : (frXbyte s).wRef = s.wRef := rfl
@[simp] theorem frXbyte_la (s : State) : (frXbyte s).la = s.la := rfl
@[simp] theorem frXbyte_p (s : State) : (frXbyte s).p = s.p := rfl
@[simp] theorem frXbyte_off (s : State) : (frXbyte s).off = s.off := rfl
@[simp] theorem frXbyte_f (s : State) : (frXbyte s).f = s.f := rfl
@[simp] theorem frXbyte_vict (s : State) : (frXbyte s).vict = s.vict := rfl
@[simp] theorem frXbyte_blk (s : State) : (frXbyte s).blk = s.blk := rfl
@[simp] theorem frXbyte_raw (s : State) : (frXbyte s).raw = frameByte s (addrOf s.f s.off.toNat) := rfl
@[simp] theorem frXbyte_sb (s : State) : (frXbyte s).sb = signedByte (frameByte s (addrOf s.f s.off.toNat)) := rfl
@[simp] theorem frXbyte_hit (s : State) : (frXbyte s).hit = s.hit := rfl
@[simp] theorem frXbyte_ent (s : State) : (frXbyte s).ent = s.ent := rfl
@[simp] theorem frXbyte_runState (s : State) : (frXbyte s).runState = s.runState := rfl
@[simp] theorem frXbyte_errCode (s : State) : (frXbyte s).errCode = s.errCode := rfl
@[simp] theorem frXbyte_frame (s : State) : (frXbyte s).frame = s.frame := rfl
@[simp] theorem frXbyte_bus (s : State) : (frXbyte s).bus = s.bus := rfl
@[simp] theorem frXbyte_env (s : State) : (frXbyte s).env = s.env := rfl
@[simp] theorem frXbyte_launched (s : State) : (frXbyte s).launched = s.launched := rfl
@[simp] theorem frXbyte_input (s : State) : (frXbyte s).input = s.input := rfl
@[simp] theorem frXbyte_out (s : State) : (frXbyte s).out = s.out := rfl
@[simp] theorem frXbyte_free (s : State) : (frXbyte s).free = s.free := rfl
@[simp] theorem frXbyte_gen (s : State) : (frXbyte s).gen = s.gen := rfl
@[simp] theorem frXbyte_ptAt (s : State) (q : Index) : ptAt (frXbyte s) q = ptAt s q := rfl

/-! ### clkAdv -/

@[simp] theorem clkAdv_cfgFrames (s : State) : (clkAdv s).cfgFrames = s.cfgFrames := rfl
@[simp] theorem clkAdv_cfgPolicy (s : State) : (clkAdv s).cfgPolicy = s.cfgPolicy := rfl
@[simp] theorem clkAdv_clock (s : State) : (clkAdv s).clock = s.clock + 1 := rfl
@[simp] theorem clkAdv_refN (s : State) : (clkAdv s).refN = s.refN := rfl
@[simp] theorem clkAdv_tlb (s : State) : (clkAdv s).tlb = s.tlb := rfl
@[simp] theorem clkAdv_pt (s : State) : (clkAdv s).pt = s.pt := rfl
@[simp] theorem clkAdv_nextFree (s : State) : (clkAdv s).nextFree = s.nextFree := rfl
@[simp] theorem clkAdv_tlbHits (s : State) : (clkAdv s).tlbHits = s.tlbHits := rfl
@[simp] theorem clkAdv_tlbMisses (s : State) : (clkAdv s).tlbMisses = s.tlbMisses := rfl
@[simp] theorem clkAdv_pageFaults (s : State) : (clkAdv s).pageFaults = s.pageFaults := rfl
@[simp] theorem clkAdv_wRef (s : State) : (clkAdv s).wRef = s.wRef := rfl
@[simp] theorem clkAdv_la (s : State) : (clkAdv s).la = s.la := rfl
@[simp] theorem clkAdv_p (s : State) : (clkAdv s).p = s.p := rfl
@[simp] theorem clkAdv_off (s : State) : (clkAdv s).off = s.off := rfl
@[simp] theorem clkAdv_f (s : State) : (clkAdv s).f = s.f := rfl
@[simp] theorem clkAdv_vict (s : State) : (clkAdv s).vict = s.vict := rfl
@[simp] theorem clkAdv_blk (s : State) : (clkAdv s).blk = s.blk := rfl
@[simp] theorem clkAdv_raw (s : State) : (clkAdv s).raw = s.raw := rfl
@[simp] theorem clkAdv_sb (s : State) : (clkAdv s).sb = s.sb := rfl
@[simp] theorem clkAdv_hit (s : State) : (clkAdv s).hit = s.hit := rfl
@[simp] theorem clkAdv_ent (s : State) : (clkAdv s).ent = s.ent := rfl
@[simp] theorem clkAdv_runState (s : State) : (clkAdv s).runState = s.runState := rfl
@[simp] theorem clkAdv_errCode (s : State) : (clkAdv s).errCode = s.errCode := rfl
@[simp] theorem clkAdv_frame (s : State) : (clkAdv s).frame = s.frame := rfl
@[simp] theorem clkAdv_bus (s : State) : (clkAdv s).bus = s.bus := rfl
@[simp] theorem clkAdv_env (s : State) : (clkAdv s).env = s.env := rfl
@[simp] theorem clkAdv_launched (s : State) : (clkAdv s).launched = s.launched := rfl
@[simp] theorem clkAdv_input (s : State) : (clkAdv s).input = s.input := rfl
@[simp] theorem clkAdv_out (s : State) : (clkAdv s).out = s.out := rfl
@[simp] theorem clkAdv_free (s : State) : (clkAdv s).free = s.free := rfl
@[simp] theorem clkAdv_gen (s : State) : (clkAdv s).gen = s.gen := rfl
@[simp] theorem clkAdv_ptAt (s : State) (q : Index) : ptAt (clkAdv s) q = ptAt s q := rfl

/-! ### onTlbHit -/

@[simp] theorem onTlbHit_cfgFrames (s : State) : (onTlbHit s).cfgFrames = s.cfgFrames := rfl
@[simp] theorem onTlbHit_cfgPolicy (s : State) : (onTlbHit s).cfgPolicy = s.cfgPolicy := rfl
@[simp] theorem onTlbHit_clock (s : State) : (onTlbHit s).clock = s.clock := rfl
@[simp] theorem onTlbHit_refN (s : State) : (onTlbHit s).refN = s.refN := rfl
@[simp] theorem onTlbHit_tlb (s : State) : (onTlbHit s).tlb = s.tlb := rfl
@[simp] theorem onTlbHit_nextFree (s : State) : (onTlbHit s).nextFree = s.nextFree := rfl
@[simp] theorem onTlbHit_tlbHits (s : State) : (onTlbHit s).tlbHits = s.tlbHits + 1 := rfl
@[simp] theorem onTlbHit_tlbMisses (s : State) : (onTlbHit s).tlbMisses = s.tlbMisses := rfl
@[simp] theorem onTlbHit_pageFaults (s : State) : (onTlbHit s).pageFaults = s.pageFaults := rfl
@[simp] theorem onTlbHit_wRef (s : State) : (onTlbHit s).wRef = s.wRef := rfl
@[simp] theorem onTlbHit_la (s : State) : (onTlbHit s).la = s.la := rfl
@[simp] theorem onTlbHit_p (s : State) : (onTlbHit s).p = s.p := rfl
@[simp] theorem onTlbHit_off (s : State) : (onTlbHit s).off = s.off := rfl
@[simp] theorem onTlbHit_f (s : State) : (onTlbHit s).f = s.f := rfl
@[simp] theorem onTlbHit_vict (s : State) : (onTlbHit s).vict = s.vict := rfl
@[simp] theorem onTlbHit_blk (s : State) : (onTlbHit s).blk = s.blk := rfl
@[simp] theorem onTlbHit_raw (s : State) : (onTlbHit s).raw = s.raw := rfl
@[simp] theorem onTlbHit_sb (s : State) : (onTlbHit s).sb = s.sb := rfl
@[simp] theorem onTlbHit_hit (s : State) : (onTlbHit s).hit = s.hit := rfl
@[simp] theorem onTlbHit_ent (s : State) : (onTlbHit s).ent = s.ent := rfl
@[simp] theorem onTlbHit_runState (s : State) : (onTlbHit s).runState = s.runState := rfl
@[simp] theorem onTlbHit_errCode (s : State) : (onTlbHit s).errCode = s.errCode := rfl
@[simp] theorem onTlbHit_frame (s : State) : (onTlbHit s).frame = s.frame := rfl
@[simp] theorem onTlbHit_bus (s : State) : (onTlbHit s).bus = s.bus := rfl
@[simp] theorem onTlbHit_env (s : State) : (onTlbHit s).env = s.env := rfl
@[simp] theorem onTlbHit_launched (s : State) : (onTlbHit s).launched = s.launched := rfl
@[simp] theorem onTlbHit_input (s : State) : (onTlbHit s).input = s.input := rfl
@[simp] theorem onTlbHit_out (s : State) : (onTlbHit s).out = s.out := rfl
@[simp] theorem onTlbHit_free (s : State) : (onTlbHit s).free = s.free := rfl
@[simp] theorem onTlbHit_gen (s : State) : (onTlbHit s).gen = s.gen := rfl

/-! ### onTlbMiss -/

@[simp] theorem onTlbMiss_cfgFrames (s : State) : (onTlbMiss s).cfgFrames = s.cfgFrames := rfl
@[simp] theorem onTlbMiss_cfgPolicy (s : State) : (onTlbMiss s).cfgPolicy = s.cfgPolicy := rfl
@[simp] theorem onTlbMiss_clock (s : State) : (onTlbMiss s).clock = s.clock := rfl
@[simp] theorem onTlbMiss_refN (s : State) : (onTlbMiss s).refN = s.refN := rfl
@[simp] theorem onTlbMiss_tlb (s : State) : (onTlbMiss s).tlb = s.tlb := rfl
@[simp] theorem onTlbMiss_pt (s : State) : (onTlbMiss s).pt = s.pt := rfl
@[simp] theorem onTlbMiss_nextFree (s : State) : (onTlbMiss s).nextFree = s.nextFree := rfl
@[simp] theorem onTlbMiss_tlbHits (s : State) : (onTlbMiss s).tlbHits = s.tlbHits := rfl
@[simp] theorem onTlbMiss_tlbMisses (s : State) : (onTlbMiss s).tlbMisses = s.tlbMisses + 1 := rfl
@[simp] theorem onTlbMiss_pageFaults (s : State) : (onTlbMiss s).pageFaults = s.pageFaults := rfl
@[simp] theorem onTlbMiss_wRef (s : State) : (onTlbMiss s).wRef = s.wRef := rfl
@[simp] theorem onTlbMiss_la (s : State) : (onTlbMiss s).la = s.la := rfl
@[simp] theorem onTlbMiss_p (s : State) : (onTlbMiss s).p = s.p := rfl
@[simp] theorem onTlbMiss_off (s : State) : (onTlbMiss s).off = s.off := rfl
@[simp] theorem onTlbMiss_f (s : State) : (onTlbMiss s).f = s.f := rfl
@[simp] theorem onTlbMiss_vict (s : State) : (onTlbMiss s).vict = s.vict := rfl
@[simp] theorem onTlbMiss_blk (s : State) : (onTlbMiss s).blk = s.blk := rfl
@[simp] theorem onTlbMiss_raw (s : State) : (onTlbMiss s).raw = s.raw := rfl
@[simp] theorem onTlbMiss_sb (s : State) : (onTlbMiss s).sb = s.sb := rfl
@[simp] theorem onTlbMiss_hit (s : State) : (onTlbMiss s).hit = s.hit := rfl
@[simp] theorem onTlbMiss_ent (s : State) : (onTlbMiss s).ent = s.ent := rfl
@[simp] theorem onTlbMiss_runState (s : State) : (onTlbMiss s).runState = s.runState := rfl
@[simp] theorem onTlbMiss_errCode (s : State) : (onTlbMiss s).errCode = s.errCode := rfl
@[simp] theorem onTlbMiss_frame (s : State) : (onTlbMiss s).frame = s.frame := rfl
@[simp] theorem onTlbMiss_bus (s : State) : (onTlbMiss s).bus = s.bus := rfl
@[simp] theorem onTlbMiss_env (s : State) : (onTlbMiss s).env = s.env := rfl
@[simp] theorem onTlbMiss_launched (s : State) : (onTlbMiss s).launched = s.launched := rfl
@[simp] theorem onTlbMiss_input (s : State) : (onTlbMiss s).input = s.input := rfl
@[simp] theorem onTlbMiss_out (s : State) : (onTlbMiss s).out = s.out := rfl
@[simp] theorem onTlbMiss_free (s : State) : (onTlbMiss s).free = s.free := rfl
@[simp] theorem onTlbMiss_gen (s : State) : (onTlbMiss s).gen = s.gen := rfl
@[simp] theorem onTlbMiss_ptAt (s : State) (q : Index) : ptAt (onTlbMiss s) q = ptAt s q := rfl

/-! ### onPageFault -/

@[simp] theorem onPageFault_cfgFrames (s : State) : (onPageFault s).cfgFrames = s.cfgFrames := rfl
@[simp] theorem onPageFault_cfgPolicy (s : State) : (onPageFault s).cfgPolicy = s.cfgPolicy := rfl
@[simp] theorem onPageFault_clock (s : State) : (onPageFault s).clock = s.clock := rfl
@[simp] theorem onPageFault_refN (s : State) : (onPageFault s).refN = s.refN := rfl
@[simp] theorem onPageFault_tlb (s : State) : (onPageFault s).tlb = s.tlb := rfl
@[simp] theorem onPageFault_pt (s : State) : (onPageFault s).pt = s.pt := rfl
@[simp] theorem onPageFault_nextFree (s : State) : (onPageFault s).nextFree = s.nextFree := rfl
@[simp] theorem onPageFault_tlbHits (s : State) : (onPageFault s).tlbHits = s.tlbHits := rfl
@[simp] theorem onPageFault_tlbMisses (s : State) : (onPageFault s).tlbMisses = s.tlbMisses := rfl
@[simp] theorem onPageFault_pageFaults (s : State) : (onPageFault s).pageFaults = s.pageFaults + 1 := rfl
@[simp] theorem onPageFault_wRef (s : State) : (onPageFault s).wRef = s.wRef := rfl
@[simp] theorem onPageFault_la (s : State) : (onPageFault s).la = s.la := rfl
@[simp] theorem onPageFault_p (s : State) : (onPageFault s).p = s.p := rfl
@[simp] theorem onPageFault_off (s : State) : (onPageFault s).off = s.off := rfl
@[simp] theorem onPageFault_f (s : State) : (onPageFault s).f = s.f := rfl
@[simp] theorem onPageFault_vict (s : State) : (onPageFault s).vict = s.vict := rfl
@[simp] theorem onPageFault_blk (s : State) : (onPageFault s).blk = s.blk := rfl
@[simp] theorem onPageFault_raw (s : State) : (onPageFault s).raw = s.raw := rfl
@[simp] theorem onPageFault_sb (s : State) : (onPageFault s).sb = s.sb := rfl
@[simp] theorem onPageFault_hit (s : State) : (onPageFault s).hit = s.hit := rfl
@[simp] theorem onPageFault_ent (s : State) : (onPageFault s).ent = s.ent := rfl
@[simp] theorem onPageFault_runState (s : State) : (onPageFault s).runState = s.runState := rfl
@[simp] theorem onPageFault_errCode (s : State) : (onPageFault s).errCode = s.errCode := rfl
@[simp] theorem onPageFault_frame (s : State) : (onPageFault s).frame = s.frame := rfl
@[simp] theorem onPageFault_bus (s : State) : (onPageFault s).bus = s.bus := rfl
@[simp] theorem onPageFault_env (s : State) : (onPageFault s).env = s.env := rfl
@[simp] theorem onPageFault_launched (s : State) : (onPageFault s).launched = s.launched := rfl
@[simp] theorem onPageFault_input (s : State) : (onPageFault s).input = s.input := rfl
@[simp] theorem onPageFault_out (s : State) : (onPageFault s).out = s.out := rfl
@[simp] theorem onPageFault_free (s : State) : (onPageFault s).free = s.free := rfl
@[simp] theorem onPageFault_gen (s : State) : (onPageFault s).gen = s.gen := rfl
@[simp] theorem onPageFault_ptAt (s : State) (q : Index) : ptAt (onPageFault s) q = ptAt s q := rfl

end Sys2Proof.Laws
end

