-- ==== Sys2Proof/Laws/Memory.lean ====
section
/-! SUPPORT. The frame memory: a read after a write, and every write keeps the canonical form. -/

namespace Sys2Proof.Laws

open Sys2Proof.Machine

theorem memRising_tail {c : Host.Cell} {m : List Host.Cell} (h : memRising (c :: m) = true) :
    memRising m = true := by
  cases m with
  | nil => rfl
  | cons d m => simp [memRising] at h; exact h.2

/-- Every address after the head of a rising list is above the head. -/
theorem memRising_above {c : Host.Cell} {m : List Host.Cell} (h : memRising (c :: m) = true) :
    ∀ d ∈ m, c.1 < d.1 := by
  induction m generalizing c with
  | nil => simp
  | cons e m ih =>
    simp [memRising] at h
    intro d hd
    rcases List.mem_cons.1 hd with rfl | hd
    · exact h.1
    · exact Nat.lt_trans h.1 (ih h.2 d hd)

theorem memRead_memWrite (m : List Host.Cell) (a b : Nat) (v : Byte) :
    memRead (memWrite m a v) b = if b = a then some v else memRead m b := by
  induction m with
  | nil =>
    by_cases hb : b = a
    · simp [memWrite, memRead, hb]
    · have hb' : a ≠ b := fun h => hb h.symm
      simp [memWrite, memRead, hb, hb']
  | cons c m ih =>
    simp only [memWrite]
    by_cases hb : b = a
    · subst hb
      simp only [if_true] at ih ⊢
      split
      · simp [memRead]
      · split
        · simp [memRead]
        · rename_i h1 h2
          have : c.1 ≠ b := fun h => h2 h.symm
          simp [memRead, this, ih]
    · simp only [hb, if_false] at ih ⊢
      have hb' : a ≠ b := fun h => hb h.symm
      split
      · simp [memRead, hb']
      · split
        · rename_i h1 h2; subst h2; simp [memRead, hb']
        · simp [memRead, ih]

theorem memWrite_addr {m : List Host.Cell} {a : Nat} {v : Byte} {d : Host.Cell} (h : d ∈ memWrite m a v) :
    d.1 = a ∨ d ∈ m := by
  induction m with
  | nil => simp [memWrite] at h; simp [h]
  | cons c m ih =>
    simp only [memWrite] at h
    split at h
    · simp at h; rcases h with rfl | h <;> simp_all
    · split at h
      · simp at h; rcases h with rfl | h <;> simp_all
      · simp at h; rcases h with rfl | h
        · simp
        · rcases ih h with h | h <;> simp [h]

theorem memRising_cons {c : Host.Cell} {m : List Host.Cell} (h : memRising m = true) (ha : ∀ d ∈ m, c.1 < d.1) :
    memRising (c :: m) = true := by
  cases m with
  | nil => rfl
  | cons d m => simp [memRising]; exact ⟨ha d (by simp), h⟩

theorem memRising_memWrite {m : List Host.Cell} (a : Nat) (v : Byte) (h : memRising m = true) :
    memRising (memWrite m a v) = true := by
  induction m with
  | nil => rfl
  | cons c m ih =>
    simp only [memWrite]
    split
    · rename_i h1
      refine memRising_cons h fun d hd => ?_
      rcases List.mem_cons.1 hd with rfl | hd
      · exact h1
      · exact Nat.lt_trans h1 (memRising_above h d hd)
    · split
      · rename_i h1 h2
        subst h2
        exact memRising_cons (memRising_tail h) fun d hd => memRising_above h d hd
      · rename_i h1 h2
        refine memRising_cons (ih (memRising_tail h)) fun d hd => ?_
        rcases memWrite_addr hd with h3 | h3
        · omega
        · exact memRising_above h d h3

theorem wf_memWrite {m : List Host.Cell} {a : Nat} (v : Byte) (h : Memory.wf m = true) (ha : a < 65536) :
    Memory.wf (memWrite m a v) = true := by
  simp only [Memory.wf, Bool.and_eq_true, List.all_eq_true, decide_eq_true_eq] at h ⊢
  refine ⟨memRising_memWrite a v h.1, fun d hd => ?_⟩
  rcases memWrite_addr hd with h3 | h3
  · omega
  · exact h.2 d h3

theorem wf_memWriteRun {bs : List Byte} : ∀ {m : List Host.Cell} {a : Nat}, Memory.wf m = true →
    a + bs.length ≤ 65536 → Memory.wf (memWriteRun m a bs) = true := by
  induction bs with
  | nil => intro m a h _; exact h
  | cons b bs ih =>
    intro m a h ha
    simp at ha
    exact ih (wf_memWrite b h (by omega)) (by omega)

theorem memRead_memWriteRun {bs : List Byte} : ∀ (m : List Host.Cell) (a x : Nat),
    memRead (memWriteRun m a bs) x =
      if a ≤ x ∧ x < a + bs.length then bs[x - a]? else memRead m x := by
  induction bs with
  | nil => intro m a x; simp [memWriteRun]
  | cons b bs ih =>
    intro m a x
    simp only [memWriteRun, ih, memRead_memWrite]
    by_cases h1 : x = a
    · subst h1; simp
    · by_cases h2 : a + 1 ≤ x ∧ x < a + 1 + bs.length
      · have h3 : a ≤ x ∧ x < a + (b :: bs).length := by simp; omega
        rw [if_pos h2, if_pos h3]
        have : x - a = (x - (a+1)) + 1 := by omega
        rw [this]; simp
      · have h3 : ¬ (a ≤ x ∧ x < a + (b :: bs).length) := by simp; omega
        rw [if_neg h2, if_neg h3, if_neg h1]

theorem blockOf_get (g : Nat → Byte) (k : Nat) (h : k < 256) : (blockOf g)[k] = g k := by
  simp [blockOf]

theorem memRead_writeFrame (s : State) (f : Index) (blk : Block) (x : Nat) :
    memRead (writeFrame s f blk).frame x =
      if h : addrOf f 0 ≤ x ∧ x < addrOf f 256 then some (blk[x - addrOf f 0]'(by simp [addrOf] at h ⊢; omega))
      else memRead s.frame x := by
  simp only [writeFrame, memRead_memWriteRun, Vector.length_toList]
  by_cases h : addrOf f 0 ≤ x ∧ x < addrOf f 256
  · have h' : addrOf f 0 ≤ x ∧ x < addrOf f 0 + 256 := by simpa [addrOf] using h
    rw [if_pos h', dif_pos h]
    have : x - addrOf f 0 < 256 := by omega
    simp [this]
  · have h' : ¬ (addrOf f 0 ≤ x ∧ x < addrOf f 0 + 256) := by simpa [addrOf] using h
    rw [if_neg h', dif_neg h]

theorem wf_writeFrame {s : State} (f : Index) (blk : Block) (h : Memory.wf s.frame = true) :
    Memory.wf (writeFrame s f blk).frame = true := by
  refine wf_memWriteRun h ?_
  have := f.isLt
  simp [addrOf]; omega

/-- The frame memory right after reset is in canonical form. -/
theorem wf_reset : Memory.wf State.reset.frame = true := rfl

end Sys2Proof.Laws
end

