-- ==== Sys2Proof/Laws/PageTable.lean ====
section
/-! SUPPORT. The page table and the scan of the active pages: what each writer of PT leaves in every entry (R100 to R105). -/

namespace Sys2Proof.Laws

open Sys2Proof.Machine

theorem ptAt_ptPut (s : State) (p q : Index) (e : PtEntry) :
    ptAt (ptPut s p e) q = if q = p then e else ptAt s q := by
  unfold ptAt ptPut
  simp only [Vector.getElem_set]
  by_cases h : q = p
  · subst h; simp
  · have : p.toNat ≠ q.toNat := fun hh => h (BitVec.eq_of_toNat_eq hh.symm)
    simp [h, this]

@[simp] theorem ptRecfault_ptAt (s : State) (q : Index) : ptAt (ptRecfault s) q =
    if q = s.p then { present := true, active := true, frame := s.f, loadTime := s.clock, lastRef := s.clock }
    else ptAt s q := ptAt_ptPut _ _ _ _

@[simp] theorem ptRechit_ptAt (s : State) (q : Index) : ptAt (ptRechit s) q =
    if q = s.p then { ptAt s s.p with lastRef := s.clock } else ptAt s q := ptAt_ptPut _ _ _ _

@[simp] theorem ptDeact_ptAt (s : State) (q : Index) : ptAt (ptDeact s) q =
    if q = s.vict then { ptAt s s.vict with active := false } else ptAt s q := ptAt_ptPut _ _ _ _

@[simp] theorem onTlbHit_ptAt (s : State) (q : Index) : ptAt (onTlbHit s) q =
    if q = s.p then { ptAt s s.p with lastRef := s.clock } else ptAt s q := ptRechit_ptAt _ _

@[simp] theorem allocEvict_ptAt (s : State) (q : Index) : ptAt (allocEvict s) q =
    if q = s.vict then { ptAt s s.vict with active := false } else ptAt s q := ptDeact_ptAt _ _

theorem isActive_iff {s : State} {q : Index} :
    isActive s q = true ↔ (ptAt s q).present = true ∧ (ptAt s q).active = true := by
  simp [isActive]

theorem mem_allPages (p : Index) : p ∈ allPages := by
  unfold allPages
  rw [List.mem_map]
  exact ⟨p.toNat, by simp [List.mem_range]; exact p.isLt, by simp⟩

theorem mem_activePages {s : State} {p : Index} : p ∈ activePages s ↔ isActive s p = true := by
  simp [activePages, mem_allPages]

end Sys2Proof.Laws
end

