-- ==== Sys2Proof/Laws/Replacement.lean ====
section
/-! SUPPORT. The victim choices and the frame allocator: what RP.SELECT and FA.ALLOC do when they do not raise (R120 to R134). -/

namespace Sys2Proof.Laws

open Sys2Proof.Machine

theorem firstLeast_mem {key : Index → Nat} {l : List Index} {v : Index} (h : firstLeast key l = some v) : v ∈ l := by
  induction l generalizing v with
  | nil => simp [firstLeast] at h
  | cons q qs ih =>
    simp only [firstLeast] at h
    split at h
    · simp at h; simp [h]
    · rename_i r hr
      split at h <;> simp at h <;> subst h
      · simp [ih hr]
      · simp

theorem firstLeast_isSome {key : Index → Nat} {l : List Index} (h : l ≠ []) : ∃ v, firstLeast key l = some v := by
  cases l with
  | nil => exact absurd rfl h
  | cons q qs =>
    simp only [firstLeast]
    split
    · exact ⟨_, rfl⟩
    · split <;> exact ⟨_, rfl⟩

theorem firstLeast_least {key : Index → Nat} {l : List Index} {v : Index} (hs : l.Pairwise (·.toNat < ·.toNat))
    (h : firstLeast key l = some v) :
    ∀ q ∈ l, key v < key q ∨ (key v = key q ∧ v.toNat ≤ q.toNat) := by
  induction l generalizing v with
  | nil => simp
  | cons c qs ih =>
    simp at hs
    simp only [firstLeast] at h
    intro q hq
    split at h
    · rename_i hn
      cases qs with
      | nil => simp at h hq; subst h hq; right; simp
      | cons a as => obtain ⟨w, hw⟩ := firstLeast_isSome (key := key) (l := a :: as) (by simp); rw [hw] at hn; simp at hn
    · rename_i r hr
      have h1 := ih hs.2 hr
      split at h <;> rename_i hlt <;> simp at h <;> subst h
      · rcases List.mem_cons.1 hq with rfl | hq
        · left; exact hlt
        · exact h1 q hq
      · rcases List.mem_cons.1 hq with rfl | hq
        · right; simp
        · have h2 := h1 q hq
          have h3 := hs.1 q hq
          omega

theorem firstGreatest_mem {key : Index → Nat} {l : List Index} {v : Index} (h : firstGreatest key l = some v) :
    v ∈ l := by
  induction l generalizing v with
  | nil => simp [firstGreatest] at h
  | cons q qs ih =>
    simp only [firstGreatest] at h
    split at h
    · simp at h; simp [h]
    · rename_i r hr
      split at h <;> simp at h <;> subst h
      · simp [ih hr]
      · simp

theorem firstGreatest_isSome {key : Index → Nat} {l : List Index} (h : l ≠ []) :
    ∃ v, firstGreatest key l = some v := by
  cases l with
  | nil => exact absurd rfl h
  | cons q qs =>
    simp only [firstGreatest]
    split
    · exact ⟨_, rfl⟩
    · split <;> exact ⟨_, rfl⟩

theorem firstGreatest_greatest {key : Index → Nat} {l : List Index} {v : Index}
    (h : firstGreatest key l = some v) : ∀ q ∈ l, key q ≤ key v := by
  induction l generalizing v with
  | nil => simp
  | cons c qs ih =>
    simp only [firstGreatest] at h
    intro q hq
    split at h
    · rename_i hn
      cases qs with
      | nil => simp at h hq; subst h hq; simp
      | cons a as => obtain ⟨w, hw⟩ := firstGreatest_isSome (key := key) (l := a :: as) (by simp); rw [hw] at hn; simp at hn
    · rename_i r hr
      have h1 := ih hr
      split at h <;> rename_i hlt <;> simp at h <;> subst h
      · rcases List.mem_cons.1 hq with rfl | hq
        · omega
        · exact h1 q hq
      · rcases List.mem_cons.1 hq with rfl | hq
        · omega
        · have h2 := h1 q hq
          omega

theorem allPages_sorted : allPages.Pairwise (·.toNat < ·.toNat) := by
  unfold allPages
  rw [List.pairwise_map]
  have := List.pairwise_lt_range (n := 256)
  refine this.imp_of_mem ?_
  intro a b ha hb hab
  simp at ha hb
  simp [Nat.mod_eq_of_lt ha, Nat.mod_eq_of_lt hb, hab]

theorem activePages_sorted (s : State) : (activePages s).Pairwise (·.toNat < ·.toNat) :=
  allPages_sorted.filter _

theorem optChoice_mem {fut : List Index} {l : List Index} {v : Index} (h : optChoice fut l = some v) : v ∈ l := by
  unfold optChoice at h
  split at h
  · rename_i q hq
    simp at h; subst h
    exact List.mem_of_find?_eq_some hq
  · exact firstGreatest_mem h

theorem optChoice_isSome {fut : List Index} {l : List Index} (h : l ≠ []) : ∃ v, optChoice fut l = some v := by
  unfold optChoice
  split
  · exact ⟨_, rfl⟩
  · exact firstGreatest_isSome h

theorem rpSelect_ok {s t : State} (h : rpSelect s = .ok t) :
    ∃ v, isActive s v = true ∧ t = { s with vict := v } := by
  unfold rpSelect at h
  split at h
  · cases h
  · rename_i hne
    have hne' : activePages s ≠ [] := by simpa using hne
    split at h
    · cases h
      obtain ⟨v, hv⟩ := firstLeast_isSome (key := fun q => (ptAt s q).loadTime) hne'
      exact ⟨v, mem_activePages.1 (firstLeast_mem hv), by simp [rpFifo, setVictim, fifoChoice, hv, chosen, drawn]⟩
    · split at h
      · cases h
        obtain ⟨v, hv⟩ := firstLeast_isSome (key := fun q => (ptAt s q).lastRef) hne'
        exact ⟨v, mem_activePages.1 (firstLeast_mem hv), by simp [rpLru, setVictim, lruChoice, hv, chosen, drawn]⟩
      · split at h
        · unfold rpOpt at h
          split at h
          · rename_i fut _
            cases h
            obtain ⟨v, hv⟩ := optChoice_isSome (fut := fut) hne'
            exact ⟨v, mem_activePages.1 (optChoice_mem hv), by simp [setVictim, hv, chosen, drawn]⟩
          · cases h
        · cases h

/-- Everything FA.ALLOC can do when it does not raise. -/
theorem faAlloc_cases {s t : State} (h : faAlloc s = .ok t) :
    (s.nextFree.toNat < s.cfgFrames.toNat ∧ t = allocBump s) ∨
    (s.nextFree.toNat = s.cfgFrames.toNat ∧ ∃ v, isActive s v = true ∧
      t = allocEvict { s with vict := v }) := by
  unfold faAlloc at h
  split at h
  · cases h
  · split at h
    · cases h; left; exact ⟨by assumption, rfl⟩
    · right
      split at h
      · rename_i u hu
        cases h
        obtain ⟨v, hv, rfl⟩ := rpSelect_ok hu
        exact ⟨by omega, v, hv, rfl⟩
      · cases h

theorem decodeReference_ok {s t : State} (h : decodeReference s = .ok t) :
    malformed s.wRef = false ∧
    t = { s with la := addressOf s.wRef, p := pageOf (addressOf s.wRef), off := offsetOf (addressOf s.wRef) } := by
  unfold decodeReference at h
  split at h
  · cases h
  · rename_i hm; cases h; exact ⟨by simpa using hm, rfl⟩

theorem storeBlock_ok {env : Env} {p : Index} {blk : Block} (h : storeBlock env p = .ok blk) :
    storeShort env = false ∧ blockBad env p = false ∧ blk = blockOf fun k => storeByte env (addrOf p k) := by
  unfold storeBlock at h
  split at h
  · cases h
  · split at h
    · cases h
    · cases h; simp_all

theorem bsRead_ok {s t : State} (h : bsRead s = .ok t) :
    storeShort s.env = false ∧ blockBad s.env s.p = false ∧
    t = { s with blk := blockOf fun k => storeByte s.env (addrOf s.p k) } := by
  unfold bsRead at h
  split at h
  · rename_i blk hb
    obtain ⟨b1, b2, rfl⟩ := storeBlock_ok hb
    exact ⟨b1, b2, (Except.ok.inj h).symm⟩
  · cases h

end Sys2Proof.Laws
end

