-- ==== Sys2Proof/Laws/Sequencer.lean ====
section
/-! SUPPORT. XLATE: the chain of sequencer states, its outcomes, and what each of its calls can do (R145 to R159). -/

namespace Sys2Proof.Laws

open Sys2Proof.Machine

theorem resident_ptLookup (s : State) :
    residentResult (ptLookup s).ent = isActive (ptLookup s) (ptLookup s).p := by
  simp only [ptLookup, isActive, residentResult, ptAt]
  by_cases h : (s.pt[s.p.toNat]'s.p.isLt).present = true <;> simp [h]

theorem entryFrame_ptLookup {s : State} (h : isActive (ptLookup s) (ptLookup s).p = true) :
    entryFrame (ptLookup s) = (ptAt (ptLookup s) (ptLookup s).p).frame := by
  have h' : (ptAt s s.p).present = true ∧ (ptAt s s.p).active = true := by
    simpa [isActive, ptLookup, ptAt] using h
  simp [entryFrame, ptLookup, h'.1]
  rfl

theorem runSequencer_ok {n : Nat} {q q' : SeqState} {s t : State} (hq : q ≠ .idle)
    (h : seqAct q s = .ok (q', t)) : runSequencer (n + 1) q s = runSequencer n q' t := by
  simp [runSequencer, hq, h]

theorem runSequencer_error {n : Nat} {q : SeqState} {s : State} {e : ErrKind} (hq : q ≠ .idle)
    (h : seqAct q s = .error e) : runSequencer (n + 1) q s = .error e := by
  simp [runSequencer, hq, h]

theorem runSequencer_idle (n : Nat) (s : State) : runSequencer n .idle s = .ok s := by
  cases n <;> rfl

theorem run_updateTlb (n : Nat) (s : State) :
    runSequencer (n + 3) .updateTlb s = .ok (clkAdv (frXbyte (tlbInsert s))) :=
  (runSequencer_ok (by simp) rfl).trans ((runSequencer_ok (by simp) rfl).trans
    ((runSequencer_ok (by simp) rfl).trans (runSequencer_idle _ _)))

theorem run_fetch (n : Nat) (s : State) :
    runSequencer (n + 6) .fetch s =
      (match bsRead s with
      | .error e => .error e
      | .ok s4 =>
        match faAlloc s4 with
        | .error e => .error e
        | .ok s5 => .ok (clkAdv (frXbyte (tlbInsert (ptRecfault (frFill s5)))))) := by
  cases h : bsRead s with
  | error e => exact runSequencer_error (by simp) (by simp [seqAct, h, Except.map])
  | ok s4 =>
    have e1 : seqAct .fetch s = .ok (.allocateOrEvict, s4) := by simp [seqAct, h, Except.map]
    rw [runSequencer_ok (n := n + 5) (by simp) e1]
    dsimp only
    cases h' : faAlloc s4 with
    | error e =>
      exact runSequencer_error (q := .allocateOrEvict) (by simp) (by simp [seqAct, h', Except.map])
    | ok s5 =>
      have e2 : seqAct .allocateOrEvict s4 = .ok (.updatePageTable, s5) := by simp [seqAct, h', Except.map]
      rw [runSequencer_ok (n := n + 4) (by simp) e2]
      exact (runSequencer_ok (n := n + 3) (by simp) rfl).trans (run_updateTlb n _)

theorem run_pageLookup (n : Nat) (s : State) :
    runSequencer (n + 8) .pageLookup s =
      (if isActive (ptLookup s) (ptLookup s).p then
        .ok (clkAdv (frXbyte (tlbInsert
          (ptRechit { ptLookup s with f := (ptAt (ptLookup s) (ptLookup s).p).frame }))))
      else
        match bsRead { ptLookup s with pageFaults := (ptLookup s).pageFaults + 1 } with
        | .error e => .error e
        | .ok s4 =>
          match faAlloc s4 with
          | .error e => .error e
          | .ok s5 => .ok (clkAdv (frXbyte (tlbInsert (ptRecfault (frFill s5)))))) := by
  refine (runSequencer_ok (n := n + 7) (by simp) rfl).trans ?_
  rw [resident_ptLookup]
  by_cases hr : isActive (ptLookup s) (ptLookup s).p = true
  · rw [if_pos hr, if_pos hr, ← entryFrame_ptLookup hr]
    exact (runSequencer_ok (n := n + 6) (by simp) rfl).trans (run_updateTlb (n + 3) _)
  · rw [if_neg hr, if_neg hr]
    exact (runSequencer_ok (n := n + 6) (by simp) rfl).trans (run_fetch n _)

/-- The state XLATE reaches before BS.READ when it must load a page. -/
def faulted (s : State) : State :=
  onPageFault (ptLookup (onTlbMiss (tlbLookup (decoded s))))

/-- Everything XLATE can do: a malformed word, a TLB hit, a soft miss, or a page fault with its two calls that may
raise (R145 to R159). -/
theorem xlate_outcomes (s : State) :
    xlate s =
      if malformed (refWord s.env s.clock) then .error .inputMalformed
      else if (tlbFind s.tlb (decoded s).p).isSome then
        .ok (clkAdv (frXbyte (tlbInsert (onTlbHit (tlbLookup (decoded s))))))
      else if isActive s (decoded s).p then
        .ok (clkAdv (frXbyte (tlbInsert (ptRechit
          { ptLookup (onTlbMiss (tlbLookup (decoded s))) with f := (ptAt s (decoded s).p).frame }))))
      else
        match storeBlock s.env (decoded s).p with
        | .error e => .error e
        | .ok blk =>
          match faAlloc { faulted s with blk := blk } with
          | .error e => .error e
          | .ok u => .ok (clkAdv (frXbyte (tlbInsert (ptRecfault (frFill u))))) := by
  unfold xlate longestChain
  by_cases hm : malformed (refWord s.env s.clock) = true
  · rw [if_pos hm]
    exact runSequencer_error (n := 10) (by simp) (by simp [seqAct, decodeReference, hm, Except.map])
  · rw [if_neg hm]
    have e1 : seqAct .decode s = .ok (.tlbLookup, decoded s) := by
      simp [seqAct, decodeReference, hm, Except.map]
      rfl
    rw [runSequencer_ok (n := 10) (by simp) e1]
    refine (runSequencer_ok (n := 9) (by simp) rfl).trans ?_
    dsimp only
    have hh : (tlbLookup (decoded s)).hit = (tlbFind s.tlb (decoded s).p).isSome := rfl
    rw [hh]
    by_cases hf : (tlbFind s.tlb (decoded s).p).isSome = true
    · rw [if_pos hf, if_pos hf]
      exact (runSequencer_ok (n := 8) (by simp) rfl).trans (run_updateTlb 5 _)
    · rw [if_neg hf, if_neg hf]
      refine (runSequencer_ok (n := 8) (by simp) rfl).trans ?_
      refine (run_pageLookup 0 _).trans ?_
      change (if isActive s (decoded s).p = true then _ else _) = _
      by_cases hr : isActive s (decoded s).p = true
      · rw [if_pos hr, if_pos hr]
        rfl
      · rw [if_neg hr, if_neg hr]
        change (match bsRead (faulted s) with | .error e => _ | .ok s4 => _) = _
        unfold bsRead
        change (match (match storeBlock s.env (decoded s).p with
          | .ok blk => Except.ok { faulted s with blk := blk } | .error e => .error e) with
          | .error e => _ | .ok s4 => _) = _
        cases storeBlock s.env (decoded s).p <;> rfl

/-- What XLATE did when it raised nothing: a TLB hit, a soft miss, or a page fault. -/
theorem xlate_cases {s t : State} (h : xlate s = .ok t) :
    malformed (refWord s.env s.clock) = false ∧
    ((∃ e, tlbFind s.tlb (decoded s).p = some e ∧
        t = clkAdv (frXbyte (tlbInsert (onTlbHit (tlbLookup (decoded s)))))) ∨
     (tlbFind s.tlb (decoded s).p = none ∧ isActive s (decoded s).p = true ∧
        t = clkAdv (frXbyte (tlbInsert (ptRechit
          { ptLookup (onTlbMiss (tlbLookup (decoded s))) with f := (ptAt s (decoded s).p).frame })))) ∨
     (tlbFind s.tlb (decoded s).p = none ∧ isActive s (decoded s).p = false ∧
        storeShort s.env = false ∧ blockBad s.env (decoded s).p = false ∧ ∃ u,
        faAlloc { faulted s with blk := blockOf fun k => storeByte s.env (addrOf (decoded s).p k) } = .ok u ∧
        t = clkAdv (frXbyte (tlbInsert (ptRecfault (frFill u)))))) := by
  rw [xlate_outcomes] at h
  split at h
  · cases h
  rename_i hm
  refine ⟨by simpa using hm, ?_⟩
  split at h
  · rename_i hf
    obtain ⟨e, he⟩ := Option.isSome_iff_exists.1 hf
    exact Or.inl ⟨e, he, (Except.ok.inj h).symm⟩
  rename_i hf
  have hn : tlbFind s.tlb (decoded s).p = none := by simpa using hf
  split at h
  · rename_i hr
    exact Or.inr (Or.inl ⟨hn, hr, (Except.ok.inj h).symm⟩)
  rename_i hr
  split at h
  · cases h
  rename_i blk hb
  split at h
  · cases h
  rename_i u hu
  obtain ⟨b1, b2, rfl⟩ := storeBlock_ok hb
  exact Or.inr (Or.inr ⟨hn, by simpa using hr, b1, b2, u, hu, (Except.ok.inj h).symm⟩)

/-- What FA.ALLOC leaves when it raises nothing: the registers its rule does not name and everything beside them. -/
theorem faAlloc_frame {s t : State} (h : faAlloc s = .ok t) :
    t.cfgFrames = s.cfgFrames ∧ t.cfgPolicy = s.cfgPolicy ∧ t.clock = s.clock ∧ t.refN = s.refN ∧
    t.tlbHits = s.tlbHits ∧ t.tlbMisses = s.tlbMisses ∧ t.pageFaults = s.pageFaults ∧ t.la = s.la ∧ t.p = s.p ∧
    t.off = s.off ∧ t.blk = s.blk ∧ t.runState = s.runState ∧ t.errCode = s.errCode ∧ t.frame = s.frame ∧
    t.bus = s.bus ∧ t.env = s.env ∧ t.input = s.input ∧ t.out = s.out ∧ t.gen = s.gen ∧
    t.launched = s.launched := by
  obtain ⟨_, rfl⟩ | ⟨_, v, _, rfl⟩ := faAlloc_cases h <;> simp

/-- What XLATE leaves when it raises nothing, and CLOCK. -/
theorem xlate_frame {s t : State} (h : xlate s = .ok t) :
    t.cfgFrames = s.cfgFrames ∧ t.cfgPolicy = s.cfgPolicy ∧ t.clock = s.clock + 1 ∧ t.refN = s.refN ∧
    t.runState = s.runState ∧ t.errCode = s.errCode ∧ t.bus = s.bus ∧ t.env = s.env ∧ t.input = s.input ∧
    t.out = s.out ∧ t.gen = s.gen ∧ t.la = addressOf (refWord s.env s.clock) ∧
    t.p = pageOf (addressOf (refWord s.env s.clock)) ∧ t.launched = s.launched := by
  obtain ⟨_, ⟨e, he, rfl⟩ | ⟨he, ha, rfl⟩ | ⟨he, ha, _, _, u, hu, rfl⟩⟩ := xlate_cases h
  · simp
  · simp
  · obtain ⟨a1, a2, a3, a4, a5, a6, a7, a8, a9, a10, a11, a12, a13, a14, a15, a16, a17, a18, a19, a20⟩ := faAlloc_frame hu
    simp only [faulted] at *
    simp at *
    simp [*]

end Sys2Proof.Laws
end

