-- ==== Sys2Proof/Laws/Tlb.lean ====
section
/-! SUPPORT. The TLB as a list: what a search, a removal, a touch and an insert do to it (R86 to R89). -/

namespace Sys2Proof.Laws

open Sys2Proof.Machine

theorem tlbFind_some {tlb : List TlbEntry} {p : Index} {e : TlbEntry} (h : tlbFind tlb p = some e) :
    e ∈ tlb ∧ e.page = p := by
  unfold tlbFind at h
  exact ⟨List.mem_of_find?_eq_some h, by simpa [slotMatches] using List.find?_some h⟩

theorem tlbFind_none {tlb : List TlbEntry} {p : Index} : tlbFind tlb p = none ↔ ∀ e ∈ tlb, e.page ≠ p := by
  simp [tlbFind, slotMatches]

theorem tlbRemove_sublist (tlb : List TlbEntry) (p : Index) : (tlbRemove tlb p).Sublist tlb :=
  List.eraseP_sublist

theorem tlbRemove_perm {tlb : List TlbEntry} {p : Index} {e : TlbEntry} (h : tlbFind tlb p = some e) :
    (tlbRemove tlb p ++ [e]).Perm tlb := by
  induction tlb with
  | nil => simp [tlbFind] at h
  | cons c tlb ih =>
    by_cases hc : slotMatches p c = true
    · simp [tlbFind, hc] at h
      subst h
      simp [tlbRemove, hc]
    · simp only [Bool.not_eq_true] at hc
      have h' : tlbFind tlb p = some e := by simpa [tlbFind, List.find?_cons, hc] using h
      simpa [tlbRemove, List.eraseP_cons, hc] using ih h'

theorem not_mem_tlbRemove {tlb : List TlbEntry} {p : Index} (h : (tlb.map TlbEntry.page).Nodup) :
    ∀ e ∈ tlbRemove tlb p, e.page ≠ p := by
  induction tlb with
  | nil => simp [tlbRemove]
  | cons c tlb ih =>
    simp at h
    by_cases hc : slotMatches p c = true
    · simp only [tlbRemove, List.eraseP_cons, hc, cond_true]
      intro e he hp
      simp [slotMatches] at hc
      exact h.1 e he (by rw [hp, hc])
    · have hc' : c.page ≠ p := by simpa [slotMatches] using hc
      simp only [Bool.not_eq_true] at hc
      simp only [tlbRemove, List.eraseP_cons, hc, cond_false]
      intro e he
      rcases List.mem_cons.1 he with rfl | he
      · exact hc'
      · exact ih h.2 e he

theorem mem_tlbRemove_of_ne {tlb : List TlbEntry} {p : Index} {e : TlbEntry} (h : e ∈ tlb) (hp : e.page ≠ p) :
    e ∈ tlbRemove tlb p := by
  unfold tlbRemove
  rw [List.mem_eraseP_of_neg]
  · exact h
  · simpa [slotMatches] using hp

theorem tlbAdd_present {tlb : List TlbEntry} {x : TlbEntry} (h : ∃ e ∈ tlb, e.page = x.page) : tlbAdd tlb x = tlb := by
  unfold tlbAdd
  split
  · rfl
  · rename_i hn
    obtain ⟨e, he, hp⟩ := h
    exact absurd hp (tlbFind_none.1 hn e he)

theorem tlbAdd_absent {tlb : List TlbEntry} {x : TlbEntry} (h : tlbFind tlb x.page = none) :
    tlbAdd tlb x = tlbAppend tlb x := by
  unfold tlbAdd; rw [h]

theorem tlbTouch_hit {tlb : List TlbEntry} {p : Index} {e : TlbEntry} (h : tlbFind tlb p = some e) :
    tlbTouch tlb p = tlbRemove tlb p ++ [e] := by
  unfold tlbTouch; rw [h]

theorem tlbTouch_miss {tlb : List TlbEntry} {p : Index} (h : tlbFind tlb p = none) : tlbTouch tlb p = tlb := by
  unfold tlbTouch; rw [h]

theorem mem_tlbAppend {tlb : List TlbEntry} {x e : TlbEntry} (h : e ∈ tlbAppend tlb x) : e ∈ tlb ∨ e = x := by
  unfold tlbAppend at h
  rcases List.mem_append.1 h with h | h
  · left; split at h
    · exact List.mem_of_mem_drop h
    · exact h
  · right; simpa using h

theorem tlbAppend_nodup {tlb : List TlbEntry} {x : TlbEntry} (h : (tlb.map TlbEntry.page).Nodup)
    (hx : tlbFind tlb x.page = none) : ((tlbAppend tlb x).map TlbEntry.page).Nodup := by
  unfold tlbAppend
  rw [List.map_append, List.nodup_append]
  refine ⟨?_, by simp, ?_⟩
  · split
    · exact h.sublist ((List.drop_sublist _ _).map _)
    · exact h
  · intro a ha b hb
    simp at hb; subst hb
    obtain ⟨e, he, rfl⟩ := List.mem_map.1 ha
    refine tlbFind_none.1 hx e ?_
    split at he
    · exact List.mem_of_mem_drop he
    · exact he

theorem tlbAppend_length {tlb : List TlbEntry} {x : TlbEntry} (h : tlb.length ≤ tlbCapacity) :
    (tlbAppend tlb x).length ≤ tlbCapacity := by
  unfold tlbAppend
  split <;> simp <;> simp [tlbCapacity] at * <;> omega

theorem tlbAdd_length {tlb : List TlbEntry} {x : TlbEntry} (h : tlb.length ≤ tlbCapacity) :
    (tlbAdd tlb x).length ≤ tlbCapacity := by
  unfold tlbAdd; split
  · exact h
  · exact tlbAppend_length h

theorem tlbTouch_length (tlb : List TlbEntry) (p : Index) : (tlbTouch tlb p).length = tlb.length := by
  cases h : tlbFind tlb p with
  | none => rw [tlbTouch_miss h]
  | some e => rw [tlbTouch_hit h]; exact (tlbRemove_perm h).length_eq

end Sys2Proof.Laws
end

