-- ==== Sys2Proof/Laws/Running.lean ====
section
/-! SUPPORT. The invariant of READY is kept by XLATE (R18, R26, R27, R30 to R32, R161). -/

namespace Sys2Proof.Laws

open Sys2Proof.Machine

theorem running_touch {s t : State} {P : Index} (h : Running s) (hP : isActive s P = true) (lt : s.clock < s.refN)
    (c1 : t.cfgFrames = s.cfgFrames) (c2 : t.cfgPolicy = s.cfgPolicy) (c3 : t.refN = s.refN) (c4 : t.env = s.env)
    (c5 : t.clock = s.clock + 1) (c6 : t.tlbHits + t.tlbMisses = s.tlbHits + s.tlbMisses + 1)
    (c7 : s.tlbMisses ≤ t.tlbMisses) (c8 : t.pageFaults = s.pageFaults) (c9 : t.nextFree = s.nextFree)
    (c10 : (t.tlb.map TlbEntry.page).Nodup)
    (c11 : ∀ e ∈ t.tlb, e ∈ s.tlb ∨ (e.page = P ∧ e.frame = (ptAt s P).frame))
    (c12 : s.cfgFrames.toNat ≤ 16 → ∀ e ∈ s.tlb, ∃ e' ∈ t.tlb, e'.page = e.page)
    (c13 : ∀ q, ptAt t q = if q = P then { ptAt s P with lastRef := s.clock } else ptAt s q)
    (c14 : t.frame = s.frame) : Running t := by
  have fr : ∀ q, (ptAt t q).frame = (ptAt s q).frame := by
    intro q; rw [c13]; split
    · rename_i hq; rw [hq]
    · rfl
  have ac : ∀ q, isActive t q = isActive s q := by
    intro q; simp only [isActive, c13]; split
    · rename_i hq; rw [hq]
    · rfl
  have pr : ∀ q, (ptAt t q).present = (ptAt s q).present := by
    intro q; rw [c13]; split
    · rename_i hq; rw [hq]
    · rfl
  have act : ∀ q, (ptAt t q).active = (ptAt s q).active := by
    intro q; rw [c13]; split
    · rename_i hq; rw [hq]
    · rfl
  constructor
  · rw [c1, c2]; exact h.config
  · rw [c3, c4]; exact h.refN
  · omega
  · have := h.counted; omega
  · have := h.faults; omega
  · rw [c9, c8, c1]; exact h.bumped
  · exact c10
  · intro e he
    rw [ac, fr]
    rcases c11 e he with h1 | ⟨h1, h2⟩
    · exact h.tlbActive e h1
    · rw [h1, h2]; exact ⟨hP, rfl⟩
  · intro hc q hq
    rw [ac] at hq; rw [c1] at hc
    obtain ⟨e, he, hp⟩ := h.tlbAll hc q hq
    obtain ⟨e', he', hp'⟩ := c12 hc e he
    exact ⟨e', he', hp'.trans hp⟩
  · intro q; rw [act, pr]; exact h.created q
  · intro q; rw [ac, fr, c9]; exact h.owned q
  · intro q r; rw [ac, ac, fr, fr]; exact h.distinct q r
  · intro k hk; rw [c9] at hk
    obtain ⟨q, hq⟩ := h.covered k hk
    exact ⟨q, by rw [ac, fr]; exact hq⟩
  · intro q; rw [ac, fr, c14, c4]; exact h.content q
  · intro q; rw [pr, c5, c13]; intro hq
    have := h.stamped q hq
    split
    · rename_i hqP; subst hqP; simp; omega
    · omega
  · intro q r; rw [pr, pr]; intro hq hr hne
    have h1 := h.apart q r hq hr hne
    have h2 := h.stamped q hq
    have h3 := h.stamped r hr
    rw [c13, c13]
    split <;> split <;> rename_i hx hy
    · exact absurd (hx.trans hy.symm) hne
    · subst hx; simp; exact ⟨by omega, h1.2⟩
    · subst hy; simp; exact ⟨by omega, h1.2⟩
    · exact h1

theorem running_load {s t : State} {P F : Index} (h : Running s) (hP : isActive s P = false) (lt : s.clock < s.refN)
    (gone : Index → Prop)
    (c1 : t.cfgFrames = s.cfgFrames) (c2 : t.cfgPolicy = s.cfgPolicy) (c3 : t.refN = s.refN) (c4 : t.env = s.env)
    (c5 : t.clock = s.clock + 1) (c6 : t.tlbHits = s.tlbHits) (c7 : t.tlbMisses = s.tlbMisses + 1)
    (c8 : t.pageFaults = s.pageFaults + 1)
    (c9 : t.nextFree.toNat = min t.pageFaults s.cfgFrames.toNat) (c9' : s.nextFree.toNat ≤ t.nextFree.toNat)
    (c10 : (t.tlb.map TlbEntry.page).Nodup)
    (c11 : ∀ e ∈ t.tlb, (e ∈ s.tlb ∧ ¬ gone e.page) ∨ (e.page = P ∧ e.frame = F))
    (c12 : s.cfgFrames.toNat ≤ 16 → (∃ e ∈ t.tlb, e.page = P) ∧
      ∀ e ∈ s.tlb, ¬ gone e.page → ∃ e' ∈ t.tlb, e'.page = e.page)
    (hP0 : ∀ q, ptAt t q = if q = P then { present := true, active := true, frame := F, loadTime := s.clock, lastRef := s.clock } else ptAt t q)
    (hact : ∀ q, q ≠ P → (isActive t q = true ↔ isActive s q = true ∧ ¬ gone q))
    (hpre : ∀ q, q ≠ P → (ptAt t q).present = (ptAt s q).present ∧ (ptAt t q).frame = (ptAt s q).frame ∧
      (ptAt t q).loadTime = (ptAt s q).loadTime ∧ (ptAt t q).lastRef = (ptAt s q).lastRef ∧
      ((ptAt t q).active = true → (ptAt s q).active = true))
    (hF : F.toNat < t.nextFree.toNat)
    (hnew : ∀ q, q ≠ P → isActive t q = true → (ptAt s q).frame ≠ F)
    (hcov : ∀ k, k < t.nextFree.toNat → k = F.toNat ∨ ∃ q, isActive s q = true ∧ ¬ gone q ∧ (ptAt s q).frame.toNat = k)
    (hmem : ∀ x, memRead t.frame x = if addrOf F 0 ≤ x ∧ x < addrOf F 256
      then some (storeByte s.env (addrOf P (x - addrOf F 0))) else memRead s.frame x) : Running t := by
  have hPt : ptAt t P = { present := true, active := true, frame := F, loadTime := s.clock, lastRef := s.clock } := by
    rw [hP0]; simp
  have hPa : isActive t P = true := by rw [isActive_iff, hPt]; simp
  constructor
  · rw [c1, c2]; exact h.config
  · rw [c3, c4]; exact h.refN
  · omega
  · have := h.counted; omega
  · have := h.faults; omega
  · rw [c1]; exact c9
  · exact c10
  · intro e he
    rcases c11 e he with ⟨h1, h2⟩ | ⟨h1, h2⟩
    · have h3 := h.tlbActive e h1
      have hne : e.page ≠ P := by intro hh; rw [hh, hP] at h3; simp at h3
      rw [(hpre _ hne).2.1]
      exact ⟨(hact _ hne).2 ⟨h3.1, h2⟩, h3.2⟩
    · rw [h1, h2, hPt]; exact ⟨hPa, rfl⟩
  · intro hc q hq
    rw [c1] at hc
    by_cases hqP : q = P
    · subst hqP; exact (c12 hc).1
    · have := (hact q hqP).1 hq
      obtain ⟨e, he, hp⟩ := h.tlbAll hc q this.1
      obtain ⟨e', he', hp'⟩ := (c12 hc).2 e he (by rw [hp]; exact this.2)
      exact ⟨e', he', hp'.trans hp⟩
  · intro q hq
    by_cases hqP : q = P
    · subst hqP; rw [hPt]
    · rw [(hpre q hqP).1]; exact h.created q ((hpre q hqP).2.2.2.2 hq)
  · intro q hq
    by_cases hqP : q = P
    · subst hqP; rw [hPt]; exact hF
    · rw [(hpre q hqP).2.1]
      exact Nat.lt_of_lt_of_le (h.owned q ((hact q hqP).1 hq).1) c9'
  · intro q r hq hr hfr
    by_cases hqP : q = P <;> by_cases hrP : r = P
    · rw [hqP, hrP]
    · subst hqP; rw [hPt, (hpre r hrP).2.1] at hfr
      exact absurd hfr.symm (hnew r hrP hr)
    · subst hrP; rw [hPt, (hpre q hqP).2.1] at hfr
      exact absurd hfr (hnew q hqP hq)
    · rw [(hpre r hrP).2.1, (hpre q hqP).2.1] at hfr
      exact h.distinct q r ((hact q hqP).1 hq).1 ((hact r hrP).1 hr).1 hfr
  · intro k hk
    rcases hcov k hk with h1 | ⟨q, h1, h2, h3⟩
    · exact ⟨P, hPa, by rw [hPt]; exact h1.symm⟩
    · have hne : q ≠ P := by intro hh; rw [hh, hP] at h1; simp at h1
      exact ⟨q, (hact q hne).2 ⟨h1, h2⟩, by rw [(hpre q hne).2.1]; exact h3⟩
  · intro q hq o ho
    rw [hmem, c4]
    by_cases hqP : q = P
    · subst hqP; rw [hPt]
      have : addrOf F 0 ≤ addrOf F o ∧ addrOf F o < addrOf F 256 := by simp [addrOf]; omega
      rw [if_pos this]
      have : addrOf F o - addrOf F 0 = o := by simp [addrOf]
      rw [this]
    · have hne := hnew q hqP hq
      rw [(hpre q hqP).2.1]
      have : ¬ (addrOf F 0 ≤ addrOf (ptAt s q).frame o ∧ addrOf (ptAt s q).frame o < addrOf F 256) := by
        have : (ptAt s q).frame.toNat ≠ F.toNat := fun hh => hne (BitVec.eq_of_toNat_eq hh)
        simp only [addrOf]; omega
      rw [if_neg this]
      exact h.content q ((hact q hqP).1 hq).1 o ho
  · intro q hq
    rw [c5]
    by_cases hqP : q = P
    · subst hqP; rw [hPt]; simp
    · obtain ⟨a1, a2, a3, a4, a5⟩ := hpre q hqP
      rw [a1] at hq; rw [a3, a4]
      have := h.stamped q hq; omega
  · intro q r hq hr hne
    by_cases hqP : q = P <;> by_cases hrP : r = P
    · exact absurd (hqP.trans hrP.symm) hne
    · subst hqP
      obtain ⟨b1, b2, b3, b4, b5⟩ := hpre r hrP
      rw [b1] at hr
      have := h.stamped r hr
      rw [hPt, b3, b4]; simp; omega
    · subst hrP
      obtain ⟨b1, b2, b3, b4, b5⟩ := hpre q hqP
      rw [b1] at hq
      have := h.stamped q hq
      rw [hPt, b3, b4]; simp; omega
    · obtain ⟨a1, a2, a3, a4, a5⟩ := hpre q hqP
      obtain ⟨b1, b2, b3, b4, b5⟩ := hpre r hrP
      rw [a1] at hq; rw [b1] at hr
      rw [a3, a4, b3, b4]
      exact h.apart q r hq hr hne

theorem tlb_le_nextFree {s : State} (h : Running s) : s.tlb.length ≤ s.nextFree.toNat := by
  have hn : (s.tlb.map fun e => e.frame.toNat).Nodup := by
    refine List.Nodup.map_on ?_ (List.Nodup.of_map _ h.tlbNodup)
    intro a ha b hb hab
    have h1 := h.tlbActive a ha
    have h2 := h.tlbActive b hb
    have hf : a.frame = b.frame := BitVec.eq_of_toNat_eq hab
    have hp := h.distinct _ _ h1.1 h2.1 (by rw [h1.2, h2.2, hf])
    cases a; cases b; simp_all
  have hs : (s.tlb.map fun e => e.frame.toNat) ⊆ List.range s.nextFree.toNat := by
    intro k hk
    obtain ⟨e, he, rfl⟩ := List.mem_map.1 hk
    have h1 := h.tlbActive e he
    rw [List.mem_range, ← h1.2]
    exact h.owned _ h1.1
  simpa using (hn.subperm hs).length_le

theorem running_hit {s t : State} {e : TlbEntry} (h : Running s) (lt : s.clock < s.refN)
    (he : tlbFind s.tlb (decoded s).p = some e)
    (ht : t = clkAdv (frXbyte (tlbInsert (onTlbHit (tlbLookup (decoded s)))))) : Running t := by
  obtain ⟨hmem, hpage⟩ := tlbFind_some he
  have hact := h.tlbActive e hmem
  rw [hpage] at hact
  have hperm := tlbRemove_perm he
  have htl : t.tlb = tlbRemove s.tlb (decoded s).p ++ [e] := by
    rw [ht]; simp only [clkAdv_tlb, frXbyte_tlb, tlbInsert_tlb, onTlbHit_tlb, tlbLookup_tlb, decoded_tlb]
    rw [tlbTouch_hit he]
    exact tlbAdd_present ⟨e, by simp, hpage⟩
  refine running_touch (P := (decoded s).p) h hact.1 lt ?_ ?_ ?_ ?_ ?_ ?_ ?_ ?_ ?_ ?_ ?_ ?_ ?_ ?_
  any_goals (rw [ht]; simp; done)
  · rw [ht]; simp; omega
  · rw [htl]; exact (hperm.map _).nodup_iff.2 h.tlbNodup
  · intro x hx; rw [htl] at hx; exact Or.inl (hperm.mem_iff.1 hx)
  · intro _ x hx; rw [htl]; exact ⟨x, hperm.mem_iff.2 hx, rfl⟩
  · intro q; rw [ht]; simp; rfl

theorem running_soft {s t : State} (h : Running s) (lt : s.clock < s.refN)
    (he : tlbFind s.tlb (decoded s).p = none) (ha : isActive s (decoded s).p = true)
    (ht : t = clkAdv (frXbyte (tlbInsert (ptRechit
          { ptLookup (onTlbMiss (tlbLookup (decoded s))) with f := (ptAt s (decoded s).p).frame })))) : Running t := by
  generalize hu : { ptLookup (onTlbMiss (tlbLookup (decoded s))) with f := (ptAt s (decoded s).p).frame } = u at ht
  have htl : t.tlb = tlbAppend s.tlb { page := (decoded s).p, frame := (ptAt s (decoded s).p).frame } := by
    rw [ht]
    simp only [clkAdv_tlb, frXbyte_tlb, tlbInsert_tlb, ptRechit_tlb, ptRechit_p, ptRechit_f]
    rw [← hu]
    simp only [ptLookup_tlb, onTlbMiss_tlb, tlbLookup_tlb, ptLookup_p, onTlbMiss_p, tlbLookup_p, decoded_tlb]
    rw [tlbTouch_miss he]
    exact tlbAdd_absent he
  refine running_touch (P := (decoded s).p) h ha lt ?_ ?_ ?_ ?_ ?_ ?_ ?_ ?_ ?_ ?_ ?_ ?_ ?_ ?_
  any_goals (rw [ht]; simp; rw [← hu]; simp; done)
  · rw [ht]; simp; rw [← hu]; simp; omega
  · rw [htl]; exact tlbAppend_nodup h.tlbNodup he
  · intro x hx; rw [htl] at hx
    rcases mem_tlbAppend hx with h1 | rfl
    · exact Or.inl h1
    · exact Or.inr ⟨rfl, rfl⟩
  · intro hc
    obtain ⟨x, hx, hp⟩ := h.tlbAll hc _ ha
    exact absurd hp (tlbFind_none.1 he x hx)
  · intro q; rw [ht]; simp; rw [← hu]; rfl

theorem frame_after_fill {s u : State} {P F : Index} (hb : u.blk = blockOf fun k => storeByte s.env (addrOf P k))
    (hf : u.f = F) (hfr : u.frame = s.frame) (x : Nat) :
    memRead (frFill u).frame x = if addrOf F 0 ≤ x ∧ x < addrOf F 256
      then some (storeByte s.env (addrOf P (x - addrOf F 0))) else memRead s.frame x := by
  unfold frFill
  rw [memRead_writeFrame, hf, hfr]
  by_cases hx : addrOf F 0 ≤ x ∧ x < addrOf F 256
  · rw [dif_pos hx, if_pos hx]
    have : x - addrOf F 0 < 256 := by simp [addrOf] at hx ⊢; omega
    simp only [hb]
    rw [blockOf_get _ _ this]
  · rw [dif_neg hx, if_neg hx]

/-- What the fields of a state on the page-fault path are, just before FA.ALLOC. -/
structure FaultPath (s u : State) : Prop where
  cfgFrames : u.cfgFrames = s.cfgFrames
  cfgPolicy : u.cfgPolicy = s.cfgPolicy
  clock : u.clock = s.clock
  refN : u.refN = s.refN
  env : u.env = s.env
  tlb : u.tlb = s.tlb
  ptAt : ∀ q, ptAt u q = ptAt s q
  nextFree : u.nextFree = s.nextFree
  tlbHits : u.tlbHits = s.tlbHits
  tlbMisses : u.tlbMisses = s.tlbMisses + 1
  pageFaults : u.pageFaults = s.pageFaults + 1
  p : u.p = (decoded s).p
  frame : u.frame = s.frame
  blk : u.blk = blockOf fun k => storeByte s.env (addrOf (decoded s).p k)

theorem faultPath (s : State) (he : tlbFind s.tlb (decoded s).p = none) :
    FaultPath s { faulted s with
          blk := blockOf fun k => storeByte s.env (addrOf (decoded s).p k) } := by
  unfold faulted
  constructor <;> (try simp <;> done)
  · simp only [onPageFault_tlb, ptLookup_tlb, onTlbMiss_tlb, tlbLookup_tlb, decoded_tlb]; exact tlbTouch_miss he
  · intro q; rfl

theorem running_bump {s t u : State} (h : Running s) (lt : s.clock < s.refN)
    (he : tlbFind s.tlb (decoded s).p = none) (ha : isActive s (decoded s).p = false) (hu : FaultPath s u)
    (hlt : s.nextFree.toNat < s.cfgFrames.toNat)
    (ht : t = clkAdv (frXbyte (tlbInsert (ptRecfault (frFill (allocBump u)))))) : Running t := by
  have hcfg := h.config
  simp only [configLegal, Bool.and_eq_true, decide_eq_true_eq] at hcfg
  have hbump := h.bumped
  have hlen := tlb_le_nextFree h
  have hF : (s.nextFree.setWidth 8 : Index).toNat = s.nextFree.toNat := by
    rw [BitVec.toNat_setWidth]; exact Nat.mod_eq_of_lt (by omega)
  have hN : (s.nextFree + 1).toNat = s.nextFree.toNat + 1 := by
    rw [BitVec.toNat_add]; exact Nat.mod_eq_of_lt (by simp; omega)
  have htl : t.tlb = tlbAppend s.tlb { page := (decoded s).p, frame := s.nextFree.setWidth 8 } := by
    rw [ht]; simp [-decoded_p, hu.tlb, hu.p, hu.nextFree]
    exact tlbAdd_absent he
  have hpt : ∀ q, ptAt t q = if q = (decoded s).p then { present := true, active := true, frame := s.nextFree.setWidth 8, loadTime := s.clock, lastRef := s.clock } else ptAt s q := by
    intro q; rw [ht]; simp [-decoded_p, hu.ptAt, hu.p, hu.clock, hu.nextFree]
  have hne : ∀ q, q ≠ (decoded s).p → ptAt t q = ptAt s q := by
    intro q hq; rw [hpt, if_neg hq]
  have hnf : t.nextFree.toNat = s.nextFree.toNat + 1 := by rw [ht]; simp only [clkAdv_nextFree, frXbyte_nextFree, tlbInsert_nextFree, ptRecfault_nextFree, frFill_nextFree, allocBump_nextFree, hu.nextFree]; exact hN
  have hpf : t.pageFaults = s.pageFaults + 1 := by rw [ht]; simp [hu.pageFaults]
  refine running_load (P := (decoded s).p) (F := s.nextFree.setWidth 8) h ha lt (fun _ => False)
    ?_ ?_ ?_ ?_ ?_ ?_ ?_ ?_ ?_ ?_ ?_ ?_ ?_ ?_ ?_ ?_ ?_ ?_ ?_ ?_
  · rw [ht]; simp [hu.cfgFrames]
  · rw [ht]; simp [hu.cfgPolicy]
  · rw [ht]; simp [hu.refN]
  · rw [ht]; simp [hu.env]
  · rw [ht]; simp [hu.clock]
  · rw [ht]; simp [hu.tlbHits]
  · rw [ht]; simp [hu.tlbMisses]
  · exact hpf
  · rw [hnf, hpf]; omega
  · omega
  · rw [htl]; exact tlbAppend_nodup h.tlbNodup he
  · intro x hx; rw [htl] at hx
    rcases mem_tlbAppend hx with h1 | rfl
    · exact Or.inl ⟨h1, fun h => h⟩
    · exact Or.inr ⟨rfl, rfl⟩
  · intro hc
    have hnd : s.tlb.length ≠ tlbCapacity := by simp [tlbCapacity]; omega
    rw [htl]; unfold tlbAppend; rw [if_neg hnd]
    refine ⟨⟨_, List.mem_append_right _ (List.mem_singleton.2 rfl), rfl⟩, fun e' he' _ => ⟨e', List.mem_append_left _ he', rfl⟩⟩
  · intro q; by_cases hq : q = (decoded s).p
    · rw [if_pos hq, hpt, if_pos hq]
    · rw [if_neg hq]
  · intro q hq; simp [isActive, hne q hq]
  · intro q hq; rw [hne q hq]; simp
  · omega
  · intro q hq hqa hfr
    have : isActive s q = true := by simpa [isActive, hne q hq] using hqa
    have := h.owned q this
    rw [hfr] at this; omega
  · intro k hk
    by_cases hkn : k = s.nextFree.toNat
    · left; omega
    · right
      obtain ⟨q, hq, hk'⟩ := h.covered k (by omega)
      exact ⟨q, hq, fun h => h, hk'⟩
  · intro x; rw [ht]
    simp only [clkAdv_frame, frXbyte_frame, tlbInsert_frame, ptRecfault_frame]
    refine frame_after_fill (P := (decoded s).p) ?_ ?_ ?_ x
    · simp only [allocBump_blk]; exact hu.blk
    · simp [hu.nextFree]
    · simp [hu.frame]

theorem running_evict {s t u : State} {v : Index} (h : Running s) (lt : s.clock < s.refN)
    (he : tlbFind s.tlb (decoded s).p = none) (ha : isActive s (decoded s).p = false) (hu : FaultPath s u)
    (heq : s.nextFree.toNat = s.cfgFrames.toNat) (hv : isActive s v = true) (huv : u.vict = v)
    (ht : t = clkAdv (frXbyte (tlbInsert (ptRecfault (frFill (allocEvict u)))))) : Running t := by
  have hbump := h.bumped
  have hlen := tlb_le_nextFree h
  have hvP : v ≠ (decoded s).p := by intro hh; rw [hh, ha] at hv; simp at hv
  have hw := hu.ptAt
  have htl : t.tlb = tlbAppend (tlbRemove s.tlb v) { page := (decoded s).p, frame := (ptAt s v).frame } := by
    rw [ht]; simp only [clkAdv_tlb, frXbyte_tlb, tlbInsert_tlb, ptRecfault_tlb, frFill_tlb, allocEvict_tlb, ptRecfault_p, frFill_p, allocEvict_p, ptRecfault_f, frFill_f, allocEvict_f, hw, hu.tlb, hu.p, huv]
    refine tlbAdd_absent (tlbFind_none.2 fun e' he' => ?_)
    exact tlbFind_none.1 he e' ((tlbRemove_sublist _ _).subset he')
  have hpt : ∀ q, ptAt t q = if q = (decoded s).p then { present := true, active := true, frame := (ptAt s v).frame, loadTime := s.clock, lastRef := s.clock } else if q = v then { ptAt s v with active := false } else ptAt s q := by
    intro q; rw [ht]
    simp only [clkAdv_ptAt, frXbyte_ptAt, tlbInsert_ptAt, ptRecfault_ptAt, frFill_ptAt, allocEvict_ptAt, frFill_p, allocEvict_p, frFill_f, allocEvict_f, frFill_clock, allocEvict_clock, hw, hu.p, hu.clock, huv]
  have hnf : t.nextFree = s.nextFree := by rw [ht]; simp [hu.nextFree]
  have hpf : t.pageFaults = s.pageFaults + 1 := by rw [ht]; simp [hu.pageFaults]
  have hown := h.owned v hv
  have hsub : ∀ e ∈ tlbRemove s.tlb v, e ∈ s.tlb ∧ e.page ≠ v := fun e he =>
    ⟨(tlbRemove_sublist _ _).subset he, not_mem_tlbRemove h.tlbNodup e he⟩
  refine running_load (P := (decoded s).p) (F := (ptAt s v).frame) h ha lt (fun q => q = v)
    ?_ ?_ ?_ ?_ ?_ ?_ ?_ ?_ ?_ ?_ ?_ ?_ ?_ ?_ ?_ ?_ ?_ ?_ ?_ ?_
  · rw [ht]; simp [hu.cfgFrames]
  · rw [ht]; simp [hu.cfgPolicy]
  · rw [ht]; simp [hu.refN]
  · rw [ht]; simp [hu.env]
  · rw [ht]; simp [hu.clock]
  · rw [ht]; simp [hu.tlbHits]
  · rw [ht]; simp [hu.tlbMisses]
  · exact hpf
  · rw [hnf, hpf]; omega
  · rw [hnf]
  · rw [htl]
    refine tlbAppend_nodup (h.tlbNodup.sublist ((tlbRemove_sublist _ _).map _)) (tlbFind_none.2 fun e' he' => ?_)
    exact tlbFind_none.1 he e' (hsub e' he').1
  · intro x hx; rw [htl] at hx
    rcases mem_tlbAppend hx with h1 | rfl
    · exact Or.inl (hsub x h1)
    · exact Or.inr ⟨rfl, rfl⟩
  · intro hc
    obtain ⟨ev, hev, hpv⟩ := h.tlbAll hc v hv
    have hnd : (tlbRemove s.tlb v).length ≠ tlbCapacity := by
      cases hfe : tlbFind s.tlb v with
      | none => exact absurd hpv (tlbFind_none.1 hfe ev hev)
      | some w =>
        have := (tlbRemove_perm hfe).length_eq
        simp at this; simp [tlbCapacity]; omega
    rw [htl]; unfold tlbAppend; rw [if_neg hnd]
    refine ⟨⟨_, List.mem_append_right _ (List.mem_singleton.2 rfl), rfl⟩, fun e' he' hg => ⟨e', List.mem_append_left _ (mem_tlbRemove_of_ne he' hg), rfl⟩⟩
  · intro q; by_cases hq : q = (decoded s).p
    · rw [if_pos hq, hpt, if_pos hq]
    · rw [if_neg hq]
  · intro q hq
    by_cases hqv : q = v
    · subst hqv; simp [-decoded_p, isActive, hpt, hq]
    · simp [-decoded_p, isActive, hpt, hq, hqv]
  · intro q hq
    by_cases hqv : q = v
    · subst hqv; simp [-decoded_p, hpt, hq]
    · simp [-decoded_p, hpt, hq, hqv]
  · rw [hnf]; exact hown
  · intro q hq hqa hfr
    by_cases hqv : q = v
    · subst hqv; simp [-decoded_p, isActive, hpt, hq] at hqa
    · have : isActive s q = true := by simpa [-decoded_p, isActive, hpt, hq, hqv] using hqa
      exact hqv (h.distinct q v this hv hfr)
  · intro k hk
    rw [hnf] at hk
    obtain ⟨q, hq, hk'⟩ := h.covered k hk
    by_cases hqv : q = v
    · left; rw [← hk', hqv]
    · right; exact ⟨q, hq, hqv, hk'⟩
  · intro x; rw [ht]
    simp only [clkAdv_frame, frXbyte_frame, tlbInsert_frame, ptRecfault_frame]
    refine frame_after_fill (P := (decoded s).p) ?_ ?_ ?_ x
    · simp only [allocEvict_blk]; exact hu.blk
    · simp only [allocEvict_f, hw, huv]
    · simp [hu.frame]

theorem running_xlate {s t : State} (h : Running s) (lt : s.clock < s.refN) (hx : xlate s = .ok t) : Running t := by
  obtain ⟨_, ⟨e, he, ht⟩ | ⟨he, ha, ht⟩ | ⟨he, ha, _, _, u, hu, ht⟩⟩ := xlate_cases hx
  · exact running_hit h lt he ht
  · exact running_soft h lt he ha ht
  · have hf := faultPath s he
    generalize { faulted s with
          blk := blockOf fun k => storeByte s.env (addrOf (decoded s).p k) } = s4 at hu hf
    rcases faAlloc_cases hu with ⟨hlt, rfl⟩ | ⟨heq, v, hv, rfl⟩
    · exact running_bump h lt he ha hf (by rw [← hf.nextFree, ← hf.cfgFrames]; exact hlt) ht
    · have hf' : FaultPath s { s4 with vict := v } := ⟨hf.cfgFrames, hf.cfgPolicy, hf.clock, hf.refN, hf.env, hf.tlb,
        hf.ptAt, hf.nextFree, hf.tlbHits, hf.tlbMisses, hf.pageFaults, hf.p, hf.frame, hf.blk⟩
      refine running_evict h lt he ha hf' (by rw [← hf.nextFree, ← hf.cfgFrames]; exact heq) ?_ rfl ht
      simpa [isActive, hf.ptAt] using hv

end Sys2Proof.Laws
end

