-- ==== Sys2Proof/Laws/Errors.lean ====
section
/-! SUPPORT. How a command or a micro-operation can end other than by its own effect: the error entry, the refusal in
ERROR, the acceptance test, and hardware reset (R14, R174, R196, R197, R215). -/

namespace Sys2Proof.Laws

open Sys2Proof.Machine

theorem raise_of_error {e : ErrKind} {s : State} (h : s.runState = .error) : raise e s = refuse s := by
  simp [raise, h]

/-- Everything the error entry does outside ERROR (R196). -/
theorem raise_of_ne {e : ErrKind} {s : State} (h : s.runState ≠ .error) :
    raise e s = { s with
      toRegs := registersAfterError s.free, runState := .error, errCode := errorCode e, frame := [], gen := s.free
      free := s.free + 1, out := s.out ++ [.error (errorCode e)] } := by
  simp [raise, h]

@[simp] theorem raise_runState (e : ErrKind) (s : State) : (raise e s).runState = .error := by
  unfold raise; split
  · assumption
  · rfl

theorem raise_errCode (e : ErrKind) (s : State) :
    (raise e s).errCode = if s.runState = .error then s.errCode else errorCode e := by
  unfold raise; split <;> rfl

@[simp] theorem raise_env (e : ErrKind) (s : State) : (raise e s).env = s.env := by
  unfold raise; split <;> rfl

@[simp] theorem raise_input (e : ErrKind) (s : State) : (raise e s).input = s.input := by
  unfold raise; split <;> rfl

@[simp] theorem raise_bus (e : ErrKind) (s : State) : (raise e s).bus = s.bus := by
  unfold raise; split <;> rfl

@[simp] theorem raise_launched (e : ErrKind) (s : State) : (raise e s).launched = s.launched := by
  unfold raise; split <;> rfl

/-- An error is answered once (R196). -/
theorem raise_out (e : ErrKind) (s : State) : ∃ r, (raise e s).out = s.out ++ [r] := by
  unfold raise; split <;> exact ⟨_, rfl⟩

theorem raise_frame (e : ErrKind) (s : State) : (raise e s).frame = s.frame ∨ (raise e s).frame = [] := by
  unfold raise; split
  · exact Or.inl rfl
  · exact Or.inr rfl

theorem errorCode_ne_zero (e : ErrKind) : errorCode e ≠ 0 := by
  cases e <;> decide

theorem registersAfterError_tlb (n : Nat) : (registersAfterError n).tlb.length ≤ tlbCapacity := by
  simp [registersAfterError, tlbCapacity]

theorem form_respond {s : State} (r : Response) (h : Form s) : Form (respond s r) :=
  ⟨h.memory, h.capacity⟩

/-- The error entry keeps the form of the state. -/
theorem form_raise (e : ErrKind) {s : State} (h : Form s) : Form (raise e s) := by
  by_cases hs : s.runState = .error
  · rw [raise_of_error hs]; exact form_respond _ h
  · rw [raise_of_ne hs]; exact ⟨rfl, registersAfterError_tlb _⟩

@[simp] theorem hardReset_env (s : State) : (hardReset s).env = s.env := rfl

@[simp] theorem hardReset_input (s : State) : (hardReset s).input = s.input := rfl

@[simp] theorem hardReset_out (s : State) : (hardReset s).out = s.out := rfl

/-- Hardware reset gives every register R33 names its reset value (R215). -/
theorem atReset_hardReset (s : State) : AtReset (hardReset s) := by
  refine ⟨rfl, rfl, ⟨rfl, rfl, rfl, rfl, rfl, ?_, rfl, rfl, rfl, rfl⟩, rfl⟩
  intro q; simp [ptAt, hardReset, Regs.reset, PtEntry.reset]

/-- Hardware reset gives a state of the right form. -/
theorem form_hardReset (s : State) : Form (hardReset s) :=
  ⟨rfl, Nat.zero_le _⟩

/-- Every way an accepted, refused or misplaced command ends (R174). -/
theorem accept_cases (allowed : RunState → Bool) (s : State) (go : State → State) :
    (s.runState = .error ∧ accept allowed s go = refuse s) ∨
    (s.runState ≠ .error ∧ allowed s.runState = true ∧ accept allowed s go = go s) ∨
    (s.runState ≠ .error ∧ allowed s.runState = false ∧ accept allowed s go = raise .command s) := by
  unfold accept
  by_cases h : s.runState = .error
  · simp [h]
  · cases ha : allowed s.runState <;> simp [h]

/-- Every way a micro-operation that may raise ends. -/
theorem settle_cases (s : State) (r : Except ErrKind State) :
    (∃ t, r = .ok t ∧ settle s r = t) ∨ ∃ e, r = .error e ∧ settle s r = raise e s := by
  cases r with
  | ok t => exact Or.inl ⟨t, rfl, rfl⟩
  | error e => exact Or.inr ⟨e, rfl, rfl⟩

end Sys2Proof.Laws
end

