-- ==== Sys2Proof/Laws/Step.lean ====
section
/-! SUPPORT. Everything one step can do, said once. -/

namespace Sys2Proof.Laws

open Sys2Proof.Machine

/-- Every way a step reaches a next state. -/
theorem step_cases {s t : State} (h : step s = .next t) :
    (∃ w i, s.bus = some w ∧ decodeBus w = .ok i ∧ exec i { s with bus := none } = .next t) ∨
    (s.bus = none ∧
      ((s.input = [] ∧ t = s) ∨
       (∃ w rest, s.input = .word w :: rest ∧
          ((s.runState = .error ∧ t = refuse { s with input := rest }) ∨
           (s.runState ≠ .error ∧ ∃ i, decodeHost w = .ok i ∧ exec i { s with input := rest } = .next t) ∨
           (s.runState ≠ .error ∧ ∃ r, decodeHost w = .error r ∧ t = raise .command { s with input := rest }))) ∨
       (∃ rest, s.input = .rst :: rest ∧ t = hardReset { s with input := rest }) ∨
       (∃ w n rest, s.input = .rstDuring w n :: rest ∧ t = abandonCommand w n { s with input := rest }) ∨
       (∃ env rest, s.input = .attach env :: rest ∧ s.launched = false ∧ streamHolds env = true ∧ countFits env = true ∧
          t = { s with input := rest, env := env }))) := by
  unfold step fetch at h
  cases hb : s.bus with
  | some w =>
    rw [hb] at h
    left
    cases hd : decodeBus w with
    | ok i => simp only [takeMicro, hd] at h; exact ⟨w, i, rfl, hd, h⟩
    | error r => simp only [takeMicro, hd] at h; cases h
  | none =>
    rw [hb] at h
    right
    refine ⟨rfl, ?_⟩
    cases hi : s.input with
    | nil => rw [hi] at h; cases h; exact Or.inl ⟨rfl, rfl⟩
    | cons ev rest =>
      rw [hi] at h
      right
      cases ev with
      | word w =>
        left
        refine ⟨w, rest, rfl, ?_⟩
        dsimp only at h
        by_cases he : s.runState = .error
        · unfold takeCommand at h
          rw [if_pos he] at h
          exact Or.inl ⟨he, (Host.Outcome.next.inj h).symm⟩
        · right
          unfold takeCommand at h
          rw [if_neg he] at h
          cases hd : decodeHost w with
          | ok i => rw [hd] at h; exact Or.inl ⟨he, i, rfl, h⟩
          | error r => rw [hd] at h; exact Or.inr ⟨he, r, rfl, (Host.Outcome.next.inj h).symm⟩
      | rst => right; left; cases h; exact ⟨rest, rfl, rfl⟩
      | rstDuring w n => right; right; left; cases h; exact ⟨w, n, rest, rfl, rfl⟩
      | attach env =>
        right; right; right
        dsimp only at h
        cases hr : s.launched
        · cases hs : streamHolds env <;> cases hc : countFits env <;>
            simp only [takeEnv, hr, hs, hc, Bool.false_eq_true, Bool.not_true, Bool.not_false, if_false, if_true] at h
          all_goals cases h
          exact ⟨env, rest, rfl, rfl, hs, hc, rfl⟩
        · simp [takeEnv, hr] at h

end Sys2Proof.Laws
end

