-- ==== Sys2Proof/Laws/Commands.lean ====
section
/-! SUPPORT. The host commands: when STEP and RUN ran, an induction over RUN, and what answers and XLATE keep. -/

namespace Sys2Proof.Laws

open Sys2Proof.Machine

/-- XLATE keeps the form of the state. -/
theorem form_xlate {s t : State} (hf : Form s) (hx : xlate s = .ok t) : Form t := by
  obtain ⟨_, ⟨e, he, ht⟩ | ⟨he, ha, ht⟩ | ⟨he, ha, _, _, u, hu, ht⟩⟩ := xlate_cases hx
  · subst ht
    refine ⟨?_, ?_⟩
    · simp only [clkAdv_frame, frXbyte_frame, tlbInsert_frame, onTlbHit_frame, tlbLookup_frame, decoded_frame]
      exact hf.memory
    · simp only [clkAdv_tlb, frXbyte_tlb, tlbInsert_tlb, onTlbHit_tlb, tlbLookup_tlb, decoded_tlb]
      exact tlbAdd_length (by rw [tlbTouch_length]; exact hf.capacity)
  · subst ht
    refine ⟨?_, ?_⟩
    · simp only [clkAdv_frame, frXbyte_frame, tlbInsert_frame, ptRechit_frame, ptLookup_frame, onTlbMiss_frame,
        tlbLookup_frame, decoded_frame]
      exact hf.memory
    · simp only [clkAdv_tlb, frXbyte_tlb, tlbInsert_tlb, ptRechit_tlb, ptLookup_tlb, onTlbMiss_tlb, tlbLookup_tlb,
        decoded_tlb]
      exact tlbAdd_length (by rw [tlbTouch_length]; exact hf.capacity)
  · have hc : u.tlb.length ≤ tlbCapacity := by
      obtain ⟨_, rfl⟩ | ⟨_, v, _, rfl⟩ := faAlloc_cases hu
      · simp [faulted, tlbTouch_length]; exact hf.capacity
      · simp [faulted]; refine Nat.le_trans (tlbRemove_sublist _ _).length_le ?_; rw [tlbTouch_length]; exact hf.capacity
    have hm : Memory.wf u.frame = true := by
      have : u.frame = s.frame := by have := faAlloc_frame hu; simp [faulted] at this; simp [this]
      rw [this]; exact hf.memory
    subst ht
    refine ⟨?_, by simp only [clkAdv_tlb, frXbyte_tlb, tlbInsert_tlb, ptRecfault_tlb, frFill_tlb]; exact tlbAdd_length hc⟩
    simp only [clkAdv_frame, frXbyte_frame, tlbInsert_frame, ptRecfault_frame]
    exact wf_writeFrame _ _ hm

theorem running_respond {s : State} (r : Response) (h : Running s) : Running (respond s r) :=
  ⟨h.config, h.refN, h.clock, h.counted, h.faults, h.bumped, h.tlbNodup, h.tlbActive, h.tlbAll, h.created, h.owned, h.distinct, h.covered, h.content, h.stamped, h.apart⟩

/-- The invariant of READY reads the registers, the environment and the frame memory only. -/
theorem running_congr {s t : State} (h : Running s) (h1 : t.toRegs = s.toRegs) (h2 : t.env = s.env) (h3 : t.frame = s.frame) : Running t := by
  obtain ⟨r, a, b, c, d, e, f, g, i, j⟩ := s
  obtain ⟨r', a', b', c', d', e', f', g', i', j'⟩ := t
  simp at h1 h2 h3
  subst h1 h2 h3
  exact ⟨h.config, h.refN, h.clock, h.counted, h.faults, h.bumped, h.tlbNodup, h.tlbActive, h.tlbAll, h.created, h.owned, h.distinct, h.covered, h.content, h.stamped, h.apart⟩

/-- RUN's loop keeps whatever each XLATE with its record keeps, unless it raises. -/
theorem runLoop_induct (P : State → Prop) (hstep : ∀ s t, P s → s.runState = .ready → s.clock < s.refN → xlate s = .ok t → P (respond t (recordOf t)))
    (hdone : ∀ s, P s → P (respond s .done)) :
    ∀ n s, P s → s.runState = .ready → (runLoop n s).runState = .error ∨ P (runLoop n s) := by
  intro n
  induction n with
  | zero => intro s h _; exact Or.inr (hdone s h)
  | succ n ih =>
    intro s h hr
    simp only [runLoop]
    split
    · rename_i lt
      split
      · rename_i t hx
        exact ih _ (hstep s t h hr lt hx) (by have := xlate_frame hx; simp [this, hr])
      · left; simp
    · exact Or.inr (hdone s h)

/-- A RUN cut short keeps whatever each XLATE with its record keeps. -/
theorem runCut_induct (P : State → Prop)
    (hstep : ∀ s t, P s → s.clock < s.refN → xlate s = .ok t → P (respond t (recordOf t))) :
    ∀ n s, P s → P (runCut n s) := by
  intro n
  induction n with
  | zero => intro s h; exact h
  | succ n ih =>
    intro s h
    simp only [runCut]
    split
    · rename_i lt
      split
      · rename_i t hx
        exact ih _ (hstep s t h lt hx)
      · exact h
    · exact h

/-- What a RUN sends: records and one response; and what it has sent when it is cut short: the first of these records
(R172, R215). -/
theorem runLoop_out : ∀ m s, m = s.refN - s.clock → ∃ rs r, (runLoop m s).out = s.out ++ rs ++ [r] ∧
    ∀ n, (runCut n s).out = s.out ++ rs.take n := by
  intro m
  induction m with
  | zero =>
    intro s hm
    refine ⟨[], .done, by simp [runLoop], ?_⟩
    intro n; cases n <;> simp [runCut, show ¬ s.clock < s.refN by omega]
  | succ m ih =>
    intro s hm
    have lt : s.clock < s.refN := by omega
    cases hx : xlate s with
    | error e =>
      obtain ⟨r, hr⟩ := raise_out e s
      refine ⟨[], r, by simp [runLoop, lt, hx, hr], ?_⟩
      intro n; cases n <;> simp [runCut, lt, hx]
    | ok t =>
      have hf := xlate_frame hx
      obtain ⟨rs, r, h1, h2⟩ := ih (respond t (recordOf t)) (by simp [hf]; omega)
      refine ⟨recordOf t :: rs, r, by simp [runLoop, lt, hx, h1, hf], ?_⟩
      intro n
      cases n with
      | zero => simp [runCut]
      | succ n => simp [runCut, lt, hx, h2, hf]

/-- A RUN cut short changes nothing beside the unit. -/
theorem runCut_beside (n : Nat) (s : State) : (runCut n s).env = s.env ∧ (runCut n s).input = s.input := by
  refine runCut_induct (fun t => t.env = s.env ∧ t.input = s.input) ?_ n s ⟨rfl, rfl⟩
  intro t u h _ hx
  have hf := xlate_frame hx
  rw [respond_env, respond_input, hf.2.2.2.2.2.2.2.1, hf.2.2.2.2.2.2.2.2.1]
  exact h

/-- What a reset in the middle of a command leaves: the reset values, and what stands beside the unit (R215). -/
theorem abandonCommand_reset (w : Word) (n : Nat) (s : State) : AtReset (abandonCommand w n s) ∧
    (abandonCommand w n s).env = s.env ∧ (abandonCommand w n s).input = s.input := by
  refine ⟨atReset_hardReset _, ?_⟩
  unfold abandonCommand
  rw [hardReset_env, hardReset_input]
  split
  · exact runCut_beside n s
  · exact ⟨rfl, rfl⟩

/-- A RUN that ends outside ERROR was accepted in READY. -/
theorem run_ready {s t : State} (h : exec .run s = .next t) (hr : t.runState ≠ .error) : s.runState = .ready ∧ t = runBody s := by
  cases h
  rcases accept_cases runAllowed s runBody with ⟨h1, e⟩ | ⟨_, h1, e⟩ | ⟨_, _, e⟩ <;> rw [e] at hr ⊢
  · exact absurd h1 hr
  · refine ⟨?_, rfl⟩; cases hs : s.runState <;> simp_all [runAllowed]
  · simp at hr

/-- A STEP that ends outside ERROR was accepted in READY and either found the end of the stream or processed one reference. -/
theorem step_ready {s t : State} (h : exec .step s = .next t) (hr : t.runState ≠ .error) : s.runState = .ready ∧
    ((s.clock = s.refN ∧ t = respond s .done) ∨ (s.clock ≠ s.refN ∧ ∃ u, xlate s = .ok u ∧ t = respond u (recordOf u))) := by
  cases h
  rcases accept_cases runAllowed s stepBody with ⟨h1, e⟩ | ⟨_, h1, e⟩ | ⟨_, _, e⟩ <;> rw [e] at hr ⊢
  · exact absurd h1 hr
  · refine ⟨?_, ?_⟩
    · cases hs : s.runState <;> simp_all [runAllowed]
    · unfold stepBody at hr ⊢
      split
      · left; exact ⟨by assumption, rfl⟩
      · right
        rename_i hne
        rw [if_neg hne] at hr
        refine ⟨hne, ?_⟩
        unfold processReference at hr ⊢
        cases hx : xlate s with
        | ok u => exact ⟨u, rfl, rfl⟩
        | error e => rw [hx] at hr; simp at hr
  · simp at hr

/-- What the host port accepts is a host command. -/
theorem host_of_decodeHost {w : Word} {i : Instr} (h : decodeHost w = .ok i) : isHostCommand i = true := by
  unfold decodeHost at h
  split at h
  · split at h
    · cases h; assumption
    · cases h
  · cases h

end Sys2Proof.Laws
end

