-- ==== Sys2Proof/Laws/Reference.lean ====
section
/-! SUPPORT. The reference stream and its future suffix: what a well-formed word is, and what `future` answers (R44, R80, R134). -/

namespace Sys2Proof.Laws

open Sys2Proof.Machine

/-- A word below 65536 is exactly a word that is not malformed (R44, R80). -/
theorem wordGood_iff {env : Env} {i : Nat} : WordGood env i ↔ malformed (refWord env i) = false := by
  unfold WordGood malformed
  generalize refWord env i = w
  have h2 : (w.extractLsb' 16 16).toNat = w.toNat / 65536 := by
    have := w.isLt
    simp [BitVec.extractLsb'_toNat, Nat.shiftRight_eq_div_pow]; omega
  constructor
  · intro h
    have : w.extractLsb' 16 16 = 0 := BitVec.eq_of_toNat_eq (by rw [h2]; simp; omega)
    simp [this]
  · intro h
    have : w.extractLsb' 16 16 = 0 := by simpa using h
    rw [this] at h2; simp at h2; omega

/-- A `.ref` value outside 0 to 65535 is malformed, whatever its size or sign (R72). -/
theorem malformed_refValue {v : Int} (h : v < 0 ∨ 65536 ≤ v) : malformed (refValue v) = true := by
  unfold refValue
  split
  · cases hm : malformed (BitVec.ofNat 32 v.toNat)
    · have hg : WordGood { Env.reset with refWords := [BitVec.ofNat 32 v.toNat] } 0 := wordGood_iff.2 hm
      change (BitVec.ofNat 32 v.toNat).toNat < 65536 at hg
      rw [BitVec.toNat_ofNat] at hg
      omega
    · rfl
  · split
    · assumption
    · decide

/-- CLK_W is at least 1, so a stream of at most one reference fits it (R7). -/
theorem countFits_of_le_one {env : Env} (h : env.refCount ≤ 1) : countFits env = true := by
  have h2 : 2 ^ 1 ≤ 2 ^ Config.clkW := Nat.pow_le_pow_right (by decide) (Nat.le_add_left 1 _)
  exact decide_eq_true (Nat.lt_of_le_of_lt h h2)

/-- The indices of the future suffix (R134). -/
theorem mem_futureIndices {s : State} {i : Nat} : i ∈ futureIndices s ↔ s.clock < i ∧ i < s.refN := by
  simp only [futureIndices, List.mem_range'_1]; omega

theorem pagesOf_ok {ws : List Word} (h : ∀ w ∈ ws, malformed w = false) :
    pagesOf ws = .ok (ws.map fun w => pageOf (addressOf w)) := by
  induction ws with
  | nil => rfl
  | cons w ws ih => simp at h; simp [pagesOf, h.1, ih h.2]

theorem pagesOf_error {ws : List Word} (h : ∃ w ∈ ws, malformed w = true) :
    pagesOf ws = .error .inputMalformed := by
  induction ws with
  | nil => simp at h
  | cons w ws ih =>
    by_cases hw : malformed w = true
    · simp [pagesOf, hw]
    · simp [hw] at h; simp [pagesOf, hw, ih (by simpa using h)]

/-- The future suffix of a stream whose remaining words are well formed (R134). -/
theorem future_ok {s : State} (h : FutureGood s) :
    future s = .ok ((futureIndices s).map fun i => pageOf (addressOf (refWord s.env i))) := by
  unfold future
  rw [pagesOf_ok]
  · simp
  · intro w hw
    obtain ⟨i, hi, rfl⟩ := List.mem_map.1 hw
    exact wordGood_iff.1 (h i (mem_futureIndices.1 hi).1 (mem_futureIndices.1 hi).2)

/-- A malformed word in the suffix makes `future` raise (R134). -/
theorem future_error {s : State} (h : ¬ FutureGood s) : future s = .error .inputMalformed := by
  unfold future
  refine pagesOf_error ?_
  unfold FutureGood at h
  push Not at h
  obtain ⟨i, h1, h2, h3⟩ := h
  refine ⟨_, List.mem_map.2 ⟨i, mem_futureIndices.2 ⟨h1, h2⟩, rfl⟩, ?_⟩
  cases hm : malformed (refWord s.env i)
  · exact absurd (wordGood_iff.2 hm) (by unfold WordGood; omega)
  · rfl

/-- la = p × 256 + o (R80). -/
theorem addrOf_split (la : BitVec 16) : addrOf (pageOf la) (offsetOf la).toNat = la.toNat := by
  have := la.isLt
  simp [addrOf, pageOf, offsetOf, BitVec.extractLsb'_toNat, Nat.shiftRight_eq_div_pow]; omega

/-- The page number of a word, as a number (R80). -/
theorem page_toNat (w : Word) : (pageOf (addressOf w)).toNat = w.toNat / 256 % 256 := by
  simp [pageOf, addressOf, BitVec.extractLsb'_toNat, Nat.shiftRight_eq_div_pow]

end Sys2Proof.Laws
end

