-- ==== Sys2Proof/Laws/Completion.lean ====
section
/-! SUPPORT. When the operations that may raise complete, and what XLATE leaves resolved. -/

namespace Sys2Proof.Laws

open Sys2Proof.Machine

/-- RP.SELECT delivers a victim when a page is active, the policy is legal and, under OPT, the future is well formed. -/
theorem rpSelect_total {s : State} (ha : ∃ q, isActive s q = true) (hp : s.cfgPolicy ≠ policyReserved)
    (hf : s.cfgPolicy = policyOpt → FutureGood s) : ∃ t, rpSelect s = .ok t := by
  unfold rpSelect
  obtain ⟨q, hq⟩ := ha
  have : (activePages s).isEmpty = false := by
    cases h : activePages s with
    | nil => have := mem_activePages.2 hq; simp [h] at this
    | cons => rfl
  rw [this]
  simp only [Bool.false_eq_true, if_false]
  split
  · exact ⟨_, rfl⟩
  · split
    · exact ⟨_, rfl⟩
    · split
      · rename_i h3
        unfold rpOpt; rw [future_ok (hf h3)]; exact ⟨_, rfl⟩
      · rename_i h1 h2 h3
        exfalso
        have : ∀ p : BitVec 2, p ≠ policyFifo → p ≠ policyLru → p ≠ policyOpt → p = policyReserved := by decide
        exact hp (this _ h1 h2 h3)

/-- On the page-fault path FA.ALLOC delivers a frame unless OPT meets a malformed word. -/
theorem faAlloc_total {s u : State} (h : Running s) (hu : FaultPath s u) 
    (hf : s.cfgPolicy = policyOpt → FutureGood s) : ∃ t, faAlloc u = .ok t := by
  have hcfg := h.config
  simp only [configLegal, Bool.and_eq_true, decide_eq_true_eq] at hcfg
  have hb := h.bumped
  unfold faAlloc
  rw [hu.cfgFrames, hu.nextFree]
  rw [if_neg (by omega)]
  split
  · exact ⟨_, rfl⟩
  · have : ∃ t, rpSelect u = .ok t := by
      refine rpSelect_total ?_ ?_ ?_
      · obtain ⟨q, hq, _⟩ := h.covered 0 (by omega)
        exact ⟨q, by simpa [isActive, hu.ptAt] using hq⟩
      · rw [hu.cfgPolicy]; simpa using hcfg.2
      · rw [hu.cfgPolicy]; intro hp i h1 h2
        rw [hu.clock] at h1; rw [hu.refN] at h2; rw [hu.env]; exact hf hp i h1 h2
    obtain ⟨t, ht⟩ := this
    rw [ht]; exact ⟨_, rfl⟩

/-- A readable store delivers every block (R56). -/
theorem storeBlock_total {env : Env} (h : StoreReadable env) (p : Index) : storeBlock env p = .ok (blockOf fun k => storeByte env (addrOf p k)) := by
  unfold storeBlock
  rw [if_neg (by simp [storeShort]; exact h.1), if_neg]
  simp only [blockBad, List.any_eq_true, Bool.and_eq_true, not_exists, addrOf]
  intro a ⟨ha, _, h3⟩
  have h3 := of_decide_eq_true h3
  have := h.2 a ha
  have := p.isLt
  omega

/-- When XLATE raises nothing. -/
theorem xlate_total {s : State} (h : Running s) (hst : StoreReadable s.env) (hw : WordGood s.env s.clock)
    (hf : s.cfgPolicy = policyOpt → FutureGood s) : ∃ t, xlate s = .ok t := by
  rw [xlate_outcomes, wordGood_iff.1 hw]
  simp only [Bool.false_eq_true, if_false]
  split
  · exact ⟨_, rfl⟩
  · rename_i hn
    have he : tlbFind s.tlb (decoded s).p = none := by simpa using hn
    split
    · exact ⟨_, rfl⟩
    · rw [storeBlock_total hst]
      obtain ⟨u, hu⟩ := faAlloc_total h (faultPath s he) hf
      dsimp only
      rw [hu]
      exact ⟨_, rfl⟩

/-- After XLATE the page is active, F is its frame, SB is its byte and its mapping is in the TLB. -/
theorem xlate_resolved {s t : State} (h : Running s) (hx : xlate s = .ok t) :
    isActive t t.p = true ∧ (ptAt t t.p).frame = t.f ∧ t.off = offsetOf (addressOf (refWord s.env s.clock)) ∧
    t.sb = signedByte (frameByte t (addrOf t.f t.off.toNat)) ∧ ∃ e ∈ t.tlb, e.page = t.p := by
  have htl : ∀ (l : List TlbEntry) (x : TlbEntry), ∃ e ∈ tlbAdd l x, e.page = x.page := by
    intro l x
    unfold tlbAdd
    split
    · rename_i e he
      exact ⟨e, tlbFind_some he⟩
    · exact ⟨x, by simp [tlbAppend], rfl⟩
  obtain ⟨_, ⟨e, he, ht⟩ | ⟨he, ha, ht⟩ | ⟨he, ha, _, _, u, hu, ht⟩⟩ := xlate_cases hx
  · obtain ⟨hm, hp⟩ := tlbFind_some he
    have := h.tlbActive e hm
    rw [hp] at this
    have hpt : ptAt t t.p = { ptAt s (decoded s).p with lastRef := s.clock } := by
      rw [ht]; simp
    have hf : t.f = e.frame := by rw [ht]; simp [-decoded_p, lookupFrame, he]
    refine ⟨?_, ?_, ?_, ?_, ?_⟩
    · rw [isActive_iff, hpt]; exact isActive_iff.1 this.1
    · rw [hpt, hf]; exact this.2
    · rw [ht]; simp
    · rw [ht]; rfl
    · rw [ht]; simp only [clkAdv_tlb, frXbyte_tlb, tlbInsert_tlb]; exact htl _ _
  · have hpt : ptAt t t.p = { ptAt s (decoded s).p with lastRef := s.clock } := by
      rw [ht, clkAdv_ptAt, frXbyte_ptAt, tlbInsert_ptAt, ptRechit_ptAt, if_pos (by simp)]; rfl
    have hf : t.f = (ptAt s (decoded s).p).frame := by rw [ht]; simp
    refine ⟨?_, ?_, ?_, ?_, ?_⟩
    · rw [isActive_iff, hpt]; exact isActive_iff.1 ha
    · rw [hpt, hf]
    · rw [ht]; simp
    · rw [ht]; rfl
    · rw [ht]; simp only [clkAdv_tlb, frXbyte_tlb, tlbInsert_tlb]; exact htl _ _
  · have ho : u.off = (decoded s).off := by have := faAlloc_frame hu; simp [faulted] at this; simp [this]
    refine ⟨?_, ?_, ?_, ?_, ?_⟩
    · rw [isActive_iff, ht]; simp
    · rw [ht]; simp
    · rw [ht]; simp [ho]
    · rw [ht]; rfl
    · rw [ht]; simp only [clkAdv_tlb, frXbyte_tlb, tlbInsert_tlb]; exact htl _ _

end Sys2Proof.Laws
end

