-- ==== Sys2Proof/Laws/Invariant.lean ====
section
/-! SUPPORT. The invariant of the unit between commands, operation by operation. -/

namespace Sys2Proof.Laws

open Sys2Proof.Machine

/-- The error entry keeps the invariant (R196). -/
theorem inv_raise {s : State} (e : ErrKind) (h : UnitInv s) : UnitInv (raise e s) := by
  refine ⟨form_raise e h.form, by simp [h.quiet], ?_, by simp, by simp, by simp⟩
  rw [raise_errCode]
  split
  · rename_i hs; rw [h.code]; simp [hs]
  · exact ⟨fun h => absurd h (errorCode_ne_zero e), fun h => absurd (raise_runState e s) h⟩

/-- An answer keeps the invariant. -/
theorem inv_respond {s : State} (r : Response) (h : UnitInv s) : UnitInv (respond s r) :=
  ⟨form_respond r h.form, h.quiet, h.code, h.window,
    fun hr => let f := h.fresh hr; ⟨f.1, f.2, f.3, f.4, f.5, f.6, f.7, f.8, f.9, f.10⟩, fun hr => running_respond r (h.running hr)⟩

/-- Taking an event from the port keeps the invariant. -/
theorem inv_input {s : State} (inp : List PortEvent) (h : UnitInv s) : UnitInv { s with input := inp } :=
  ⟨⟨h.form.1, h.form.2⟩, h.quiet, h.code, h.window,
    fun hr => let f := h.fresh hr; ⟨f.1, f.2, f.3, f.4, f.5, f.6, f.7, f.8, f.9, f.10⟩, fun hr => running_congr (h.running hr) rfl rfl rfl⟩

/-- XLATE in READY keeps the invariant. -/
theorem inv_xlate {s t : State} (h : UnitInv s) (hr : s.runState = .ready) (lt : s.clock < s.refN) (hx : xlate s = .ok t) : UnitInv t := by
  have hf := xlate_frame hx
  refine ⟨form_xlate h.form hx, by simp [hf, h.quiet], by rw [hf.2.2.2.2.2.1, hf.2.2.2.2.1]; exact h.code,
    by rw [hf.2.2.2.2.2.2.2.2.2.2.2.2.2, hf.2.2.2.2.1]; exact h.window, by simp [hf, hr], fun _ => running_xlate (h.running hr) lt hx⟩

/-- RUN keeps the invariant. -/
theorem inv_runLoop : ∀ n (s : State), UnitInv s → s.runState = .ready → UnitInv (runLoop n s) := by
  intro n
  induction n with
  | zero => intro s h _; exact inv_respond _ h
  | succ n ih =>
    intro s h hr
    simp only [runLoop]
    split
    · rename_i lt
      split
      · rename_i t hx
        refine ih _ (inv_respond _ (inv_xlate h hr lt hx)) ?_
        have := xlate_frame hx
        simp [this, hr]
      · exact inv_raise _ h
    · exact inv_respond _ h

/-- Hardware reset establishes the invariant (R33, R215). -/
theorem inv_hardReset (s : State) : UnitInv (hardReset s) := by
  exact ⟨form_hardReset s, rfl, by simp [hardReset], by simp [hardReset], fun _ => (atReset_hardReset s).registers,
    by simp [hardReset]⟩

/-- An accepted INIT establishes the invariant of READY (R170). -/
theorem inv_configure {s : State} (f : BitVec 9) (p : BitVec 2) (h : UnitInv s) (hr : s.runState = .unconfigured) : UnitInv (configure f p s) := by
  unfold configure
  split
  · rename_i hc
    have fr := h.fresh hr
    refine inv_respond _ ⟨⟨h.form.1, h.form.2⟩, h.quiet, ?_, by simp, by simp, fun _ => ?_⟩
    · have := h.code; simp [hr] at this; simp [this]
    have hact : ∀ q, isActive s q = false := by intro q; simp [isActive, fr.absent]
    have hact' : ∀ q, isActive { s with cfgFrames := f, cfgPolicy := p, refN := s.env.refCount, runState := .ready, launched := true } q = false := hact
    constructor
    · exact hc
    · rfl
    · simp [fr.clock]
    · simp [fr.clock, fr.tlbHits, fr.tlbMisses]
    · simp [fr.pageFaults]
    · simp [fr.pageFaults, fr.nextFree]
    · simp [fr.tlb]
    · simp [fr.tlb]
    · intro _ q hq; rw [hact'] at hq; simp at hq
    · intro q hq; have := (fr.absent q).2; change (ptAt s q).active = true at hq; simp [this] at hq
    · intro q hq; rw [hact'] at hq; simp at hq
    · intro q r hq; rw [hact'] at hq; simp at hq
    · intro k hk; simp [fr.nextFree] at hk
    · intro q hq; rw [hact'] at hq; simp at hq
    · intro q hq; have := (fr.absent q).1; change (ptAt s q).present = true at hq; simp [this] at hq
    · intro q r hq; have := (fr.absent q).1; change (ptAt s q).present = true at hq; simp [this] at hq
  · exact inv_raise _ h

/-- A launch environment attached outside the window of R218 keeps the invariant (R216). -/
theorem inv_attach {s : State} (env : Env) (h : UnitInv s) (hl : s.launched = false) :
    UnitInv { s with env := env } :=
  ⟨⟨h.form.1, h.form.2⟩, h.quiet, h.code, h.window,
    fun hu => let f := h.fresh hu; ⟨f.1, f.2, f.3, f.4, f.5, f.6, f.7, f.8, f.9, f.10⟩,
    fun hh => absurd (h.window.2 hh) (by rw [hl]; decide)⟩

/-- A reset in the middle of a command establishes the invariant (R215). -/
theorem inv_abandonCommand (w : Word) (n : Nat) (s : State) : UnitInv (abandonCommand w n s) :=
  inv_hardReset _

end Sys2Proof.Laws
end

