-- ==== Sys2Proof/Laws/PerInstr.lean ====
section
/-! SUPPORT. Per-instruction lemmas: the word of every instruction lies in the row of spec/opcode_table.json that its
mnemonic names, under that row's mask and match. -/

namespace Sys2Proof.Laws.TableRow

/-- The row's "mask" in spec/opcode_table.json. -/
def mask : Instr → Word
  | .init _ _ => 0xFFFFF800
  | .step => 0xFFFFFFFF
  | .run => 0xFFFFFFFF
  | .rdstat _ => 0xFFFFFFF0
  | .decode => 0xFFFFFFFF
  | .tlbLookup => 0xFFFFFFFF
  | .tlbInsert => 0xFFFFFFFF
  | .tlbInval => 0xFFFFFFFF
  | .ptLookup => 0xFFFFFFFF
  | .ptRecfault => 0xFFFFFFFF
  | .ptRechit => 0xFFFFFFFF
  | .ptDeact => 0xFFFFFFFF
  | .bsRead => 0xFFFFFFFF
  | .faAlloc => 0xFFFFFFFF
  | .rpSelect => 0xFFFFFFFF
  | .rpFifo => 0xFFFFFFFF
  | .rpLru => 0xFFFFFFFF
  | .rpOpt => 0xFFFFFFFF
  | .frFill => 0xFFFFFFFF
  | .frXbyte => 0xFFFFFFFF
  | .clkAdv => 0xFFFFFFFF

/-- The row's "match" in spec/opcode_table.json. -/
def pattern : Instr → Word
  | .init _ _ => 0x01000000
  | .step => 0x02000000
  | .run => 0x03000000
  | .rdstat _ => 0x04000000
  | .decode => 0x10000000
  | .tlbLookup => 0x11000000
  | .tlbInsert => 0x12000000
  | .tlbInval => 0x13000000
  | .ptLookup => 0x14000000
  | .ptRecfault => 0x15000000
  | .ptRechit => 0x16000000
  | .ptDeact => 0x17000000
  | .bsRead => 0x18000000
  | .faAlloc => 0x19000000
  | .rpSelect => 0x1A000000
  | .rpFifo => 0x1B000000
  | .rpLru => 0x1C000000
  | .rpOpt => 0x1D000000
  | .frFill => 0x1E000000
  | .frXbyte => 0x1F000000
  | .clkAdv => 0x20000000

end Sys2Proof.Laws.TableRow

namespace Sys2Proof.Laws

/-- The bits the table fixes have the table's values, whatever the operands. -/
def TableRow.Statement (i : Instr) : Prop :=
  encode i &&& TableRow.mask i = TableRow.pattern i

theorem TableRow.init (frames : BitVec 9) (policy : BitVec 2) : TableRow.Statement (.init frames policy) := by
  revert frames policy
  unfold TableRow.Statement
  decide +kernel

theorem TableRow.step : TableRow.Statement .step := rfl
theorem TableRow.run : TableRow.Statement .run := rfl

theorem TableRow.rdstat (sel : BitVec 4) : TableRow.Statement (.rdstat sel) := by
  revert sel
  unfold TableRow.Statement
  decide

theorem TableRow.decode : TableRow.Statement .decode := rfl
theorem TableRow.tlbLookup : TableRow.Statement .tlbLookup := rfl
theorem TableRow.tlbInsert : TableRow.Statement .tlbInsert := rfl
theorem TableRow.tlbInval : TableRow.Statement .tlbInval := rfl
theorem TableRow.ptLookup : TableRow.Statement .ptLookup := rfl
theorem TableRow.ptRecfault : TableRow.Statement .ptRecfault := rfl
theorem TableRow.ptRechit : TableRow.Statement .ptRechit := rfl
theorem TableRow.ptDeact : TableRow.Statement .ptDeact := rfl
theorem TableRow.bsRead : TableRow.Statement .bsRead := rfl
theorem TableRow.faAlloc : TableRow.Statement .faAlloc := rfl
theorem TableRow.rpSelect : TableRow.Statement .rpSelect := rfl
theorem TableRow.rpFifo : TableRow.Statement .rpFifo := rfl
theorem TableRow.rpLru : TableRow.Statement .rpLru := rfl
theorem TableRow.rpOpt : TableRow.Statement .rpOpt := rfl
theorem TableRow.frFill : TableRow.Statement .frFill := rfl
theorem TableRow.frXbyte : TableRow.Statement .frXbyte := rfl
theorem TableRow.clkAdv : TableRow.Statement .clkAdv := rfl

end Sys2Proof.Laws
end

