-- ==== Sys2Proof/Tests/Slice0.lean ====
section
/-! SUPPORT. Tests. Every expected result is from the spec: the examples of the rules and spec/95_test_vectors.md, named
in each test's comment. After the tests, one witness for every statement that has hypotheses. -/

namespace Sys2Proof.Tests

set_option Elab.async false

open Sys2Proof Sys2Proof.Machine Sys2Proof.Laws

/-! ### Helpers -/

/-- What is seen of the next state, or nothing where there is none. -/
def seen {α : Type} (f : State → α) : Host.Outcome State Fault Refusal → Option α
  | .next t => some (f t)
  | .fault _ => none
  | .refused _ => none

/-- A byte of the example store, BS[a] = ((a >> 8) + (a & 0xFF)) mod 256 (R115). -/
def exampleByte (a : Nat) : Byte := BitVec.ofNat 8 (a / 256 + a % 256)

/-- The 256 cells of one page of the example store. -/
def examplePage (p : Nat) : List Host.Cell :=
  (List.range 256).map fun k => (p * 256 + k, exampleByte (p * 256 + k))

/-- An environment with the stream given (R72), on a readable store of which no byte is listed. -/
def streamEnv (refs : List Nat) : Env := refDirective Env.reset (refs.map Int.ofNat)

/-- A page-table entry that is active. -/
def activeEntry (frame : Index) (load last : Nat) : PtEntry :=
  { present := true, active := true, frame := frame, loadTime := load, lastRef := last }

/-- Put active entries into the page table. -/
def withActive (s : State) : List (Index × PtEntry) → State
  | [] => s
  | (p, e) :: l => withActive (ptPut s p e) l

/-- A TLB given as pairs. -/
def pairs (l : List (Nat × Nat)) : List TlbEntry :=
  l.map fun x => { page := BitVec.ofNat 8 x.1, frame := BitVec.ofNat 8 x.2 }

/-- READY after INIT with these operands on a stream, from reset. -/
def ready (frames : BitVec 9) (policy : BitVec 2) (env : Env) : State :=
  configure frames policy { hardReset State.reset with env := env }

/-- The frame numbers of the records sent, in order. -/
def recordFrames : List Response → List Index
  | [] => []
  | .record _ _ f _ :: l => f :: recordFrames l
  | .ok :: l => recordFrames l
  | .value _ :: l => recordFrames l
  | .done :: l => recordFrames l
  | .error _ :: l => recordFrames l

/-! ### Well-formedness and encodings -/

/-- The one ill-formed term for each refusal of WellFormed: RDSTAT with SEL 10 to 15 (R68). -/
theorem test_wellFormed_refuses_reserved_selectors :
    ((List.range 6).map fun k => WellFormed (.rdstat (BitVec.ofNat 4 (10 + k)))) = List.replicate 6 false := by decide

theorem test_wellFormed_accepts : WellFormed (.rdstat 9) = true ∧ WellFormed (.init 511 3) = true := by decide

/-- The host words of V6.1, each written from the formats of R61 to R63. -/
theorem test_decode_host_words :
    decodeHost 0b00000001_0000000000000_00_000000010 = .ok (.init 2 0) ∧
    decodeHost 0b00000001_0000000000000_01_000000011 = .ok (.init 3 1) ∧
    decodeHost 0b00000001_0000000000000_10_100000000 = .ok (.init 256 2) ∧
    decodeHost 0b00000001_0000000000000_11_100000000 = .ok (.init 256 3) ∧
    decodeHost 0b00000010_000000000000000000000000 = .ok .step ∧
    decodeHost 0b00000011_000000000000000000000000 = .ok .run ∧
    decodeHost 0b00000100_00000000000000000000_0010 = .ok (.rdstat 2) ∧
    decodeHost 0b00000100_00000000000000000000_1001 = .ok (.rdstat 9) := by decide

/-- The class U words of R65, format N (R61), in the table's order. -/
theorem test_decode_micro_words :
    decodeBus 0x10000000 = .ok .decode ∧ decodeBus 0x11000000 = .ok .tlbLookup ∧
    decodeBus 0x12000000 = .ok .tlbInsert ∧ decodeBus 0x13000000 = .ok .tlbInval ∧
    decodeBus 0x14000000 = .ok .ptLookup ∧ decodeBus 0x15000000 = .ok .ptRecfault ∧
    decodeBus 0x16000000 = .ok .ptRechit ∧ decodeBus 0x17000000 = .ok .ptDeact ∧
    decodeBus 0x18000000 = .ok .bsRead ∧ decodeBus 0x19000000 = .ok .faAlloc ∧
    decodeBus 0x1A000000 = .ok .rpSelect ∧ decodeBus 0x1B000000 = .ok .rpFifo ∧
    decodeBus 0x1C000000 = .ok .rpLru ∧ decodeBus 0x1D000000 = .ok .rpOpt ∧
    decodeBus 0x1E000000 = .ok .frFill ∧ decodeBus 0x1F000000 = .ok .frXbyte ∧
    decodeBus 0x20000000 = .ok .clkAdv := by decide

/-- The illegal words of V6.1. -/
theorem test_decode_illegal_words :
    decodeHost 0x00000000 = .error .unknownOpcode ∧ decodeHost 0x05000000 = .error .unknownOpcode ∧
    decodeHost 0xFF000000 = .error .unknownOpcode ∧ decodeHost 0x10000000 = .error .microOpOnHostPort ∧
    decodeHost 0x20000000 = .error .microOpOnHostPort ∧ decodeHost 0x02000001 = .error .reservedBit ∧
    decodeHost 0x03800000 = .error .reservedBit ∧ decodeHost 0x01000802 = .error .reservedBit ∧
    decodeHost 0x0400000A = .error .reservedSelector ∧ decodeHost 0x0400000F = .error .reservedSelector ∧
    decodeHost 0x04000012 = .error .reservedBit ∧ decodeBus 0x02000000 = .error .hostCommandOnBus := by decide

/-- The listing words of R71. -/
theorem test_encode_listing_words :
    encode (.init 2 0) = 0x01000002 ∧ encode (.init 256 2) = 0x01000500 ∧ encode (.init 3 1) = 0x01000203 ∧
    encode .step = 0x02000000 ∧ encode .run = 0x03000000 ∧ encode (.rdstat 2) = 0x04000002 ∧
    encode .clkAdv = 0x20000000 := by decide

/-- The table's numbering is the word's own; the first instruction after reset is the one placed. -/
theorem test_placed_word_runs :
    decodeTableWord 32 0x01000002 = some (.init 2 0) ∧ decodeTableWord 32 0x20000000 = some .clkAdv ∧
    step (State.reset.withFetchWord 32 0x20000000) = exec .clkAdv State.reset ∧
    step (State.reset.withFetchWord 32 0x01000002) = exec (.init 2 0) State.reset := by
  refine ⟨by decide, by decide, ?_, ?_⟩ <;> rfl

/-! ### The micro-operations -/

/-- V2.1. -/
theorem test_decode_splits :
    seen (fun t => (t.la, t.p, t.off)) (exec .decode { State.reset with wRef := 0x0000012C }) = some (300, 1, 44) ∧
    seen (fun t => (t.la, t.p, t.off)) (exec .decode { State.reset with wRef := 0x0000FFFF }) =
      some (0xFFFF, 255, 255) := by decide +kernel

/-- V2.1: a set bit above bit 15 raises InputMalformedError, code 2. -/
theorem test_decode_raises :
    seen (fun t => (t.runState, t.errCode)) (exec .decode { State.reset with wRef := 0x00010000 }) =
      some (.error, 2) := by decide +kernel

/-- V2.2: LOOKUP(3) on [(3,0),(7,1),(9,2)] hits frame 0 and moves the entry to the newest end. -/
theorem test_tlbLookup_hit :
    seen (fun t => (t.hit, t.f, t.tlb))
      (exec .tlbLookup { State.reset with tlb := pairs [(3, 0), (7, 1), (9, 2)], p := 3, f := 77 }) =
      some (true, 0, pairs [(7, 1), (9, 2), (3, 0)]) := by decide +kernel

/-- V2.2: LOOKUP(8) on that TLB misses and changes nothing. -/
theorem test_tlbLookup_miss :
    seen (fun t => (t.hit, t.f, t.tlb))
      (exec .tlbLookup { State.reset with tlb := pairs [(7, 1), (9, 2), (3, 0)], p := 8, f := 77, hit := true }) =
      some (false, 77, pairs [(7, 1), (9, 2), (3, 0)]) := by decide +kernel

/-- R87's example: INSERT(16, 16) on a full TLB drops the oldest entry. -/
theorem test_tlbInsert_full :
    seen (fun t => t.tlb)
      (exec .tlbInsert { State.reset with tlb := pairs ((List.range 16).map fun k => (k, k)), p := 16, f := 16 }) =
      some (pairs ((List.range 16).map fun k => (k + 1, k + 1))) := by decide +kernel

/-- V2.2: INSERT(7, 5) is a no-op when page 7 is present: neither frame nor order changes. -/
theorem test_tlbInsert_present :
    seen (fun t => t.tlb) (exec .tlbInsert { State.reset with tlb := pairs [(7, 1), (9, 2), (3, 0)], p := 7, f := 5 }) =
      some (pairs [(7, 1), (9, 2), (3, 0)]) := by decide +kernel

/-- V2.2: INVAL(9) on [(7,1),(9,2),(3,0)], then again. -/
theorem test_tlbInval :
    seen (fun t => t.tlb) (exec .tlbInval { State.reset with tlb := pairs [(7, 1), (9, 2), (3, 0)], vict := 9 }) =
      some (pairs [(7, 1), (3, 0)]) ∧
    seen (fun t => t.tlb) (exec .tlbInval { State.reset with tlb := pairs [(7, 1), (3, 0)], vict := 9 }) =
      some (pairs [(7, 1), (3, 0)]) := by decide +kernel

/-- V2.3: LOOKUP(4) after reset is Absent, and after RECHIT the entry. -/
theorem test_ptLookup :
    seen (fun t => t.ent) (exec .ptLookup { State.reset with p := 4, ent := some (activeEntry 1 1 1) }) = some none ∧
    seen (fun t => t.ent) (exec .ptLookup { ptPut State.reset 4 (activeEntry 2 6 9) with p := 4 }) =
      some (some (activeEntry 2 6 9)) := by decide +kernel

/-- R101's example: CLOCK = 3, RECFAULT(0, 1). -/
theorem test_ptRecfault :
    seen (fun t => (ptAt t 0, ptAt t 1)) (exec .ptRecfault { State.reset with clock := 3, p := 0, f := 1 }) =
      some (activeEntry 1 3 3, PtEntry.reset) := by decide +kernel

/-- V2.3: RECHIT(4) at CLOCK 9. -/
theorem test_ptRechit :
    seen (fun t => ptAt t 4) (exec .ptRechit { ptPut State.reset 4 (activeEntry 2 6 6) with clock := 9, p := 4 }) =
      some (activeEntry 2 6 9) := by decide +kernel

/-- V2.3: DEACT(4) clears ACTIVE and keeps the rest. -/
theorem test_ptDeact :
    seen (fun t => ptAt t 4) (exec .ptDeact { ptPut State.reset 4 (activeEntry 2 6 9) with clock := 12, vict := 4 }) =
      some { activeEntry 2 6 9 with active := false } := by decide +kernel

/-- V2.4: BS.READ(1) of the example store; a store of 65535 bytes raises BackingStoreError, code 4. -/
theorem test_bsRead :
    seen (fun t => (t.blk[0], t.blk[44], t.blk[255]))
      (exec .bsRead { State.reset with p := 1, env := { Env.reset with bs := examplePage 1 } }) = some (1, 45, 0) ∧
    seen (fun t => (t.runState, t.errCode))
      (exec .bsRead { State.reset with env := { Env.reset with bsLen := 65535 } }) = some (.error, 4) := by
  decide +kernel

/-- V2.4: BS_BAD = {0x02FF} makes page 2 unreadable and leaves pages 1 and 3 readable. -/
theorem test_bsRead_bad :
    ([1, 2, 3].map fun p => seen (fun t => t.runState)
      (exec .bsRead { State.reset with p := p, env := { Env.reset with bsBad := [0x02FF] } })) =
      [some .unconfigured, some .error, some .unconfigured] := by decide +kernel

/-- V2.5: the bump path, then the evict path with FIFO. -/
theorem test_faAlloc :
    seen (fun t => (t.f, t.nextFree)) (exec .faAlloc { State.reset with cfgFrames := 2, nextFree := 1 }) =
      some (1, 2) ∧
    seen (fun t => (t.f, t.nextFree, t.vict, t.tlb, ptAt t 0))
      (exec .faAlloc { withActive State.reset [(0, activeEntry 0 0 0), (1, activeEntry 1 1 1)] with
        cfgFrames := 2, nextFree := 2, vict := 9, f := 9, tlb := pairs [(0, 0), (1, 1)] }) =
      some (0, 2, 0, pairs [(1, 1)], { activeEntry 0 0 0 with active := false }) := by decide +kernel

/-- V2.5: corrupted state, NEXT_FREE = 3 with CFG_FRAMES = 2, raises ResourceExhaustionError, code 3. -/
theorem test_faAlloc_guard :
    seen (fun t => (t.runState, t.errCode)) (exec .faAlloc { State.reset with cfgFrames := 2, nextFree := 3 }) =
      some (.error, 3) := by decide +kernel

/-- V3.4's active pages. -/
def v34 : State :=
  withActive State.reset [(5, activeEntry 0 7 20), (9, activeEntry 1 3 30), (200, activeEntry 2 12 12)]

/-- R130: CFG_POLICY = 1 issues RP.LRU; with no active page the error of code 3. -/
theorem test_rpSelect :
    seen (fun t => t.vict) (exec .rpSelect { v34 with cfgPolicy := 1 }) = some 200 ∧
    seen (fun t => (t.runState, t.errCode)) (exec .rpSelect State.reset) = some (.error, 3) := by decide +kernel

/-- V3.4: RP.FIFO gives 9; on the unreachable tie of pages 8 and 3 it gives 3. -/
theorem test_rpFifo :
    seen (fun t => t.vict) (exec .rpFifo v34) = some 9 ∧
    seen (fun t => t.vict) (exec .rpFifo
      (withActive State.reset [(8, activeEntry 0 4 4), (3, activeEntry 1 4 5), (6, activeEntry 2 9 9)])) = some 3 := by
  decide +kernel

/-- V3.4: RP.LRU gives 200. -/
theorem test_rpLru : seen (fun t => t.vict) (exec .rpLru v34) = some 200 := by decide +kernel

/-- A state at CLOCK 0 whose future suffix is the pages given and whose active pages are those listed. -/
def optState (active fut : List Nat) : State :=
  { withActive State.reset (active.map fun p => (BitVec.ofNat 8 p, activeEntry 0 0 0)) with
    refN := fut.length + 1, env := streamEnv (0xFFFF :: fut.map fun p => p * 256) }

/-- V4.4. -/
theorem test_rpOpt :
    seen (fun t => t.vict) (exec .rpOpt (optState [1, 2, 3] [2, 1, 3, 4])) = some 3 ∧
    seen (fun t => t.vict) (exec .rpOpt (optState [1, 2, 4] [4])) = some 1 ∧
    seen (fun t => t.vict) (exec .rpOpt (optState [7] [7, 7])) = some 7 ∧
    seen (fun t => t.vict) (exec .rpOpt (optState [4, 6] [6, 4, 6, 6])) = some 4 := by decide +kernel

/-- V4.5: a malformed future word raises InputMalformedError, code 2. -/
theorem test_rpOpt_malformed :
    seen (fun t => (t.runState, t.errCode))
      (exec .rpOpt { optState [0, 1] [] with refN := 4, clock := 2, env := streamEnv [0, 256, 512, 70000] }) =
      some (.error, 2) := by decide +kernel

/-- V2.5: FR.FILL(1, BS.READ(5)). -/
theorem test_frFill :
    seen (fun t => (memRead t.frame 256, memRead t.frame 506, memRead t.frame 507, memRead t.frame 511,
        memRead t.frame 255, memRead t.frame 512))
      (exec .frFill { State.reset with f := 1, blk := blockOf fun k => exampleByte (5 * 256 + k) }) =
      some (some 5, some 255, some 0, some 4, none, none) := by decide +kernel

/-- V1.3, on a frame holding the value shown at offset 130 of frame 0. -/
theorem test_frXbyte :
    ([127, 128, 129, 130, 255].map fun v => seen (fun t => t.sb)
      (exec .frXbyte { State.reset with f := 0, off := 130, frame := [(130, v)] })) =
      [some 0x07F, some 0x080, some 0x081, some 0x182, some 0x1FF] := by decide +kernel

/-- R158's example. -/
theorem test_clkAdv : seen (fun t => t.clock) (exec .clkAdv { State.reset with clock := 3 }) = some 4 := by
  decide +kernel

/-! ### The host commands -/

/-- R170's example, INIT 2, FIFO with ref_count = 4. -/
theorem test_init :
    seen (fun t => (t.cfgFrames, t.cfgPolicy, t.refN, t.runState, t.out))
      (exec (.init 2 0) { State.reset with env := streamEnv [0, 256, 512, 0] }) =
      some (2, 0, 4, .ready, [.ok]) := by decide +kernel

/-- V6.2: INIT 0, FIFO; INIT 257, FIFO; INIT 256, 3: ConfigError, code 1. -/
theorem test_init_raises :
    ([exec (.init 0 0) State.reset, exec (.init 257 0) State.reset, exec (.init 256 3) State.reset].map
      (seen fun t => (t.runState, t.errCode, t.out))) =
      List.replicate 3 (some (.error, 1, [.error 1])) := by decide +kernel

/-- V6.2: STEP and RUN before INIT, CommandError, code 5. -/
theorem test_step_before_init :
    ([exec .step State.reset, exec .run State.reset].map (seen fun t => (t.runState, t.out))) =
      List.replicate 2 (some (.error, [.error 5])) := by decide +kernel

/-- V6.2: RDSTAT RUNSTATE from reset reads 0; after an error it is refused with the first code. -/
theorem test_rdstat :
    seen (fun t => t.out) (exec (.rdstat 9) State.reset) = some [.value 0] ∧
    seen (fun t => (t.out, t.errCode)) (exec (.rdstat 9) { State.reset with runState := .error, errCode := 1 }) =
      some ([.error 1], 1) := by decide +kernel

/-- R171's example: the first STEP of the end-to-end scenario, on the example store's page 0. -/
theorem test_step :
    seen (fun t => ((t.clock, t.tlbMisses, t.pageFaults), t.f, t.sb, t.tlb))
      (exec .step (ready 2 0 { streamEnv [0, 256, 512, 0] with bs := examplePage 0 })) =
      some ((1, 1, 1), 0, 0, pairs [(0, 0)]) := by decide +kernel

/-- V3.3, one frame under LRU: three page faults, all in frame 0. -/
theorem test_run_one_frame :
    seen (fun t => ((t.tlbHits, t.tlbMisses, t.pageFaults, t.nextFree), t.tlb, recordFrames t.out, ptAt t 1))
      (exec .run (ready 1 1 (streamEnv [0x0010, 0x0110, 0x0010]))) =
      some ((0, 3, 3, 1), pairs [(0, 0)], [0, 0, 0], { activeEntry 0 1 1 with active := false }) := by decide +kernel

/-- V1.1, the end-to-end scenario: FRAME = 0, 1, 0, 1, four page faults, no hit. -/
theorem test_run_end_to_end :
    seen (fun t => (t.tlbHits, t.tlbMisses, t.pageFaults, t.clock, recordFrames t.out))
      (exec .run (ready 2 0 (streamEnv [0, 256, 512, 0]))) = some (0, 4, 4, 4, [0, 1, 0, 1]) := by decide +kernel

/-- R215: `rst` in the middle of V1.1's RUN, after one record: that record was sent, no response follows, and the unit is
UNCONFIGURED with CLOCK 0. -/
theorem test_reset_abandons_run :
    seen (fun t => ((t.runState, t.clock, t.nextFree), recordFrames t.out, t.out.length))
      (step { ready 2 0 (streamEnv [0, 256, 512, 0]) with input := [.rstDuring 0x03000000 1] }) =
      some ((.unconfigured, 0, 0), [0], 2) := by decide +kernel

/-! ### Responses -/

/-- V6.2 and V6.3: the header words of an accepted INIT, of done, of error(2) and of a record of 0x0100 in frame 1. -/
theorem test_header_words :
    responseWords .ok = [0x00000000] ∧ responseWords .done = [0x00000001] ∧
    responseWords (.error 2) = [0x0000000A] ∧ headerWord 0x0100 0 0 statusOk = 0x01000000 ∧
    headerWord 0x0100 1 0 statusOk = 0x01000100 ∧ responseWords (.value 4) = 0 :: valueWords 4 := by
  refine ⟨rfl, rfl, by decide, by decide, by decide, rfl⟩

/-- R176: the value 4 at CLK_W = 32 is one word; at CLK_W = 64 a value goes low 32 bits first. -/
theorem test_value_words : valueWordsAt 32 4 = [4] ∧ valueWordsAt 64 0x700000005 = [5, 7] := by decide +kernel

/-- R72: `.ref 0, 70000` keeps 70000, which is malformed, and N = 2; so are a value no 32-bit word holds
and a negative one. -/
theorem test_ref_directive :
    (streamEnv [0, 70000]).refWords = [0, 70000] ∧ (streamEnv [0, 70000]).refCount = 2 ∧
    malformed (refValue 70000) = true ∧ malformed (refValue 4294967296) = true ∧
    malformed (refValue (-1)) = true :=
  ⟨by decide, rfl, by decide, malformed_refValue (by decide), malformed_refValue (by decide)⟩

/-- The data words of page 1 of the example store: word 0 and word 63 (spec/95_test_vectors.md section 7). -/
theorem test_data_words :
    dataWord (blockOf fun k => exampleByte (256 + k)) 0 = 0x04030201 ∧
    dataWord (blockOf fun k => exampleByte (256 + k)) 63 = 0x00FFFEFD := by decide +kernel

/-! ### Witnesses

Each theorem below meets together all the hypotheses of the statement its name ends in; a statement of several clauses has
a conjunct, or a theorem, for each. -/

/-- A state of READY from reset meets the invariant, whatever the environment. -/
theorem ready_inv {frames : BitVec 9} {policy : BitVec 2} (env : Env) (h : configLegal frames policy = true) :
    UnitInv (ready frames policy env) ∧ (ready frames policy env).runState = .ready := by
  refine ⟨inv_configure _ _ (inv_attach env (inv_hardReset _) (by decide)) rfl, ?_⟩
  simp [ready, configure, h]

/-- Under FIFO and LRU no future is asked for. -/
theorem no_opt {s : State} (h : s.cfgPolicy ≠ policyOpt) : s.cfgPolicy = policyOpt → FutureGood s :=
  fun he => absurd he h

/-- The document's scenario: two frames, FIFO, four references. -/
def scenario : State := ready 2 0 (streamEnv [0, 256, 512, 0])

theorem scenario_inv : UnitInv scenario ∧ scenario.runState = .ready := ready_inv _ (by decide)

theorem scenario_store : StoreReadable scenario.env := ⟨by decide, fun a h => by cases h⟩

theorem scenario_xlate : ∃ u, xlate scenario = .ok u ∧ exec .step scenario = .next (respond u (recordOf u)) := by
  obtain ⟨u, hu⟩ := xlate_total (scenario_inv.1.running scenario_inv.2) scenario_store (by decide) (no_opt (by decide))
  have h : exec .step scenario = .next (processReference scenario) := rfl
  refine ⟨u, hu, ?_⟩
  rw [h, processReference, hu]

/-- A STEP word at the port of the scenario. -/
def stepping : State := { scenario with input := [.word 0x02000000] }

theorem stepping_next : ∃ t, step stepping = .next t ∧ t.runState = .ready := by
  obtain ⟨u, hu⟩ := xlate_total (s := { scenario with input := [] })
    (running_congr (scenario_inv.1.running scenario_inv.2) rfl rfl rfl) scenario_store (by decide) (no_opt (by decide))
  have h : step stepping = .next (processReference { scenario with input := [] }) := rfl
  refine ⟨respond u (recordOf u), by rw [h, processReference, hu], ?_⟩
  simp [xlate_frame hu]
  rfl

theorem stepping_inv : UnitInv stepping := inv_input _ scenario_inv.1

theorem witness_DecodeOfEncodeIsTheInstruction : WellFormed (.init 511 3) = true ∧ WellFormed (.rdstat 9) = true := by
  decide

theorem witness_EncodeOfDecodeIsTheWord : decodeWord 0x010007FF = .ok (.init 511 3) := by decide

theorem witness_HostPortAcceptsExactlyTheLegalWords :
    ¬ LegalHostWord 0x0400000A ∧ LegalHostWord 0x04000009 ∧ LegalHostWord 0x010007FF ∧ ¬ LegalHostWord 0x01000800 ∧
    ({ State.reset with input := [.word 0x0400000A] } : State).runState ≠ .error ∧
    ({ State.reset with input := [.word 0x0400000A], runState := .error } : State).bus = none := by
  unfold LegalHostWord; decide

theorem witness_StepRunsTheDecodedInstruction :
    (∃ s : State, s.bus = none ∧ s.input = [.word 0x02000000] ∧ decodeHost 0x02000000 = .ok .step) ∧
    ∃ s : State, s.bus = some 0x20000000 ∧ decodeBus 0x20000000 = .ok .clkAdv :=
  ⟨⟨stepping, rfl, rfl, rfl⟩, { State.reset with bus := some 0x20000000 }, rfl, rfl⟩

theorem witness_StepStopsOnlyOnBadBusWordOrChangedEnvironment :
    (State.reset.bus = none ∧ State.reset.input = []) ∧
    step { State.reset with bus := some 0x02000000 } = .fault (.badMicroWord 0x02000000) ∧
    step { scenario with input := [.attach Env.reset] } = .refused .envChanged ∧
    step { State.reset with input := [.attach { streamEnv [0] with refCount := 2 }] } = .refused .countPastStream ∧
    (State.reset.launched = false ∧
      ∃ env : Env, env.refCount ≤ env.refWords.length ∧ 2 ^ Config.clkW ≤ env.refCount) :=
  ⟨⟨rfl, rfl⟩, rfl, rfl, rfl, rfl,
    { Env.reset with refWords := List.replicate (2 ^ Config.clkW) 0, refCount := 2 ^ Config.clkW }, by simp, Nat.le_refl _⟩

/-- R218: after an accepted INIT the environment stays fixed in ERROR too, until reset. -/
theorem test_attach_refused_in_error :
    step { raise .command scenario with input := [.attach Env.reset] } = .refused .envChanged := rfl

theorem witness_AcceptanceDependsOnRunState :
    (∃ s : State, s.runState = .error ∧ s.bus = none ∧ s.input = [.word 0] ∧ isHostCommand .step = true) ∧
    (∃ s : State, s.runState ≠ .error ∧ s.bus = none ∧ s.input = [.word 0] ∧ ¬ LegalHostWord 0) ∧
    State.reset.runState = .unconfigured ∧ scenario.runState = .ready :=
  ⟨⟨{ State.reset with runState := .error, input := [.word 0] }, rfl, rfl, rfl, rfl⟩,
    ⟨{ State.reset with input := [.word 0] }, by decide, rfl, rfl, by unfold LegalHostWord; decide⟩, rfl, rfl⟩

theorem witness_HardwareResetRestoresTheSpecifiedValues :
    (∃ s : State, s.runState = .error ∧ s.bus = none ∧ s.input = [.rst]) ∧
    ∃ s : State, s.runState = .ready ∧ s.bus = none ∧ s.input = [.rstDuring 0x03000000 1] :=
  ⟨⟨{ State.reset with runState := .error, input := [.rst] }, rfl, rfl, rfl⟩,
    { scenario with input := [.rstDuring 0x03000000 1] }, rfl, rfl, rfl⟩

theorem witness_ErrorEntryWritesCodeAndRunState : State.reset.runState ≠ .error ∧ scenario.runState ≠ .error := by
  decide

theorem witness_ErrorIsLeftByHardwareResetOnly :
    (∃ s t : State, s.runState = .error ∧ step s = .next t ∧ t.runState = .error) ∧
    ∃ s t : State, s.runState = .error ∧ step s = .next t ∧ t.runState = .unconfigured :=
  ⟨⟨{ State.reset with runState := .error, errCode := 2, bus := some 0x10000000, wRef := 65536 }, _, rfl, rfl, rfl⟩,
    { State.reset with runState := .error, input := [.rst] }, _, rfl, rfl, rfl⟩

theorem witness_RunStateMovesOnlyAlongItsTransitions :
    (∃ t, step { scenario with input := [.rst] } = .next t ∧ t.runState ≠ .ready) ∧
    (∃ t, step { State.reset with input := [.word 0x01000002] } = .next t ∧ t.runState ≠ .unconfigured) ∧
    ∃ t, step { State.reset with bus := some 0x10000000, wRef := 65536 } = .next t ∧ t.runState ≠ .unconfigured :=
  ⟨⟨_, rfl, by decide⟩, ⟨_, rfl, by decide⟩, _, rfl, by decide⟩

theorem witness_InitConfiguresTheUnit :
    State.reset.runState = .unconfigured ∧ 1 ≤ (1 : BitVec 9).toNat ∧ (256 : BitVec 9).toNat ≤ 256 ∧
    (2 : BitVec 2) ≠ 3 ∧ (0 : BitVec 9).toNat < 1 ∧ 256 < (257 : BitVec 9).toNat ∧ scenario.runState = .ready := by decide

theorem witness_RdstatReadsTheSelectedRegister :
    State.reset.runState ≠ .error ∧ 10 ≤ (10 : BitVec 4).toNat ∧ 10 ≤ (15 : BitVec 4).toNat := by decide

theorem witness_EndOfStreamAnswersDone :
    (ready 1 0 (streamEnv [])).runState = .ready ∧
    (ready 1 0 (streamEnv [])).clock = (ready 1 0 (streamEnv [])).refN := ⟨rfl, rfl⟩

theorem witness_StepAnswersTheRecordOfTheReference :
    UnitInv scenario ∧ scenario.runState = .ready ∧ scenario.clock < scenario.refN ∧ StoreReadable scenario.env ∧
    WordGood scenario.env scenario.clock ∧ (scenario.cfgPolicy = policyOpt → FutureGood scenario) :=
  ⟨scenario_inv.1, rfl, by decide, scenario_store, by decide, no_opt (by decide)⟩

/-- Every word of the scenario's stream is well formed. -/
theorem scenario_good (i : Nat) (h : i < 4) : WordGood scenario.env i := by
  interval_cases i <;> decide

theorem witness_RunAnswersEveryRecordThenDone :
    UnitInv scenario ∧ scenario.runState = .ready ∧ StoreReadable scenario.env ∧
    (scenario.clock < scenario.refN → WordGood scenario.env scenario.clock) ∧ FutureGood scenario :=
  ⟨scenario_inv.1, rfl, scenario_store, fun _ => scenario_good _ (by decide), fun i _ h => scenario_good i h⟩

theorem witness_RunStopsAtTheFirstMalformedWord :
    ∃ s k, UnitInv s ∧ s.runState = .ready ∧ StoreReadable s.env ∧ s.cfgPolicy ≠ policyOpt ∧ s.clock ≤ k ∧ k < s.refN ∧
      (∀ i, s.clock ≤ i → i < k → WordGood s.env i) ∧ ¬ WordGood s.env k := by
  have h := ready_inv (frames := 2) (policy := 0) (streamEnv [0, 256, 65536, 0]) (by decide)
  refine ⟨_, 2, h.1, h.2, ⟨by decide, fun a h => by cases h⟩, by decide, by decide, by decide, ?_, by decide⟩
  intro i _ hi
  interval_cases i <;> decide

theorem witness_FirstReferenceIsAPageFault :
    UnitInv scenario ∧ scenario.runState = .ready ∧ scenario.clock = 0 ∧ 0 < scenario.refN ∧
    StoreReadable scenario.env ∧ WordGood scenario.env 0 :=
  ⟨scenario_inv.1, rfl, rfl, by decide, scenario_store, by decide⟩

/-- OPT with one frame, a first reference that takes it and a malformed word later (V4.5). -/
def optScenario : State := ready 1 2 (streamEnv [0, 256, 70000])

theorem witness_StepRaisesTheFirstErrorOfTheOrder :
    (∃ s, UnitInv s ∧ s.runState = .ready ∧ s.clock < s.refN ∧ ¬ WordGood s.env s.clock) ∧
    (∃ s, UnitInv s ∧ s.runState = .ready ∧ s.clock < s.refN ∧ WordGood s.env s.clock ∧
      isActive s (pageOf (addressOf (refWord s.env s.clock))) = false ∧ s.env.bsLen < 65536) ∧
    ∃ s, UnitInv s ∧ s.runState = .ready ∧ s.clock < s.refN ∧ WordGood s.env s.clock ∧
      isActive s (pageOf (addressOf (refWord s.env s.clock))) = false ∧ StoreReadable s.env ∧
      s.nextFree = s.cfgFrames ∧ s.cfgPolicy = policyOpt ∧ ¬ FutureGood s := by
  refine ⟨?_, ?_, ?_⟩
  · have h := ready_inv (frames := 1) (policy := 0) (streamEnv [65536]) (by decide)
    exact ⟨_, h.1, h.2, by decide, by decide⟩
  · have h := ready_inv (frames := 1) (policy := 0) { streamEnv [0] with bsLen := 65535 } (by decide)
    exact ⟨_, h.1, h.2, by decide, by decide, by decide, by decide⟩
  · have h := ready_inv (frames := 1) (policy := 2) (streamEnv [0, 256, 70000]) (by decide)
    have hx : ∃ u, xlate optScenario = .ok u ∧ u.nextFree = 1 ∧ isActive u 1 = false := by
      cases hx : xlate optScenario with
      | error e =>
        have : (match xlate optScenario with | .ok _ => true | .error _ => false) = true := by decide +kernel
        rw [hx] at this; cases this
      | ok u =>
        have : (match xlate optScenario with
          | .ok u => decide (u.nextFree = 1) && !isActive u 1 | .error _ => false) = true := by decide +kernel
        rw [hx] at this
        exact ⟨u, rfl, by simpa using this⟩
    obtain ⟨u, hu, hn, ha⟩ := hx
    have hf := xlate_frame hu
    have hclock : u.clock = 1 := by rw [hf.2.2.1]; rfl
    have hrefN : u.refN = 3 := by rw [hf.2.2.2.1]; rfl
    have henv : u.env = optScenario.env := hf.2.2.2.2.2.2.2.1
    refine ⟨u, inv_xlate h.1 h.2 (by decide) hu, by rw [hf.2.2.2.2.1]; exact h.2, by omega, ?_, ?_, ?_, ?_, ?_, ?_⟩
    · rw [hclock, henv]; decide
    · rw [hclock, henv]; exact ha
    · rw [henv]; exact ⟨by decide, fun a h => by cases h⟩
    · rw [hn, hf.1]; rfl
    · rw [hf.2.1]; rfl
    · intro hg
      have := hg 2 (by omega) (by omega)
      rw [henv] at this
      revert this; decide

theorem witness_RunIsRepeatedStep : State.reset.clock ≤ State.reset.refN ∧ scenario.clock ≤ scenario.refN := by decide

theorem witness_DecodeSplitsTheReferenceWord :
    (0xFFFF : Word).toNat < 65536 ∧ 65536 ≤ (0x10000 : Word).toNat := by decide

/-- A TLB of three pairs, page 3 in the middle. -/
def threePairs : State := { State.reset with tlb := pairs [(7, 1), (3, 0), (9, 2)], p := 3, vict := 3 }

theorem witness_TlbLookupRefreshesTheHitEntry :
    (threePairs.tlb = pairs [(7, 1)] ++ { page := 3, frame := 0 } :: pairs [(9, 2)] ∧ threePairs.p = 3 ∧
      ∀ x ∈ pairs [(7, 1)], x.page ≠ threePairs.p) ∧
    ∀ x ∈ State.reset.tlb, x.page ≠ State.reset.p := by decide +kernel

theorem witness_TlbInsertAppendsAnAbsentPage :
    (∃ x ∈ threePairs.tlb, x.page = threePairs.p) ∧
    (∀ x ∈ pairs ((List.range 15).map fun k => (k, k)), x.page ≠ 15) ∧
    (pairs ((List.range 15).map fun k => (k, k))).length = 15 ∧
    (∃ oldest rest, pairs ((List.range 16).map fun k => (k, k)) = oldest :: rest ∧ rest.length = 15) ∧
    ∀ x ∈ pairs ((List.range 16).map fun k => (k, k)), x.page ≠ 16 := by
  refine ⟨⟨{ page := 3, frame := 0 }, by decide +kernel, rfl⟩, by decide +kernel, by decide +kernel,
    ⟨_, _, rfl, rfl⟩, by decide +kernel⟩

theorem witness_TlbInvalRemovesTheVictimsEntry :
    (threePairs.tlb = pairs [(7, 1)] ++ { page := 3, frame := 0 } :: pairs [(9, 2)] ∧ threePairs.vict = 3 ∧
      ∀ x ∈ pairs [(7, 1)], x.page ≠ threePairs.vict) ∧
    ∀ x ∈ State.reset.tlb, x.page ≠ State.reset.vict := by decide +kernel

theorem witness_TlbOperationsKeepTheTlbLaws :
    (∃ t, (∀ x ∈ State.reset.tlb, x.page ≠ State.reset.p) ∧ exec .tlbInsert State.reset = .next t) ∧
    (∃ t, (threePairs.tlb.map TlbEntry.page).Nodup ∧ exec .tlbInval threePairs = .next t) ∧
    (∃ t, threePairs.tlb.length ≤ 16 ∧ exec .tlbLookup threePairs = .next t) :=
  ⟨⟨_, by decide, rfl⟩, ⟨_, by decide +kernel, rfl⟩, _, by decide +kernel, rfl⟩

theorem witness_PtLookupAnswersTheEntry :
    (ptAt (ptPut State.reset 0 (activeEntry 1 2 3)) 0).present = true ∧ (ptAt State.reset 0).present = false := by
  decide +kernel

theorem witness_BsReadFetchesTheBlock :
    (65536 ≤ Env.reset.bsLen ∧ ∀ k < 256, (1 : Index).toNat * 256 + k ∉ ([0x02FF] : List Nat)) ∧
    (({ Env.reset with bsLen := 65535 } : Env).bsLen < 65536) ∧
    ∃ k < 256, (2 : Index).toNat * 256 + k ∈ ([0x02FF] : List Nat) :=
  ⟨⟨by decide, fun k hk h => by simp at h; omega⟩, by decide, 255, by decide, by decide⟩

theorem witness_FaAllocBumpsWhileFramesAreLeft :
    (255 : BitVec 9).toNat < (256 : BitVec 9).toNat ∧ (256 : BitVec 9).toNat ≤ 256 ∧
    (0 : BitVec 9).toNat < (1 : BitVec 9).toNat := by decide

/-- Two frames, both in use (V2.5), under the policy given. -/
def fullState (policy : BitVec 2) : State :=
  { withActive State.reset [(0, activeEntry 0 0 0), (1, activeEntry 1 1 1)] with
    cfgFrames := 2, nextFree := 2, cfgPolicy := policy, tlb := pairs [(0, 0), (1, 1)], clock := 2, refN := 4
    env := streamEnv [0, 256, 512, 0] }

theorem fullState_good (policy : BitVec 2) : FutureGood (fullState policy) := by
  intro i h1 h2
  change 2 < i at h1
  change i < 4 at h2
  change WordGood (streamEnv [0, 256, 512, 0]) i
  interval_cases i
  decide

theorem witness_FaAllocEvictsTheChosenVictim :
    ∀ policy ∈ [policyFifo, policyLru, policyOpt],
      (fullState policy).nextFree = (fullState policy).cfgFrames ∧ isActive (fullState policy) 1 = true ∧
      ((fullState policy).tlb.map TlbEntry.page).Nodup ∧ (fullState policy).cfgPolicy ≠ policyReserved ∧
      FutureGood (fullState policy) := by
  intro policy hp
  refine ⟨rfl, ?_, ?_, ?_, fullState_good policy⟩ <;> revert policy <;> decide +kernel

theorem witness_RpSelectFollowsThePolicyCode :
    isActive State.reset 0 = false ∧ isActive (fullState 3) 0 = true ∧ (fullState 3).cfgPolicy = 3 ∧
    (fullState 0).cfgPolicy = 0 ∧ (fullState 1).cfgPolicy = 1 ∧ (fullState 2).cfgPolicy = 2 ∧
    ({ State.reset with cfgFrames := 2, nextFree := 3 } : State).cfgFrames.toNat < 3 := by decide +kernel

theorem reset_inactive (q : Index) : isActive State.reset q = false := by
  simp [isActive, ptAt, State.reset, Regs.reset, PtEntry.reset]

theorem witness_RpSelect_noActivePage : ∀ q, isActive State.reset q = false := reset_inactive

theorem witness_RpFifoChoosesTheOldestLoad : ∃ q, isActive (fullState 0) q = true ∧ (fullState 0).cfgPolicy = 0 :=
  ⟨1, by decide +kernel⟩

theorem witness_RpLruChoosesTheLeastRecentReference :
    ∃ q, isActive (fullState 1) q = true ∧ (fullState 1).cfgPolicy = 1 :=
  ⟨1, by decide +kernel⟩

theorem witness_RpOptLooksFarthestIntoTheFuture :
    (isActive (fullState 2) 1 = true ∧ FutureGood (fullState 2) ∧ ∀ i, ¬ UsedAt (fullState 2) 1 i) ∧
    ¬ FutureGood { fullState 2 with env := streamEnv [0, 256, 512, 70000] } := by
  refine ⟨⟨by decide +kernel, fullState_good 2, ?_⟩, ?_⟩
  · rintro i ⟨h1, h2, h3⟩
    change 2 < i at h1
    change i < 4 at h2
    interval_cases i
    revert h3; decide +kernel
  · intro h
    have := h 3 (by decide +kernel) (by decide +kernel)
    revert this; decide +kernel

/-- One active page, page 0, that the stream uses again: every active page is used again. -/
theorem witness_RpOpt_everyPageUsedAgain :
    ∀ q, isActive (ptPut { State.reset with refN := 2, env := streamEnv [256, 0] } 0 (activeEntry 0 0 0)) q = true →
      ∃ i, UsedAt (ptPut { State.reset with refN := 2, env := streamEnv [256, 0] } 0 (activeEntry 0 0 0)) q i := by
  intro q hq
  have h0 : q = 0 := by
    by_contra hne
    simp only [isActive, ptAt_ptPut, hne, if_false] at hq
    have := reset_inactive q
    simp only [isActive] at this
    change ((ptAt State.reset q).present && (ptAt State.reset q).active) = true at hq
    rw [this] at hq
    cases hq
  subst h0
  exact ⟨1, by decide, by decide, by decide⟩

theorem witness_FrFillWritesTheWholeFrame :
    255 < 256 ∧ (255 < addrOf 1 0 ∨ addrOf 1 256 ≤ 255) ∧ (512 < addrOf 1 0 ∨ addrOf 1 256 ≤ 512) := by decide

theorem witness_FrXbyteKeepsTheSignThreshold :
    (∃ t, exec .frXbyte { State.reset with frame := [(0, 130)] } = .next t ∧ 129 < t.raw.toNat) ∧
    ∃ t, exec .frXbyte { State.reset with frame := [(0, 129)] } = .next t ∧ t.raw.toNat ≤ 129 :=
  ⟨⟨_, rfl, by decide⟩, _, rfl, by decide⟩

theorem witness_MicroOperationsWriteOnlyTheirResults :
    isHostCommand .frFill = false ∧
    ∃ t, exec .frFill State.reset = .next t ∧ (t.runState = .error → State.reset.runState = .error) :=
  ⟨rfl, _, rfl, fun h => h⟩

theorem witness_StepStoresOnlyInTheResolvedFrame : ∃ t, exec .step scenario = .next t ∧ t.runState ≠ .error := by
  obtain ⟨u, hu, he⟩ := scenario_xlate
  refine ⟨_, he, ?_⟩
  simp [xlate_frame hu]
  decide

theorem witness_RunLeavesTheUnusedFrames :
    ∃ s t, UnitInv s ∧ exec .run s = .next t ∧ t.runState ≠ .error :=
  ⟨ready 1 0 (streamEnv []), _, (ready_inv _ (by decide)).1, rfl, by decide⟩

theorem witness_EnvironmentIsNeverWritten :
    (∃ t, step State.reset = .next t) ∧
    ∃ t, step { State.reset with input := [.attach (streamEnv [1])] } = .next t ∧ t.env = streamEnv [1] :=
  ⟨⟨_, rfl⟩, { State.reset with env := streamEnv [1] },
    by simp [step, fetch, takeEnv, State.reset, show streamHolds (streamEnv [1]) = true from rfl,
      countFits_of_le_one (env := streamEnv [1]) (Nat.le_refl 1)], rfl⟩

theorem witness_FrameNumberIsStableWhileActive :
    ∃ s t q, exec .step s = .next t ∧ t.runState ≠ .error ∧ isActive s q = true ∧ isActive t q = true :=
  ⟨{ fullState 0 with runState := .ready, refN := 2 }, _, 1, rfl, by decide, by decide +kernel, by decide +kernel⟩

theorem witness_ClockIsTheSoleTimeBasis :
    (∃ t, exec .step scenario = .next t ∧ t.runState ≠ .error ∧ scenario.clock ≠ scenario.refN) ∧
    (∃ s t, exec .step s = .next t ∧ t.runState ≠ .error ∧ s.clock = s.refN) ∧
    ∃ s t, exec .run s = .next t ∧ t.runState ≠ .error := by
  obtain ⟨t, h1, h2⟩ := witness_StepStoresOnlyInTheResolvedFrame
  exact ⟨⟨t, h1, h2, by decide⟩, ⟨ready 1 0 (streamEnv []), _, rfl, by decide, rfl⟩,
    ready 1 0 (streamEnv []), _, rfl, by decide⟩

theorem witness_StepKeepsTheInvariant : ∃ t, UnitInv stepping ∧ step stepping = .next t :=
  let ⟨t, h, _⟩ := stepping_next
  ⟨t, stepping_inv, h⟩

theorem witness_StepKeepsTheForm :
    ∃ t, Form { State.reset with bus := some 0x1E000000 } ∧ step { State.reset with bus := some 0x1E000000 } = .next t :=
  ⟨_, ⟨rfl, Nat.zero_le _⟩, rfl⟩

/-- A RUN word at the port of a run of two pages on two frames, and the state after it. -/
def running : State := { ready 2 0 (streamEnv [0, 256]) with input := [.word 0x03000000] }

/-- The state the RUN ends in. -/
def afterRun : State := runBody { running with input := [] }

theorem afterRun_seen : ((afterRun.runState == .ready && isActive afterRun 0 && isActive afterRun 1) &&
    (afterRun.tlb.length == 2 && afterRun.nextFree == 2)) = true := by decide +kernel

theorem running_step : UnitInv running ∧ step running = .next afterRun ∧ afterRun.runState = .ready ∧
    isActive afterRun 0 = true ∧ isActive afterRun 1 = true := by
  have h := afterRun_seen
  simp only [Bool.and_eq_true, beq_iff_eq] at h
  exact ⟨inv_input _ (ready_inv _ (by decide)).1, rfl, h.1.1.1, h.1.1.2, h.1.2⟩

theorem witness_ActivePagesOwnDistinctFrames :
    UnitInv running ∧ step running = .next afterRun ∧ afterRun.runState = .ready ∧ isActive afterRun 0 = true ∧
    isActive afterRun 1 = true ∧ (0 : Index) ≠ 1 :=
  let ⟨h1, h2, h3, h4, h5⟩ := running_step
  ⟨h1, h2, h3, h4, h5, by decide⟩

theorem witness_TlbHoldsOnlyActiveMappings :
    UnitInv running ∧ step running = .next afterRun ∧ afterRun.runState = .ready ∧ ∃ e, e ∈ afterRun.tlb := by
  obtain ⟨h1, h2, h3, _⟩ := running_step
  have h := afterRun_seen
  simp only [Bool.and_eq_true, beq_iff_eq] at h
  exact ⟨h1, h2, h3, List.exists_mem_of_length_pos (by omega)⟩

theorem witness_FramesHoldTheirPages :
    UnitInv running ∧ step running = .next afterRun ∧ afterRun.runState = .ready ∧ isActive afterRun 1 = true ∧
    255 < 256 :=
  let ⟨h1, h2, h3, _, h5⟩ := running_step
  ⟨h1, h2, h3, h5, by decide⟩

theorem witness_TimeStampsAreOrderedAndDistinct :
    UnitInv running ∧ step running = .next afterRun ∧ afterRun.runState = .ready ∧ (ptAt afterRun 0).present = true ∧
    (ptAt afterRun 1).present = true ∧ (0 : Index) ≠ 1 :=
  let ⟨h1, h2, h3, h4, h5⟩ := running_step
  ⟨h1, h2, h3, (isActive_iff.1 h4).1, (isActive_iff.1 h5).1, by decide⟩

/-- The second conjunct has a stream of one reference, which fits every CLK_W. -/
theorem witness_CountersAddUpToTheClock :
    (∃ t, UnitInv stepping ∧ step stepping = .next t ∧ t.runState = .ready) ∧
    ∃ s t, UnitInv s ∧ step s = .next t ∧ t.runState = .ready ∧ t.env.refCount = 1 ∧ 1 < 2 ^ Config.clkW :=
  let ⟨t, h1, h2⟩ := stepping_next
  ⟨⟨t, stepping_inv, h1, h2⟩, { ready 1 0 (streamEnv [0]) with input := [.word 0x04000009] }, _,
    inv_input _ (ready_inv _ (by decide)).1, rfl, rfl, rfl, by simp [Config.clkW]⟩

theorem witness_CorruptedStateErrorsAreNeverRaised :
    ∃ s t, UnitInv s ∧ s.runState ≠ .error ∧ step s = .next t ∧ t.runState = .error ∧ t.errCode = 1 :=
  ⟨{ hardReset State.reset with input := [.word 0x01000000] }, _, inv_input _ (inv_hardReset _), by decide, rfl, rfl, rfl⟩

theorem witness_SmallPoolsNeverMissSoftly :
    ∃ t, UnitInv scenario ∧ scenario.runState = .ready ∧ scenario.cfgFrames.toNat ≤ 16 ∧
      exec .step scenario = .next t ∧ t.runState = .ready := by
  obtain ⟨u, hu, he⟩ := scenario_xlate
  refine ⟨_, scenario_inv.1, rfl, by decide, he, ?_⟩
  simp [xlate_frame hu]
  rfl

theorem witness_FullPoolPoliciesAgree :
    ∃ s t, UnitInv s ∧ s.runState = .ready ∧ s.cfgFrames.toNat = 256 ∧ policyLru ≠ policyReserved ∧
      exec .step s = .next t ∧ t.runState = .ready ∧ t.clock = 1 := by
  have h := ready_inv (frames := 256) (policy := 0) (streamEnv [0]) (by decide)
  obtain ⟨u, hu⟩ := xlate_total (h.1.running h.2) ⟨by decide, fun a h => by cases h⟩ (by decide) (no_opt (by decide))
  refine ⟨_, respond u (recordOf u), h.1, h.2, rfl, by decide, ?_, ?_, ?_⟩
  · rw [show exec .step (ready 256 0 (streamEnv [0])) = .next (processReference (ready 256 0 (streamEnv [0]))) from rfl,
      processReference, hu]
  · simp [xlate_frame hu]
    rfl
  · simp [xlate_frame hu]
    rfl

theorem witness_SamePageTwiceHitsTheTlb :
    ∃ s t u, UnitInv s ∧ s.runState = .ready ∧ s.clock + 1 < s.refN ∧
      pageOf (addressOf (refWord s.env s.clock)) = pageOf (addressOf (refWord s.env (s.clock + 1))) ∧
      exec .step s = .next t ∧ t.runState = .ready ∧ exec .step t = .next u ∧ u.runState = .ready := by
  have h := ready_inv (frames := 1) (policy := 0) (streamEnv [300, 301]) (by decide)
  have hst : StoreReadable (ready 1 0 (streamEnv [300, 301])).env := ⟨by decide, fun a h => by cases h⟩
  obtain ⟨v, hv⟩ := xlate_total (h.1.running h.2) hst (by decide) (no_opt (by decide))
  have hf := xlate_frame hv
  have hr := running_respond (recordOf v) (running_xlate (h.1.running h.2) (by decide) hv)
  have hready : (respond v (recordOf v)).runState = .ready := by rw [respond_runState, hf.2.2.2.2.1]; exact h.2
  have hclock : (respond v (recordOf v)).clock = 1 := by rw [respond_clock, hf.2.2.1]; rfl
  have hrefN : (respond v (recordOf v)).refN = 2 := by rw [respond_refN, hf.2.2.2.1]; rfl
  have henv : (respond v (recordOf v)).env = streamEnv [300, 301] := by
    rw [respond_env, hf.2.2.2.2.2.2.2.1]; rfl
  have hpol : (respond v (recordOf v)).cfgPolicy = 0 := by rw [respond_cfgPolicy, hf.2.1]; rfl
  obtain ⟨w, hw⟩ := xlate_total hr (by rw [henv]; exact ⟨by decide, fun a h => by cases h⟩)
    (by rw [henv, hclock]; decide) (no_opt (by rw [hpol]; decide))
  refine ⟨_, respond v (recordOf v), respond w (recordOf w), h.1, h.2, by decide, by decide, ?_, hready, ?_, ?_⟩
  · rw [show exec .step (ready 1 0 (streamEnv [300, 301])) =
      .next (processReference (ready 1 0 (streamEnv [300, 301]))) from rfl, processReference, hv]
  · have : exec .step (respond v (recordOf v)) = .next (processReference (respond v (recordOf v))) := by
      simp only [exec, execStep, accept, hready, runAllowed, stepBody, hclock, hrefN]
      simp
    rw [this, processReference, hw]
  · rw [respond_runState, (xlate_frame hw).2.2.2.2.1]; exact hready

end Sys2Proof.Tests
end

section
/-! SUPPORT. What an instruction leaves of the launch environment, when a step stops, that every step keeps the invariant,
and the words of a response as numbers (R7, R8, R25, R73, R161, R176, R218, R219). -/

namespace Sys2Proof.Laws

open Sys2Proof.Machine

/-! ### When a step stops -/

/-- No instruction ends in a fault or a refusal. -/
theorem exec_next (i : Instr) (s : State) : ∃ t, exec i s = .next t := by
  cases i <;> exact ⟨_, rfl⟩

theorem step_fault_iff (s : State) (r : Fault) : step s = .fault r ↔ fetch s = .stop r := by
  unfold step
  cases fetch s with
  | instr i t =>
    obtain ⟨u, hu⟩ := exec_next i t
    simp [hu]
  | done t => simp
  | stop r' => simp
  | refuse r' => simp

theorem step_refused_iff (s : State) (r : Refusal) : step s = .refused r ↔ fetch s = .refuse r := by
  unfold step
  cases fetch s with
  | instr i t =>
    obtain ⟨u, hu⟩ := exec_next i t
    simp [hu]
  | done t => simp
  | stop r' => simp
  | refuse r' => simp

/-- A word on the command port never stops the machine: it is an instruction, refused in ERROR, or an error (R69, R174). -/
theorem takeCommand_ne_stop (w : Word) (s : State) (r : Fault) : takeCommand w s ≠ .stop r := by
  unfold takeCommand
  split
  · simp
  · split <;> simp

theorem takeCommand_ne_refuse (w : Word) (s : State) (r : Refusal) : takeCommand w s ≠ .refuse r := by
  unfold takeCommand
  split
  · simp
  · split <;> simp

/-- A word on the internal bus stops the machine exactly when it is no class U code (R64, log 17). -/
theorem takeMicro_stop_iff (w : Word) (s : State) (r : Fault) :
    takeMicro w s = .stop r ↔ (∃ e, decodeBus w = .error e) ∧ r = .badMicroWord w := by
  unfold takeMicro
  cases decodeBus w with
  | ok i => simp
  | error e => simp [eq_comm]

theorem takeMicro_ne_refuse (w : Word) (s : State) (r : Refusal) : takeMicro w s ≠ .refuse r := by
  unfold takeMicro
  split <;> simp

theorem takeEnv_ne_stop (env : Env) (s : State) (r : Fault) : takeEnv env s ≠ .stop r := by
  unfold takeEnv
  split_ifs <;> simp

/-- The three refusals of an attached environment, in the order the model tests them (logs 20, 9, 10). -/
theorem takeEnv_refuse_iff (env : Env) (s : State) (r : Refusal) :
    takeEnv env s = .refuse r ↔
      (s.launched = true ∧ r = .envChanged) ∨
      (s.launched = false ∧ env.refWords.length < env.refCount ∧ r = .countPastStream) ∨
      (s.launched = false ∧ env.refCount ≤ env.refWords.length ∧ 2 ^ Config.clkW ≤ env.refCount ∧
        r = .countTooWide) := by
  cases hl : s.launched with
  | true => simp [takeEnv, hl, eq_comm]
  | false =>
    by_cases hs : env.refCount ≤ env.refWords.length
    · by_cases hc : env.refCount < 2 ^ Config.clkW
      · simp [takeEnv, hl, streamHolds, countFits, hs, hc]
      · simp [takeEnv, hl, streamHolds, countFits, hs, hc, Nat.le_of_not_lt hc, eq_comm]
    · simp [takeEnv, hl, streamHolds, hs, Nat.lt_of_not_le hs, eq_comm]

/-- What the ports hold with the bus empty never faults. -/
theorem fetch_stop_iff (s : State) (r : Fault) :
    fetch s = .stop r ↔ ∃ w e, s.bus = some w ∧ decodeBus w = .error e ∧ r = .badMicroWord w := by
  unfold fetch
  cases hb : s.bus with
  | some w => simp [takeMicro_stop_iff]
  | none =>
    cases hi : s.input with
    | nil => simp
    | cons ev rest =>
      cases ev with
      | word w => simp [takeCommand_ne_stop]
      | rst => simp
      | rstDuring w n => simp
      | attach env => simp [takeEnv_ne_stop]

/-- Only an attached environment is refused, and only with the bus empty. -/
theorem fetch_refuse_iff (s : State) (r : Refusal) :
    fetch s = .refuse r ↔ s.bus = none ∧ ∃ env rest, s.input = .attach env :: rest ∧
      takeEnv env { s with input := rest } = .refuse r := by
  unfold fetch
  cases hb : s.bus with
  | some w => simp [takeMicro_ne_refuse]
  | none =>
    cases hi : s.input with
    | nil => simp
    | cons ev rest =>
      cases ev with
      | word w => simp [takeCommand_ne_refuse]
      | rst => simp
      | rstDuring w n => simp
      | attach env => simp

/-! ### The launch environment -/

theorem xlate_env {s t : State} (h : xlate s = .ok t) : t.env = s.env := by
  obtain ⟨-, -, -, -, -, -, -, henv, -⟩ := xlate_frame h
  exact henv

theorem accept_env {allowed : RunState → Bool} {s : State} {go : State → State} (hgo : (go s).env = s.env) :
    (accept allowed s go).env = s.env := by
  obtain ⟨-, h⟩ | ⟨-, -, h⟩ | ⟨-, -, h⟩ := accept_cases allowed s go <;> rw [h]
  · rfl
  · exact hgo
  · exact raise_env _ _

theorem settle_env {s : State} {r : Except ErrKind State} (hr : ∀ t, r = .ok t → t.env = s.env) :
    (settle s r).env = s.env := by
  obtain ⟨t, ht, h⟩ | ⟨e, -, h⟩ := settle_cases s r <;> rw [h]
  · exact hr t ht
  · exact raise_env _ _

theorem configure_env (f : BitVec 9) (p : BitVec 2) (s : State) : (configure f p s).env = s.env := by
  unfold configure
  split
  · rfl
  · exact raise_env _ _

theorem stepBody_env (s : State) : (stepBody s).env = s.env := by
  unfold stepBody processReference
  split
  · rfl
  · split
    · next t hx => rw [respond_env, xlate_env hx]
    · exact raise_env _ _

theorem runLoop_env (n : Nat) (s : State) : (runLoop n s).env = s.env := by
  induction n generalizing s with
  | zero => rfl
  | succ n ih =>
    rw [runLoop]
    split
    · split
      · next t hx => rw [ih, respond_env, xlate_env hx]
      · exact raise_env _ _
    · rfl

theorem readStatus_env (sel : BitVec 4) (s : State) : (readStatus sel s).env = s.env := by
  unfold readStatus
  split
  · rfl
  · exact raise_env _ _

theorem decodeReference_env {s t : State} (h : decodeReference s = .ok t) : t.env = s.env := by
  unfold decodeReference at h
  split at h
  · cases h
  · cases h; rfl

theorem bsRead_env {s t : State} (h : bsRead s = .ok t) : t.env = s.env := by
  obtain ⟨-, -, rfl⟩ := bsRead_ok h
  rfl

theorem faAlloc_env {s t : State} (h : faAlloc s = .ok t) : t.env = s.env := by
  obtain ⟨-, rfl⟩ | ⟨-, v, -, rfl⟩ := faAlloc_cases h <;> rfl

theorem rpSelect_env {s t : State} (h : rpSelect s = .ok t) : t.env = s.env := by
  obtain ⟨v, -, rfl⟩ := rpSelect_ok h
  rfl

theorem rpOpt_env {s t : State} (h : rpOpt s = .ok t) : t.env = s.env := by
  unfold rpOpt at h
  split at h
  · cases h; rfl
  · cases h

/-- No instruction writes the launch environment (R8, R25). -/
theorem exec_env {i : Instr} {s t : State} (h : exec i s = .next t) : t.env = s.env := by
  cases i <;> cases h
  case init f p => exact accept_env (configure_env f p s)
  case step => exact accept_env (stepBody_env s)
  case run => exact accept_env (runLoop_env _ s)
  case rdstat sel => exact accept_env (readStatus_env sel s)
  case decode => exact settle_env fun _ => decodeReference_env
  case bsRead => exact settle_env fun _ => bsRead_env
  case faAlloc => exact settle_env fun _ => faAlloc_env
  case rpSelect => exact settle_env fun _ => rpSelect_env
  case rpOpt => exact settle_env fun _ => rpOpt_env
  all_goals rfl

/-! ### The invariant is kept by every step -/

theorem inv_accept {allowed : RunState → Bool} {s : State} {go : State → State} (h : UnitInv s)
    (hgo : allowed s.runState = true → UnitInv (go s)) : UnitInv (accept allowed s go) := by
  obtain ⟨-, e⟩ | ⟨-, ha, e⟩ | ⟨-, -, e⟩ := accept_cases allowed s go <;> rw [e]
  · exact inv_respond _ h
  · exact hgo ha
  · exact inv_raise _ h

theorem initAllowed_iff (r : RunState) : initAllowed r = true ↔ r = .unconfigured := by
  cases r <;> decide

theorem runAllowed_iff (r : RunState) : runAllowed r = true ↔ r = .ready := by
  cases r <;> decide

/-- STEP keeps the invariant (R171). -/
theorem inv_stepBody {s : State} (h : UnitInv s) (hr : s.runState = .ready) : UnitInv (stepBody s) := by
  unfold stepBody processReference
  split
  · exact inv_respond _ h
  · next hne =>
    split
    · next t hx => exact inv_respond _ (inv_xlate h hr (Nat.lt_of_le_of_ne (h.running hr).clock hne) hx)
    · exact inv_raise _ h

/-- RDSTAT keeps the invariant (R173). -/
theorem inv_readStatus {s : State} (sel : BitVec 4) (h : UnitInv s) : UnitInv (readStatus sel s) := by
  unfold readStatus
  split
  · exact inv_respond _ h
  · exact inv_raise _ h

/-- Every host command keeps the invariant, whatever RUNSTATE it meets (R174). -/
theorem inv_exec {i : Instr} {s t : State} (hi : isHostCommand i = true) (h : UnitInv s) (he : exec i s = .next t) :
    UnitInv t := by
  cases i <;> cases he
  case init f p => exact inv_accept h fun ha => inv_configure f p h ((initAllowed_iff _).1 ha)
  case step => exact inv_accept h fun ha => inv_stepBody h ((runAllowed_iff _).1 ha)
  case run => exact inv_accept h fun ha => inv_runLoop _ s h ((runAllowed_iff _).1 ha)
  case rdstat sel => exact inv_accept h fun _ => inv_readStatus sel h
  all_goals cases hi

/-- Every step keeps the invariant: between commands the internal bus is empty, so a step takes an event at the ports. -/
theorem inv_step {s t : State} (h : UnitInv s) (hs : step s = .next t) : UnitInv t := by
  obtain ⟨w, i, hb, -⟩ | ⟨-, hport⟩ := step_cases hs
  · rw [h.quiet] at hb; cases hb
  · obtain ⟨-, rfl⟩ | ⟨w, rest, -, hw⟩ | ⟨rest, -, rfl⟩ | ⟨w, n, rest, -, rfl⟩ | ⟨env, rest, -, hl, -, -, rfl⟩ := hport
    · exact h
    · obtain ⟨-, rfl⟩ | ⟨-, i, hd, he⟩ | ⟨-, r, -, rfl⟩ := hw
      · exact inv_respond _ (inv_input rest h)
      · exact inv_exec (host_of_decodeHost hd) (inv_input rest h) he
      · exact inv_raise _ (inv_input rest h)
    · exact inv_hardReset _
    · exact inv_abandonCommand _ _ _
    · exact inv_attach env (inv_input rest h) hl

/-! ### The words of a response -/

/-- Two fields that do not overlap, read as a number. -/
theorem toNat_shiftLeft_or {x y : Word} {n : Nat} (hx : x.toNat * 2 ^ n < 2 ^ 32) (hy : y.toNat < 2 ^ n) :
    (x <<< n ||| y).toNat = x.toNat * 2 ^ n + y.toNat := by
  rw [BitVec.toNat_or, BitVec.toNat_shiftLeft, Nat.shiftLeft_eq, Nat.mod_eq_of_lt hx, ← Nat.shiftLeft_eq,
    Nat.shiftLeft_add_eq_or_of_lt hy]

/-- Four fields that do not overlap, read as a number: each bound says that what stands below a field ends below it. -/
theorem toNat_or_fields {a b c d : Word} {i j k : Nat} (hi : i ≤ 32) (hj : j ≤ i) (hd : d.toNat < 2 ^ k)
    (hc : c.toNat * 2 ^ k + d.toNat < 2 ^ j) (hb : b.toNat * 2 ^ j + (c.toNat * 2 ^ k + d.toNat) < 2 ^ i)
    (ha : a.toNat * 2 ^ i < 2 ^ 32) :
    (a <<< i ||| b <<< j ||| c <<< k ||| d).toNat =
      a.toNat * 2 ^ i + (b.toNat * 2 ^ j + (c.toNat * 2 ^ k + d.toNat)) := by
  have h32 : 2 ^ i ≤ 2 ^ 32 := Nat.pow_le_pow_right (by decide) hi
  have hji : 2 ^ j ≤ 2 ^ i := Nat.pow_le_pow_right (by decide) hj
  have hcd : (c <<< k ||| d).toNat = c.toNat * 2 ^ k + d.toNat := toNat_shiftLeft_or (by omega) hd
  have hbcd : (b <<< j ||| (c <<< k ||| d)).toNat = b.toNat * 2 ^ j + (c.toNat * 2 ^ k + d.toNat) := by
    rw [toNat_shiftLeft_or (by omega) (hcd ▸ hc), hcd]
  rw [BitVec.or_assoc, BitVec.or_assoc, toNat_shiftLeft_or ha (hbcd ▸ hb), hbcd]

/-- The header word as a number: ADDR, FRAME, ERR and STATUS at bits 16, 8, 2 and 0 (R73). -/
theorem headerWord_eq (addr : BitVec 16) (frame : Index) (err : BitVec 3) (status : BitVec 2) :
    headerWord addr frame err status =
      BitVec.ofNat 32 (addr.toNat * 65536 + frame.toNat * 256 + err.toNat * 4 + status.toNat) := by
  have ha := addr.isLt
  have hf := frame.isLt
  have he := err.isLt
  have hs := status.isLt
  apply BitVec.eq_of_toNat_eq
  rw [headerWord, toNat_or_fields] <;> simp <;> omega

/-- The SBYTE word as a number (R73). -/
theorem sbyteWord_eq (sb : BitVec 9) : sbyteWord sb = BitVec.ofNat 32 sb.toNat :=
  BitVec.eq_of_toNat_eq (by simp [sbyteWord])

/-- A data word as a number: byte 4k in the lowest bits (R176). -/
theorem dataWord_eq (data : Block) (k : Fin 64) :
    dataWord data k = BitVec.ofNat 32 (data[4 * k.val].toNat + data[4 * k.val + 1].toNat * 2 ^ 8 +
      data[4 * k.val + 2].toNat * 2 ^ 16 + data[4 * k.val + 3].toNat * 2 ^ 24) := by
  rw [dataWord]
  generalize data[4 * k.val] = b0, data[4 * k.val + 1] = b1, data[4 * k.val + 2] = b2, data[4 * k.val + 3] = b3
  have h0 := b0.isLt
  have h1 := b1.isLt
  have h2 := b2.isLt
  have h3 := b3.isLt
  apply BitVec.eq_of_toNat_eq
  rw [toNat_or_fields] <;> simp <;> omega

/-- A value word that lies below bit `width` is the value's own 32 bits, low word first (R176). -/
theorem valueWordAt_full {width v k : Nat} (hv : v < 2 ^ width) (hk : 32 * (k + 1) ≤ width) :
    valueWordAt width v k = BitVec.ofNat 32 (v / 2 ^ (32 * k)) := by
  simp [valueWordAt, valueField, hv, hk]

/-- The last word of a value holds the value's top bits below bit `width`, whatever stands above it (log 10). -/
theorem valueWordAt_last {width v k : Nat} (hv : v < 2 ^ width) (hk : 32 * k ≤ width) (hl : width < 32 * (k + 1)) :
    (valueWordAt width v k).toNat % 2 ^ (width - 32 * k) = v / 2 ^ (32 * k) := by
  have hdvd : 2 ^ (width - 32 * k) ∣ 2 ^ 32 := Nat.pow_dvd_pow 2 (by omega)
  have hlt : v / 2 ^ (32 * k) < 2 ^ (width - 32 * k) := by
    rw [Nat.div_lt_iff_lt_mul (Nat.two_pow_pos _), ← Nat.pow_add, Nat.sub_add_cancel hk]
    exact hv
  rw [valueWordAt, if_neg (Nat.not_le.2 hl), valueField, if_pos hv, BitVec.toNat_ofNat, Nat.mod_mod_of_dvd _ hdvd,
    Nat.add_mul_mod_self_left, Nat.mod_eq_of_lt hlt]

/-- The value word is as many port words as `width` bits need. -/
@[simp] theorem valueWordsAt_length (width v : Nat) : (valueWordsAt width v).length = (width + 31) / 32 := by
  simp [valueWordsAt]

theorem valueWordsAt_getElem? {width v k : Nat} (hk : k < (width + 31) / 32) :
    (valueWordsAt width v)[k]? = some (valueWordAt width v k) := by
  simp [valueWordsAt, hk]

/-- `rsp_last` marks the last word and no other (R176). -/
theorem withLast_concat (ws : List Word) (w : Word) :
    withLast (ws ++ [w]) = ws.map (fun v => (v, false)) ++ [(w, true)] := by
  induction ws with
  | nil => rfl
  | cons v ws ih =>
    cases ws with
    | nil => rfl
    | cons u ws => simpa [withLast] using ih

/-- Every response has a header word. -/
theorem responseWords_ne_nil (r : Response) : responseWords r ≠ [] := by
  cases r <;> simp [responseWords]

end Sys2Proof.Laws
end

section
/-! The statements of spec/00_scope.md: the ends of a step, the launch environment, the counters and the response words. -/

namespace Sys2Proof.Proofs

open Sys2Proof.Machine Sys2Proof.Laws

/-- Settles O6: the stops are those of `fetch`, since no instruction ends in one. -/
theorem stepStopsOnlyOnBadBusWordOrChangedEnvironment :
    Obligations.StepStopsOnlyOnBadBusWordOrChangedEnvironment := by
  refine ⟨fun s hb hi => ?_, fun s r => ?_, fun s r => ?_⟩
  · simp only [step, fetch, hb, hi]
  · rw [step_fault_iff, fetch_stop_iff]
  · simp only [step_refused_iff, fetch_refuse_iff, takeEnv_refuse_iff]

/-- Settles O45, by the ways a step reaches a next state: no instruction, error entry or reset writes the environment. -/
theorem environmentIsNeverWritten : Obligations.EnvironmentIsNeverWritten := by
  intro s t h
  obtain ⟨w, i, -, -, he⟩ | ⟨hb, hport⟩ := step_cases h
  · left; exact (exec_env he :)
  · obtain ⟨-, rfl⟩ | ⟨w, rest, -, hw⟩ | ⟨rest, -, rfl⟩ | ⟨w, n, rest, -, rfl⟩ | ⟨env, rest, hi, hl, hs, hc, rfl⟩ := hport
    · exact .inl rfl
    · left
      obtain ⟨-, rfl⟩ | ⟨-, i, -, he⟩ | ⟨-, r, -, rfl⟩ := hw
      · rfl
      · exact (exec_env he :)
      · exact raise_env _ _
    · exact .inl rfl
    · obtain ⟨-, henv, -⟩ := abandonCommand_reset w n { s with input := rest }
      exact .inl henv
    · exact .inr ⟨hb, hl, of_decide_eq_true hs, of_decide_eq_true hc, rest, hi⟩

/-- Settles O55: the step keeps the invariant, whose clauses in READY are these, with REF_N the N that INIT sampled. -/
theorem countersAddUpToTheClock : Obligations.CountersAddUpToTheClock := by
  intro s t h hs hr
  have run := (inv_step h hs).running hr
  refine ⟨run.counted, run.faults, run.clock, fun hN => ?_⟩
  rw [run.refN]
  exact hN

/-- Settles O60, response by response: the layout of each word as a number, then `rsp_last`. -/
theorem responseWordsFollowTheLayout : Obligations.ResponseWordsFollowTheLayout := by
  refine ⟨rfl, rfl, fun e => ?error, fun v => ?value, fun addr sb f data => ?record, fun r => ?last⟩
  case error => simp [responseWords, headerWord_eq, statusError]
  case value =>
    refine ⟨valueWords v, rfl, valueWordsAt_length _ v, fun hv k hk => ?_⟩
    have hk : k < (Config.clkW + 31) / 32 := by rwa [valueWords, valueWordsAt_length] at hk
    refine ⟨valueWordAt Config.clkW v k, valueWordsAt_getElem? hk, ?_⟩
    split
    · next hfull => exact valueWordAt_full hv hfull
    · exact valueWordAt_last hv (by omega) (by omega)
  case record =>
    refine ⟨(List.finRange 64).map (dataWord data), ?_, by simp, fun k hk => ?_⟩
    · simp [responseWords, headerWord_eq, sbyteWord_eq, statusOk]
    · simp [hk, dataWord_eq]
  case last =>
    have hw := List.dropLast_append_getLast (responseWords_ne_nil r)
    refine ⟨(responseWords r).dropLast, (responseWords r).getLast (responseWords_ne_nil r), ?_, hw.symm⟩
    rw [responseBeats, ← withLast_concat, hw]

end Sys2Proof.Proofs
end

section
/-! SUPPORT. What an instruction and a step do to the form of the state, to RUNSTATE and to ERR_CODE, and what they send
(R13, R14, R17, R21, R33, R172, R174, R196, R197, R215). -/

namespace Sys2Proof.Laws

open Sys2Proof.Machine

/-! ### The form of the state -/

/-- An operation that leaves the frame memory and does not lengthen the TLB beyond its capacity keeps the form. -/
theorem form_of_frame {s t : State} (h : Form s) (hf : t.frame = s.frame) (ht : t.tlb.length ≤ tlbCapacity) : Form t :=
  ⟨by rw [hf]; exact h.memory, ht⟩

/-- An operation that writes neither the frame memory nor the TLB keeps the form. -/
theorem form_congr {s t : State} (h : Form s) (hf : t.frame = s.frame) (ht : t.tlb = s.tlb) : Form t :=
  form_of_frame h hf (by rw [ht]; exact h.capacity)

theorem form_accept {allowed : RunState → Bool} {s : State} {go : State → State} (h : Form s) (hgo : Form (go s)) :
    Form (accept allowed s go) := by
  obtain ⟨-, e⟩ | ⟨-, -, e⟩ | ⟨-, -, e⟩ := accept_cases allowed s go <;> rw [e]
  · exact form_respond _ h
  · exact hgo
  · exact form_raise _ h

theorem form_settle {s : State} {r : Except ErrKind State} (h : Form s) (hr : ∀ t, r = .ok t → Form t) :
    Form (settle s r) := by
  obtain ⟨t, ht, e⟩ | ⟨k, -, e⟩ := settle_cases s r <;> rw [e]
  · exact hr t ht
  · exact form_raise k h

theorem form_configure {s : State} (f : BitVec 9) (p : BitVec 2) (h : Form s) : Form (configure f p s) := by
  unfold configure
  split
  · exact form_congr h rfl rfl
  · exact form_raise _ h

theorem form_stepBody {s : State} (h : Form s) : Form (stepBody s) := by
  unfold stepBody processReference
  split
  · exact form_respond _ h
  · split
    · next t hx => exact form_respond _ (form_xlate h hx)
    · exact form_raise _ h

theorem form_runLoop (n : Nat) {s : State} (h : Form s) : Form (runLoop n s) := by
  induction n generalizing s with
  | zero => exact form_respond _ h
  | succ n ih =>
    rw [runLoop]
    split
    · split
      · next t hx => exact ih (form_respond _ (form_xlate h hx))
      · exact form_raise _ h
    · exact form_respond _ h

theorem form_readStatus {s : State} (sel : BitVec 4) (h : Form s) : Form (readStatus sel s) := by
  unfold readStatus
  split
  · exact form_respond _ h
  · exact form_raise _ h

theorem form_tlbInval {s : State} (h : Form s) : Form (tlbInval s) :=
  form_of_frame h rfl (Nat.le_trans (tlbRemove_sublist _ _).length_le h.capacity)

/-- RP.OPT writes VICT and nothing but the model's counter for free values beside it (R133, log 8). -/
theorem rpOpt_ok {s t : State} (h : rpOpt s = .ok t) : ∃ c, t = setVictim s c := by
  unfold rpOpt at h
  split at h
  · exact ⟨_, (Except.ok.inj h).symm⟩
  · cases h

/-- Every instruction keeps the form of the state: only FR.FILL writes the frame memory and only the three TLB operations,
FA.ALLOC's purge among them, write the TLB. -/
theorem form_exec {i : Instr} {s t : State} (h : Form s) (he : exec i s = .next t) : Form t := by
  cases i <;> cases he
  case init f p => exact form_accept h (form_configure f p h)
  case step => exact form_accept h (form_stepBody h)
  case run => exact form_accept h (form_runLoop _ h)
  case rdstat sel => exact form_accept h (form_readStatus sel h)
  case decode =>
    refine form_settle h fun t ht => ?_
    obtain ⟨-, rfl⟩ := decodeReference_ok ht
    exact form_congr h rfl rfl
  case tlbLookup => exact form_of_frame h rfl (by rw [tlbLookup_tlb, tlbTouch_length]; exact h.capacity)
  case tlbInsert => exact form_of_frame h rfl (tlbAdd_length h.capacity)
  case tlbInval => exact form_tlbInval h
  case bsRead =>
    refine form_settle h fun t ht => ?_
    obtain ⟨-, -, rfl⟩ := bsRead_ok ht
    exact form_congr h rfl rfl
  case faAlloc =>
    refine form_settle h fun t ht => ?_
    obtain ⟨-, rfl⟩ | ⟨-, v, -, rfl⟩ := faAlloc_cases ht
    · exact form_congr h rfl rfl
    · exact form_tlbInval (form_congr h rfl rfl)
  case rpSelect =>
    refine form_settle h fun t ht => ?_
    obtain ⟨v, -, rfl⟩ := rpSelect_ok ht
    exact form_congr h rfl rfl
  case rpOpt =>
    refine form_settle h fun t ht => ?_
    obtain ⟨c, rfl⟩ := rpOpt_ok ht
    exact form_congr h rfl rfl
  case frFill => exact ⟨wf_writeFrame _ _ h.memory, h.capacity⟩
  all_goals exact form_congr h rfl rfl

/-! ### RUNSTATE and ERR_CODE -/

/-- The registers right after reset are those hardware reset gives (R33). -/
theorem fresh_reset : Fresh State.reset := by
  obtain ⟨hframes, hpolicy, hrefN, hclock, htlb, habsent, hnext, hhits, hmisses, hfaults⟩ :=
    (atReset_hardReset State.reset).registers
  exact ⟨hframes, hpolicy, hrefN, hclock, htlb, habsent, hnext, hhits, hmisses, hfaults⟩

/-- RUNSTATE and ERR_CODE stay, or an error was raised outside ERROR and ERR_CODE is its code (R13, R14). -/
def ModeKeptOrRaised (s t : State) : Prop :=
  (t.runState = s.runState ∧ t.errCode = s.errCode) ∨
  (s.runState ≠ .error ∧ t.runState = .error ∧ ∃ e, t.errCode = errorCode e)

/-- A legal INIT took the unit from UNCONFIGURED to READY (R13, R170). -/
def Configured (i : Instr) (s t : State) : Prop :=
  s.runState = .unconfigured ∧ t.runState = .ready ∧ ∃ f p, i = .init f p ∧ configLegal f p = true

theorem mode_raise (e : ErrKind) (s : State) : ModeKeptOrRaised s (raise e s) := by
  by_cases hs : s.runState = .error
  · left; exact ⟨by rw [raise_runState, hs], by rw [raise_errCode, if_pos hs]⟩
  · right; exact ⟨hs, raise_runState e s, e, by rw [raise_errCode, if_neg hs]⟩

theorem mode_accept {allowed : RunState → Bool} {s : State} {go : State → State}
    (hgo : ModeKeptOrRaised s (go s)) : ModeKeptOrRaised s (accept allowed s go) := by
  obtain ⟨-, e⟩ | ⟨-, -, e⟩ | ⟨-, -, e⟩ := accept_cases allowed s go <;> rw [e]
  · exact .inl ⟨rfl, rfl⟩
  · exact hgo
  · exact mode_raise _ _

theorem mode_settle {s : State} {r : Except ErrKind State}
    (hr : ∀ t, r = .ok t → t.runState = s.runState ∧ t.errCode = s.errCode) : ModeKeptOrRaised s (settle s r) := by
  obtain ⟨t, ht, e⟩ | ⟨k, -, e⟩ := settle_cases s r <;> rw [e]
  · exact .inl (hr t ht)
  · exact mode_raise k s

theorem xlate_mode {s t : State} (h : xlate s = .ok t) : t.runState = s.runState ∧ t.errCode = s.errCode := by
  obtain ⟨-, -, -, -, hr, he, -⟩ := xlate_frame h
  exact ⟨hr, he⟩

theorem mode_stepBody (s : State) : ModeKeptOrRaised s (stepBody s) := by
  unfold stepBody processReference
  split
  · exact .inl ⟨rfl, rfl⟩
  · split
    · next t hx =>
      obtain ⟨hr, he⟩ := xlate_mode hx
      exact .inl ⟨hr, he⟩
    · exact mode_raise _ _

theorem mode_runLoop (n : Nat) (s : State) : ModeKeptOrRaised s (runLoop n s) := by
  induction n generalizing s with
  | zero => exact .inl ⟨rfl, rfl⟩
  | succ n ih =>
    rw [runLoop]
    split
    · split
      · next t hx =>
        obtain ⟨hr, he⟩ := xlate_mode hx
        have := ih (respond t (recordOf t))
        rwa [ModeKeptOrRaised, respond_runState, respond_errCode, hr, he] at this
      · exact mode_raise _ _
    · exact .inl ⟨rfl, rfl⟩

theorem mode_readStatus (sel : BitVec 4) (s : State) : ModeKeptOrRaised s (readStatus sel s) := by
  unfold readStatus
  split
  · exact .inl ⟨rfl, rfl⟩
  · exact mode_raise _ _

theorem mode_configure (f : BitVec 9) (p : BitVec 2) (s : State) :
    ModeKeptOrRaised s (configure f p s) ∨ ((configure f p s).runState = .ready ∧ configLegal f p = true) := by
  unfold configure
  split
  · next hc => exact .inr ⟨rfl, hc⟩
  · exact .inl (mode_raise _ _)

/-- Everything an instruction can do to RUNSTATE and ERR_CODE. -/
theorem exec_mode {i : Instr} {s t : State} (he : exec i s = .next t) : ModeKeptOrRaised s t ∨ Configured i s t := by
  cases i <;> cases he
  case init f p =>
    obtain ⟨-, e⟩ | ⟨-, ha, e⟩ | ⟨-, -, e⟩ := accept_cases initAllowed s (configure f p) <;> rw [e]
    · exact .inl (.inl ⟨rfl, rfl⟩)
    · exact (mode_configure f p s).imp_right fun ⟨hr, hc⟩ => ⟨(initAllowed_iff _).1 ha, hr, f, p, rfl, hc⟩
    · exact .inl (mode_raise _ _)
  all_goals left
  case step => exact mode_accept (mode_stepBody s)
  case run => exact mode_accept (mode_runLoop _ s)
  case rdstat sel => exact mode_accept (mode_readStatus sel s)
  case decode =>
    refine mode_settle fun t ht => ?_
    obtain ⟨-, rfl⟩ := decodeReference_ok ht
    exact ⟨rfl, rfl⟩
  case bsRead =>
    refine mode_settle fun t ht => ?_
    obtain ⟨-, -, rfl⟩ := bsRead_ok ht
    exact ⟨rfl, rfl⟩
  case faAlloc =>
    refine mode_settle fun t ht => ?_
    obtain ⟨-, rfl⟩ | ⟨-, v, -, rfl⟩ := faAlloc_cases ht <;> exact ⟨rfl, rfl⟩
  case rpSelect =>
    refine mode_settle fun t ht => ?_
    obtain ⟨v, -, rfl⟩ := rpSelect_ok ht
    exact ⟨rfl, rfl⟩
  case rpOpt =>
    refine mode_settle fun t ht => ?_
    obtain ⟨c, rfl⟩ := rpOpt_ok ht
    exact ⟨rfl, rfl⟩
  all_goals exact .inl ⟨rfl, rfl⟩

/-- The internal bus carries no host command (R64). -/
theorem micro_of_decodeBus {w : Word} {i : Instr} (h : decodeBus w = .ok i) : isHostCommand i = false := by
  unfold decodeBus at h
  split at h
  · split at h
    · cases h
    · next hi => cases h; simpa using hi
  · cases h

/-- Everything a step can do to RUNSTATE and ERR_CODE: keep them, raise an error, configure the unit, or reset it. -/
theorem step_mode {s t : State} (h : step s = .next t) :
    ModeKeptOrRaised s t ∨
    (s.bus = none ∧ ∃ w rest i, s.input = .word w :: rest ∧ decodeHost w = .ok i ∧ Configured i s t) ∨
    (t.runState = .unconfigured ∧ ResetNext s) := by
  obtain ⟨w, i, -, hd, he⟩ | ⟨hb, hport⟩ := step_cases h
  · obtain hm | ⟨-, -, f, p, rfl, -⟩ := exec_mode he
    · exact .inl hm
    · cases micro_of_decodeBus hd
  · obtain ⟨-, rfl⟩ | ⟨w, rest, hi, hw⟩ | ⟨rest, hi, rfl⟩ | ⟨w, n, rest, hi, rfl⟩ | ⟨env, rest, -, -, -, -, rfl⟩ := hport
    · exact .inl (.inl ⟨rfl, rfl⟩)
    · obtain ⟨-, rfl⟩ | ⟨-, i, hd, he⟩ | ⟨-, r, -, rfl⟩ := hw
      · exact .inl (.inl ⟨rfl, rfl⟩)
      · exact (exec_mode he).imp_right fun hc => .inl ⟨hb, w, rest, i, hi, hd, hc⟩
      · exact .inl (mode_raise _ { s with input := rest })
    · exact .inr (.inr ⟨rfl, hb, .inl ⟨rest, hi⟩⟩)
    · obtain ⟨hreset, -⟩ := abandonCommand_reset w n { s with input := rest }
      exact .inr (.inr ⟨hreset.runState, hb, .inr ⟨w, n, rest, hi⟩⟩)
    · exact .inl (.inl ⟨rfl, rfl⟩)

/-! ### The one response of a command -/

theorem accept_out {allowed : RunState → Bool} {s : State} {go : State → State}
    (hgo : allowed s.runState = true → ∃ r, (go s).out = s.out ++ [r]) :
    ∃ r, (accept allowed s go).out = s.out ++ [r] := by
  obtain ⟨-, e⟩ | ⟨-, ha, e⟩ | ⟨-, -, e⟩ := accept_cases allowed s go <;> rw [e]
  · exact ⟨_, rfl⟩
  · exact hgo ha
  · exact raise_out _ _

theorem configure_out (f : BitVec 9) (p : BitVec 2) (s : State) : ∃ r, (configure f p s).out = s.out ++ [r] := by
  unfold configure
  split
  · exact ⟨_, rfl⟩
  · exact raise_out _ _

theorem xlate_out {s t : State} (h : xlate s = .ok t) : t.out = s.out := by
  obtain ⟨-, -, -, -, -, -, -, -, -, hout, -⟩ := xlate_frame h
  exact hout

theorem stepBody_out (s : State) : ∃ r, (stepBody s).out = s.out ++ [r] := by
  unfold stepBody processReference
  split
  · exact ⟨_, rfl⟩
  · split
    · next t hx => exact ⟨recordOf t, by rw [respond_out, xlate_out hx]⟩
    · exact raise_out _ _

theorem readStatus_out (sel : BitVec 4) (s : State) : ∃ r, (readStatus sel s).out = s.out ++ [r] := by
  unfold readStatus
  split
  · exact ⟨_, rfl⟩
  · exact raise_out _ _

/-- Every host command but a RUN accepted in READY sends one response and nothing else (R73, R172). -/
theorem exec_out {i : Instr} {s t : State} (hi : isHostCommand i = true) (hrun : ¬ (i = .run ∧ s.runState = .ready))
    (he : exec i s = .next t) : ∃ r, t.out = s.out ++ [r] := by
  cases i <;> cases he
  case init f p => exact accept_out fun _ => configure_out f p s
  case step => exact accept_out fun _ => stepBody_out s
  case run => exact accept_out fun ha => absurd ⟨rfl, (runAllowed_iff _).1 ha⟩ hrun
  case rdstat sel => exact accept_out fun _ => readStatus_out sel s
  all_goals cases hi

/-- A hardware reset between two commands is one step (R215). -/
theorem step_rst {s : State} {rest : List PortEvent} (hb : s.bus = none) (hi : s.input = .rst :: rest) :
    step s = .next (hardReset { s with input := rest }) := by
  cases s; cases hb; cases hi; rfl

/-- A hardware reset in the middle of a command is one step (R215, log 19). -/
theorem step_rstDuring {s : State} {w : Word} {n : Nat} {rest : List PortEvent} (hb : s.bus = none)
    (hi : s.input = .rstDuring w n :: rest) : step s = .next (abandonCommand w n { s with input := rest }) := by
  cases s; cases hb; cases hi; rfl

/-- A host word on the port is always taken: a step with it reaches a next state (R174). -/
theorem step_word_next {s : State} {w : Word} {rest : List PortEvent} (hb : s.bus = none)
    (hi : s.input = .word w :: rest) : ∃ u, step s = .next u := by
  cases h : step s with
  | next u => exact ⟨u, rfl⟩
  | fault r =>
    obtain ⟨v, -, hv, -⟩ := (fetch_stop_iff s r).1 ((step_fault_iff s r).1 h)
    rw [hb] at hv
    cases hv
  | refused r =>
    obtain ⟨-, env, rest', hv, -⟩ := (fetch_refuse_iff s r).1 ((step_refused_iff s r).1 h)
    rw [hi] at hv
    cases hv

/-- Every way a host word ends: refused in ERROR, performed, or illegal (R174). -/
theorem step_word_cases {s t : State} {w : Word} {rest : List PortEvent} (hb : s.bus = none)
    (hi : s.input = .word w :: rest) (h : step s = .next t) :
    (s.runState = .error ∧ t = refuse { s with input := rest }) ∨
    (s.runState ≠ .error ∧ ∃ i, decodeHost w = .ok i ∧ exec i { s with input := rest } = .next t) ∨
    (s.runState ≠ .error ∧ ∃ r, decodeHost w = .error r ∧ t = raise .command { s with input := rest }) := by
  simpa [hb, hi] using step_cases h

/-- Of what was sent before the last response, what is there after `n` records. -/
theorem take_dropLast_response (sent rs : List Response) (r : Response) (n : Nat) :
    (sent ++ rs ++ [r]).dropLast.take (sent.length + n) = sent ++ rs.take n := by
  rw [List.dropLast_concat, List.take_length_add_append]

/-- A reset in the middle of a command lets through the first records of what the command would have sent, and never its
response (R172, R215). -/
theorem abandonCommand_out {s u : State} {w : Word} {rest : List PortEvent} (n : Nat) (hb : s.bus = none)
    (hi : s.input = .word w :: rest) (hu : step s = .next u) :
    (abandonCommand w n { s with input := rest }).out = u.out.dropLast.take (s.out.length + n) := by
  have hcases := step_word_cases hb hi hu
  unfold abandonCommand
  rw [hardReset_out]
  split
  · next hrun =>
    obtain ⟨hd, hr : s.runState = .ready⟩ := hrun
    obtain ⟨rs, r, hout, hcut⟩ := runLoop_out _ { s with input := rest } rfl
    have hu : u = runBody { s with input := rest } := by
      simpa [hd, hr, exec, execRun, accept, runAllowed, eq_comm] using hcases
    rw [hu, runBody, hout, hcut]
    exact (take_dropLast_response s.out rs r n).symm
  · next hrun =>
    have hone : ∃ r, u.out = s.out ++ [r] := by
      obtain ⟨-, rfl⟩ | ⟨-, i, hd, he⟩ | ⟨-, r, -, rfl⟩ := hcases
      · exact ⟨_, rfl⟩
      · exact (exec_out (host_of_decodeHost hd) (fun ⟨hi, hr⟩ => hrun ⟨hi ▸ hd, hr⟩) he :)
      · exact raise_out _ { s with input := rest }
    obtain ⟨r, hr⟩ := hone
    simp [hr]

end Sys2Proof.Laws
end

section
/-! SUPPORT. What one reference does to each page-table entry, to the frame memory and to the record, what RUN makes of it,
and the number of active pages (R15, R26 to R31, R159, R171, R172). -/

namespace Sys2Proof.Laws

open Sys2Proof.Machine

/-! ### Accepted in READY -/

theorem exec_step_of_ready {s : State} (hr : s.runState = .ready) : exec .step s = .next (stepBody s) := by
  simp [exec, execStep, accept, runAllowed, hr]

theorem exec_run_of_ready {s : State} (hr : s.runState = .ready) : exec .run s = .next (runBody s) := by
  simp [exec, execRun, accept, runAllowed, hr]

/-- STEP with a reference left answers its record when XLATE raises nothing (R171). -/
theorem exec_step_of_xlate {s u : State} (hr : s.runState = .ready) (lt : s.clock < s.refN) (hx : xlate s = .ok u) :
    exec .step s = .next (respond u (recordOf u)) := by
  rw [exec_step_of_ready hr, stepBody, if_neg (Nat.ne_of_lt lt), processReference, hx]

/-! ### One reference -/

/-- FA.ALLOC does nothing to a page-table entry but evict (R121, R122). -/
theorem faAlloc_ptAt {s t : State} (h : faAlloc s = .ok t) (q : Index) :
    ptAt t q = ptAt s q ∨ ptAt t q = { ptAt s q with active := false } := by
  obtain ⟨-, rfl⟩ | ⟨-, v, -, rfl⟩ := faAlloc_cases h
  · exact .inl rfl
  · rw [allocEvict_ptAt]
    split
    · next hv => right; rw [hv]; rfl
    · exact .inl rfl

/-- Everything one reference can do to a page-table entry: nothing, a new LAST_REF, an eviction, or, to a page that is not
active, a load into frame F (R101 to R103, R159). -/
theorem xlate_ptAt {s t : State} (h : xlate s = .ok t) (q : Index) :
    ptAt t q = ptAt s q ∨ ptAt t q = { ptAt s q with lastRef := s.clock } ∨
    ptAt t q = { ptAt s q with active := false } ∨
    (isActive s q = false ∧
      ptAt t q = { present := true, active := true, frame := t.f, loadTime := s.clock, lastRef := s.clock }) := by
  obtain ⟨-, ⟨e, -, rfl⟩ | ⟨-, -, rfl⟩ | ⟨he, ha, -, -, u, hu, rfl⟩⟩ := xlate_cases h
  · by_cases hq : q = (decoded s).p
    · right; left; simp [-decoded_p, hq]
    · left; simp [-decoded_p, hq]
  · rw [clkAdv_ptAt, frXbyte_ptAt, tlbInsert_ptAt, ptRechit_ptAt]
    split
    · next hq => right; left; rw [hq]; rfl
    · left; rfl
  · obtain ⟨-, -, hclock, -, -, -, -, -, hp, -⟩ := faAlloc_frame hu
    have hpath := faultPath s he
    have hq := faAlloc_ptAt hu q
    rw [hpath.ptAt] at hq
    rw [hpath.p] at hp
    rw [hpath.clock] at hclock
    rw [clkAdv_ptAt, frXbyte_ptAt, tlbInsert_ptAt, ptRecfault_ptAt, frFill_p, frFill_ptAt, frFill_f, frFill_clock, hp,
      hclock]
    split
    · next heq => exact .inr (.inr (.inr ⟨heq ▸ ha, rfl⟩))
    · exact hq.imp_right fun h => .inr (.inl h)

/-- One reference writes no byte of the frame memory outside frame F (R124, R159). -/
theorem xlate_memory {s t : State} (h : xlate s = .ok t) {a : Nat} (ha : a < addrOf t.f 0 ∨ addrOf t.f 256 ≤ a) :
    memRead t.frame a = memRead s.frame a := by
  obtain ⟨-, ⟨e, -, rfl⟩ | ⟨-, -, rfl⟩ | ⟨he, -, -, -, u, hu, rfl⟩⟩ := xlate_cases h
  · simp
  · simp
  · obtain ⟨-, -, -, -, -, -, -, -, -, -, -, -, -, hframe, -⟩ := faAlloc_frame hu
    rw [(faultPath s he).frame] at hframe
    have ha : a < addrOf u.f 0 ∨ addrOf u.f 256 ≤ a := by simpa using ha
    have hout : ¬ (addrOf u.f 0 ≤ a ∧ a < addrOf u.f 256) := by omega
    rw [clkAdv_frame, frXbyte_frame, tlbInsert_frame, ptRecfault_frame, frFill, memRead_writeFrame, dif_neg hout, hframe]

/-- A frame handed out is below CFG_FRAMES (R26, R30). -/
theorem frame_lt_cfgFrames {s : State} {q : Index} (h : Running s) (hq : isActive s q = true) :
    (ptAt s q).frame.toNat < s.cfgFrames.toNat := by
  have := h.owned q hq
  have := h.bumped
  omega

/-- A frame below the n-th ends below the n-th's first address. -/
theorem addrOf_end_le {f : Index} {n : Nat} (h : f.toNat < n) : addrOf f 256 ≤ n * 256 := by
  unfold addrOf
  omega

/-- What is read of an active page's frame is the page's byte of the backing store (R31). -/
theorem frameByte_of_active {s : State} {q : Index} (h : Running s) (hq : isActive s q = true) {o : Nat} (ho : o < 256) :
    frameByte s (addrOf (ptAt s q).frame o) = storeByte s.env (addrOf q o) := by
  rw [frameByte, h.content q hq o ho]

/-- An active page's frame read whole is the page's block of the backing store (R31). -/
theorem frameBlock_of_active {s : State} {q : Index} (h : Running s) (hq : isActive s q = true) :
    frameBlock s (ptAt s q).frame = blockOf fun k => storeByte s.env (addrOf q k) := by
  apply Vector.ext
  intro k hk
  rw [frameBlock, blockOf_get _ k hk, blockOf_get _ k hk, frameByte_of_active h hq hk]

/-- The record XLATE leaves is that of the reference, whatever frame it was given (R73, R31). -/
theorem xlate_record {s t : State} (h : Running s) (lt : s.clock < s.refN) (hx : xlate s = .ok t) :
    recordOf t = recordFor s.env s.clock t.f := by
  have run := running_xlate h lt hx
  obtain ⟨hact, hframe, hoff, hsb, -⟩ := xlate_resolved h hx
  obtain ⟨-, -, -, -, -, -, -, henv, -, -, -, hla, hp, -⟩ := xlate_frame hx
  have hbyte := frameByte_of_active run hact t.off.isLt
  have hblock := frameBlock_of_active run hact
  rw [hframe, henv, hp] at hbyte hblock
  rw [hbyte, hoff, addrOf_split] at hsb
  rw [recordOf, recordFor, hla, hsb, hblock]

/-! ### STEP and RUN keep the setup -/

/-- The configuration, RUNSTATE, ERR_CODE and what stands beside the unit are as they were (R171, R172). -/
structure SetupKept (s t : State) : Prop where
  cfgFrames : t.cfgFrames = s.cfgFrames
  cfgPolicy : t.cfgPolicy = s.cfgPolicy
  refN : t.refN = s.refN
  runState : t.runState = s.runState
  errCode : t.errCode = s.errCode
  env : t.env = s.env
  launched : t.launched = s.launched
  input : t.input = s.input
  bus : t.bus = s.bus

theorem SetupKept.refl (s : State) : SetupKept s s :=
  ⟨rfl, rfl, rfl, rfl, rfl, rfl, rfl, rfl, rfl⟩

theorem SetupKept.trans {s t u : State} (h : SetupKept s t) (g : SetupKept t u) : SetupKept s u :=
  ⟨g.cfgFrames.trans h.cfgFrames, g.cfgPolicy.trans h.cfgPolicy, g.refN.trans h.refN, g.runState.trans h.runState,
    g.errCode.trans h.errCode, g.env.trans h.env, g.launched.trans h.launched, g.input.trans h.input, g.bus.trans h.bus⟩

theorem setupKept_respond (s : State) (r : Response) : SetupKept s (respond s r) :=
  ⟨rfl, rfl, rfl, rfl, rfl, rfl, rfl, rfl, rfl⟩

theorem setupKept_xlate {s t : State} (h : xlate s = .ok t) : SetupKept s t := by
  obtain ⟨hframes, hpolicy, -, hrefN, hrun, herr, hbus, henv, hinput, -, -, -, -, hlaunched⟩ := xlate_frame h
  exact ⟨hframes, hpolicy, hrefN, hrun, herr, henv, hlaunched, hinput, hbus⟩

/-- What a RUN from `s` has left of `s` at each reference: the setup and the frames from CFG_FRAMES on; with the invariant
that keeps every frame handed out below CFG_FRAMES (R21, R43). -/
structure UnusedKept (s u : State) : Prop where
  running : Running u
  setup : SetupKept s u
  unused : ∀ a, s.cfgFrames.toNat * 256 ≤ a → memRead u.frame a = memRead s.frame a

theorem unusedKept_respond {s u : State} (r : Response) (h : UnusedKept s u) : UnusedKept s (respond u r) :=
  ⟨running_respond r h.running, h.setup.trans (setupKept_respond u r), h.unused⟩

theorem unusedKept_xlate {s u v : State} (h : UnusedKept s u) (lt : u.clock < u.refN) (hx : xlate u = .ok v) :
    UnusedKept s v := by
  have run := running_xlate h.running lt hx
  have hsetup := h.setup.trans (setupKept_xlate hx)
  refine ⟨run, hsetup, fun a ha => ?_⟩
  obtain ⟨hact, hframe, -⟩ := xlate_resolved h.running hx
  have hF := frame_lt_cfgFrames run hact
  rw [hframe, hsetup.cfgFrames] at hF
  rw [← h.unused a ha]
  exact xlate_memory hx (.inr (Nat.le_trans (addrOf_end_le hF) ha))

/-! ### CLOCK and the time stamps -/

/-- CLOCK did not go back, and every time stamp that changed is a value CLOCK held meanwhile (R15, R29). -/
def StampsFromClock (s t : State) : Prop :=
  s.clock ≤ t.clock ∧ ∀ q,
    ((ptAt t q).lastRef = (ptAt s q).lastRef ∨ (s.clock ≤ (ptAt t q).lastRef ∧ (ptAt t q).lastRef < t.clock)) ∧
    ((ptAt t q).loadTime = (ptAt s q).loadTime ∨ (s.clock ≤ (ptAt t q).loadTime ∧ (ptAt t q).loadTime < t.clock))

theorem stampsFromClock_refl (s : State) : StampsFromClock s s :=
  ⟨Nat.le_refl _, fun _ => ⟨.inl rfl, .inl rfl⟩⟩

theorem stampsFromClock_xlate {s t u : State} (h : StampsFromClock s t) (hx : xlate t = .ok u) : StampsFromClock s u := by
  obtain ⟨hclock, hstamps⟩ := h
  obtain ⟨-, -, hnext, -⟩ := xlate_frame hx
  refine ⟨by omega, fun q => ?_⟩
  have hq := hstamps q
  obtain e | e | e | ⟨-, e⟩ := xlate_ptAt hx q <;> simp only [e] <;> omega

/-- RUN takes CLOCK to REF_N, or leaves it where it is beyond (R172). -/
theorem runLoop_clock (n : Nat) (s : State) (hn : n = s.refN - s.clock) (hr : (runLoop n s).runState ≠ .error) :
    (runLoop n s).clock = max s.clock s.refN := by
  induction n generalizing s with
  | zero => rw [runLoop, respond_clock]; omega
  | succ n ih =>
    have lt : s.clock < s.refN := by omega
    rw [runLoop, if_pos lt] at hr ⊢
    cases hx : xlate s with
    | error e => rw [hx] at hr; exact absurd (raise_runState e s) hr
    | ok t =>
      rw [hx] at hr
      obtain ⟨-, -, hclock, hrefN, -⟩ := xlate_frame hx
      have := ih (respond t (recordOf t)) (by rw [respond_refN, respond_clock]; omega) hr
      rw [respond_clock, respond_refN] at this
      exact this.trans (by omega)

/-- RUN over well-formed words on a readable store answers every record in order, then done (R172, R161). -/
theorem runLoop_records (n : Nat) (s : State) (h : Running s) (hr : s.runState = .ready) (hn : n = s.refN - s.clock)
    (hst : StoreReadable s.env) (hw : ∀ i, s.clock ≤ i → i < s.refN → WordGood s.env i) :
    ∃ fs : List Index, fs.length = n ∧ (runLoop n s).runState = .ready ∧ (runLoop n s).clock = s.refN ∧
      (runLoop n s).out = s.out ++ recordsFrom s.env s.clock fs ++ [.done] := by
  induction n generalizing s with
  | zero =>
    have := h.clock
    exact ⟨[], rfl, hr, by rw [runLoop, respond_clock]; omega, by simp [runLoop, recordsFrom]⟩
  | succ n ih =>
    have lt : s.clock < s.refN := by omega
    obtain ⟨t, hx⟩ := xlate_total h hst (hw _ (Nat.le_refl _) lt) fun _ i hi => hw i (Nat.le_of_lt hi)
    obtain ⟨-, -, hclock, hrefN, hrun, -, -, henv, -, hout, -⟩ := xlate_frame hx
    obtain ⟨fs, hlen, hready, hend, hrecs⟩ := ih (respond t (recordOf t)) (running_respond _ (running_xlate h lt hx))
      (hrun.trans hr) (by rw [respond_refN, respond_clock]; omega) (by rw [respond_env, henv]; exact hst)
      (by
        intro i hi hi'
        rw [respond_env, henv]
        rw [respond_clock, hclock] at hi
        rw [respond_refN, hrefN] at hi'
        exact hw i (by omega) hi')
    refine ⟨t.f :: fs, by rw [List.length_cons, hlen], ?_⟩
    rw [runLoop, if_pos lt, hx]
    refine ⟨hready, by rw [hend, respond_refN, hrefN], ?_⟩
    rw [hrecs, respond_out, respond_env, respond_clock, henv, hclock, hout, xlate_record h lt hx, recordsFrom]
    simp

/-! ### The first reference -/

/-- Below CFG_FRAMES the allocator takes the next frame, whatever the policy (R121). -/
theorem faAlloc_of_lt {s : State} (lt : s.nextFree.toNat < s.cfgFrames.toNat) : faAlloc s = .ok (allocBump s) := by
  rw [faAlloc, if_neg (by omega), if_pos lt]

/-- With no frame handed out no page is active (R26). -/
theorem inactive_of_nextFree_zero {s : State} (h : Running s) (h0 : s.nextFree.toNat = 0) (q : Index) :
    isActive s q = false := by
  cases hq : isActive s q with
  | false => rfl
  | true => have := h.owned q hq; omega

/-- A page that is not active is not in the TLB (R27). -/
theorem tlbFind_of_inactive {s : State} {q : Index} (h : Running s) (hq : isActive s q = false) :
    tlbFind s.tlb q = none := by
  refine tlbFind_none.2 fun e he hpage => ?_
  obtain ⟨hact, -⟩ := h.tlbActive e he
  rw [hpage, hq] at hact
  cases hact

/-- A reference to a page that is not active, while frames are left, is a page fault on the bump path (R121, R152). -/
theorem xlate_bump {s : State} (h : Running s) (hst : StoreReadable s.env) (hw : WordGood s.env s.clock)
    (ha : isActive s (decoded s).p = false) (lt : s.nextFree.toNat < s.cfgFrames.toNat) :
    ∃ u, FaultPath s u ∧ xlate s = .ok (clkAdv (frXbyte (tlbInsert (ptRecfault (frFill (allocBump u)))))) := by
  have he := tlbFind_of_inactive h ha
  have hu := faultPath s he
  refine ⟨_, hu, ?_⟩
  rw [xlate_outcomes, wordGood_iff.1 hw, he, ha, storeBlock_total hst]
  dsimp only
  rw [faAlloc_of_lt (by rw [hu.nextFree, hu.cfgFrames]; exact lt)]
  rfl

/-! ### The number of active pages -/

/-- The active pages' frames, in the order of the scan. -/
def activeFrames (s : State) : List Nat :=
  (activePages s).map fun q => (ptAt s q).frame.toNat

theorem mem_activeFrames {s : State} {k : Nat} :
    k ∈ activeFrames s ↔ ∃ q, isActive s q = true ∧ (ptAt s q).frame.toNat = k := by
  simp [activeFrames, mem_activePages]

theorem activePages_nodup (s : State) : (activePages s).Nodup :=
  (activePages_sorted s).imp fun {a b} hlt hab => by rw [hab] at hlt; exact Nat.lt_irrefl _ hlt

theorem activeFrames_nodup {s : State} (h : Running s) : (activeFrames s).Nodup :=
  (activePages_nodup s).map_on fun q hq r hr hqr =>
    h.distinct q r (mem_activePages.1 hq) (mem_activePages.1 hr) (BitVec.eq_of_toNat_eq hqr)

/-- The frames handed out are exactly those of the active pages (R30). -/
theorem lt_nextFree_iff {s : State} (h : Running s) (k : Nat) :
    k < s.nextFree.toNat ↔ ∃ q, isActive s q = true ∧ (ptAt s q).frame.toNat = k :=
  ⟨h.covered k, fun ⟨q, hq, hk⟩ => hk ▸ h.owned q hq⟩

/-- As many pages are active as frames were handed out: the frames are a permutation of those below NEXT_FREE (R26, R30). -/
theorem activePages_length {s : State} (h : Running s) : (activePages s).length = s.nextFree.toNat := by
  have hperm : (activeFrames s).Perm (List.range s.nextFree.toNat) := by
    refine (List.perm_ext_iff_of_nodup (activeFrames_nodup h) List.nodup_range).2 fun k => ?_
    rw [mem_activeFrames, List.mem_range, lt_nextFree_iff h]
  simpa [activeFrames] using hperm.length_eq

end Sys2Proof.Laws
end

section
/-! The statements of spec/10_state.md: the invariant, reset, RUNSTATE, CLOCK, and what a reference leaves. -/

namespace Sys2Proof.Proofs

open Sys2Proof.Machine Sys2Proof.Laws

/-- Settles O49, by the ways a step reaches a next state (`inv_step`). -/
theorem stepKeepsTheInvariant : Obligations.StepKeepsTheInvariant :=
  fun _ _ => inv_step

/-- Settles O50, by the ways a step reaches a next state: an instruction, the error entry and reset keep the form. -/
theorem stepKeepsTheForm : Obligations.StepKeepsTheForm := by
  intro s t hf h
  obtain ⟨w, i, -, -, he⟩ | ⟨-, hport⟩ := step_cases h
  · exact form_exec (s := { s with bus := none }) (form_congr hf rfl rfl) he
  · obtain ⟨-, rfl⟩ | ⟨w, rest, -, hw⟩ | ⟨rest, -, rfl⟩ | ⟨w, n, rest, -, rfl⟩ | ⟨env, rest, -, -, -, -, rfl⟩ := hport
    · exact hf
    · have hin : Form { s with input := rest } := form_congr hf rfl rfl
      obtain ⟨-, rfl⟩ | ⟨-, i, -, he⟩ | ⟨-, r, -, rfl⟩ := hw
      · exact form_respond _ hin
      · exact form_exec hin he
      · exact form_raise _ hin
    · exact form_hardReset _
    · exact form_hardReset _
    · exact form_congr hf rfl rfl

/-- Settles O9: the reset values come from `hardReset`; what a cut command sent is `abandonCommand_out`. -/
theorem hardwareResetRestoresTheSpecifiedValues : Obligations.HardwareResetRestoresTheSpecifiedValues := by
  intro s rest hb
  refine ⟨fun hi => ?_, fun w n hi => ?_⟩
  · exact ⟨_, step_rst hb hi, atReset_hardReset _, rfl, rfl, rfl⟩
  · obtain ⟨u, hu⟩ := step_word_next (s := { s with input := .word w :: rest }) hb rfl
    obtain ⟨hreset, henv, hinput⟩ := abandonCommand_reset w n { s with input := rest }
    exact ⟨_, u, step_rstDuring hb hi, hreset, henv, hinput, hu,
      abandonCommand_out (s := { s with input := .word w :: rest }) n hb rfl hu⟩

/-- Settles O11: of the moves of `step_mode`, raising needs a RUNSTATE other than ERROR and INIT needs UNCONFIGURED. -/
theorem errorIsLeftByHardwareResetOnly : Obligations.ErrorIsLeftByHardwareResetOnly := by
  intro s t hs h
  obtain (⟨hr, hc⟩ | ⟨hne, -⟩) | ⟨-, w, rest, i, -, -, hu, -⟩ | ⟨-, hreset⟩ := step_mode h
  · exact .inl ⟨hr.trans hs, hc⟩
  · exact absurd hs hne
  · rw [hs] at hu; cases hu
  · exact .inr hreset

/-- Settles O12: the moves of `step_mode`, one for each transition. -/
theorem runStateMovesOnlyAlongItsTransitions : Obligations.RunStateMovesOnlyAlongItsTransitions := by
  refine ⟨rfl, rfl, rfl, rfl, fun s t h hne => ?_⟩
  obtain (⟨hr, -⟩ | ⟨-, hr, he⟩) | ⟨hb, w, rest, i, hi, hd, hu, hr, f, p, rfl, hc⟩ | ⟨hr, hreset⟩ := step_mode h
  · exact absurd hr hne
  · exact .inr (.inr ⟨hr, he⟩)
  · exact .inr (.inl ⟨hu, hr, hb, w, rest, f, p, hi, hd, hc⟩)
  · exact .inl ⟨hr, hreset⟩

/-- Settles O16: XLATE completes, keeps the invariant of READY and leaves the page resolved; the record is `xlate_record`. -/
theorem stepAnswersTheRecordOfTheReference : Obligations.StepAnswersTheRecordOfTheReference := by
  intro s h hr lt hst hw hfut
  have run := h.running hr
  obtain ⟨u, hx⟩ := xlate_total run hst hw hfut
  obtain ⟨hframes, -, hclock, -, hrun, -, -, -, -, hout, -, -, hp, -⟩ := xlate_frame hx
  obtain ⟨hact, hframe, -⟩ := xlate_resolved run hx
  have hF := frame_lt_cfgFrames (running_xlate run lt hx) hact
  rw [hframe, hframes] at hF
  rw [hp] at hact hframe
  exact ⟨_, exec_step_of_xlate hr lt hx, hrun.trans hr, hclock, by rw [respond_out, hout, xlate_record run lt hx]; rfl,
    hact, hframe, hF⟩

/-- Settles O17, by induction over RUN's loop (`runLoop_records`). -/
theorem runAnswersEveryRecordThenDone : Obligations.RunAnswersEveryRecordThenDone := by
  intro s h hr hst hw hfut
  have hgood : ∀ i, s.clock ≤ i → i < s.refN → WordGood s.env i := by
    intro i hi lt
    obtain hlt | rfl := Nat.lt_or_eq_of_le hi
    · exact hfut i hlt lt
    · exact hw lt
  obtain ⟨fs, hlen, hready, hend, hout⟩ := runLoop_records _ s (h.running hr) hr rfl hst hgood
  exact ⟨_, fs, exec_run_of_ready hr, hready, hend, hlen, hout⟩

/-- Settles O19: at CLOCK = 0 no frame was handed out, so no page is active, and FA.ALLOC takes the bump path. -/
theorem firstReferenceIsAPageFault : Obligations.FirstReferenceIsAPageFault := by
  intro s h hr h0 lt hst hw
  have run := h.running hr
  have hcount := run.counted
  have hle := run.faults
  obtain ⟨hhits, hmisses, hfaults⟩ : s.tlbHits = 0 ∧ s.tlbMisses = 0 ∧ s.pageFaults = 0 := by omega
  have hnext : s.nextFree.toNat = 0 := by have := run.bumped; omega
  have hframes : 1 ≤ s.cfgFrames.toNat := by
    have hc := run.config
    simp only [configLegal, Bool.and_eq_true, decide_eq_true_eq] at hc
    exact hc.1.1
  have hfree : s.nextFree = 0 := BitVec.eq_of_toNat_eq hnext
  obtain ⟨u, hu, hx⟩ := xlate_bump run hst (h0 ▸ hw) (inactive_of_nextFree_zero run hnext _) (by omega)
  refine ⟨_, exec_step_of_xlate hr (by omega) hx, ?_⟩
  simp [hu.tlbHits, hu.tlbMisses, hu.pageFaults, hu.nextFree, hfree, hhits, hmisses, hfaults]

/-- Settles O44: each reference of a RUN keeps `UnusedKept`, because the frame it resolves is below CFG_FRAMES. -/
theorem runLeavesTheUnusedFrames : Obligations.RunLeavesTheUnusedFrames := by
  intro s t h he hne
  obtain ⟨hr, rfl⟩ := run_ready he hne
  have h0 : UnusedKept s s := ⟨h.running hr, .refl s, fun _ _ => rfl⟩
  obtain herr | hk := runLoop_induct (UnusedKept s)
    (fun _ _ hu _ lt hx => unusedKept_respond _ (unusedKept_xlate hu lt hx)) (fun _ => unusedKept_respond _) _ s h0 hr
  · exact absurd herr hne
  · obtain ⟨-, ⟨hframes, hpolicy, hrefN, hrun, hcode, henv, hlaunched, hinput, hbus⟩, hunused⟩ := hk
    exact ⟨hframes, hpolicy, hrefN, hrun, hcode, henv, hlaunched, hinput, hbus, hunused⟩

/-- Settles O46: a reference changes the FRAME field of a page that is not active only (`xlate_ptAt`). -/
theorem frameNumberIsStableWhileActive : Obligations.FrameNumberIsStableWhileActive := by
  intro s t q he hne hs ht
  obtain ⟨-, ⟨-, rfl⟩ | ⟨-, u, hx, rfl⟩⟩ := step_ready he hne
  · rfl
  · rw [respond_ptAt]
    obtain e | e | e | ⟨ha, -⟩ := xlate_ptAt hx q
    · rw [e]
    · rw [e]
    · rw [e]
    · rw [ha] at hs; cases hs

/-- Settles O47: a reference adds 1 to CLOCK and stamps with CLOCK (`stampsFromClock_xlate`), and RUN is references. -/
theorem clockIsTheSoleTimeBasis : Obligations.ClockIsTheSoleTimeBasis := by
  refine ⟨fun s t he hne => ?step, fun s t he hne => ?run, fun i s t hi he hne => ?stamps⟩
  case step =>
    obtain ⟨-, ⟨h, rfl⟩ | ⟨h, u, hx, rfl⟩⟩ := step_ready he hne
    · exact ⟨fun _ => rfl, fun hn => absurd h hn⟩
    · obtain ⟨-, -, hclock, -⟩ := xlate_frame hx
      exact ⟨fun hn => absurd hn h, fun _ => hclock⟩
  case run =>
    obtain ⟨-, rfl⟩ := run_ready he hne
    exact runLoop_clock _ s rfl hne
  case stamps =>
    have hst : StampsFromClock s t := by
      obtain rfl | rfl := hi
      · obtain ⟨-, ⟨-, rfl⟩ | ⟨-, u, hx, rfl⟩⟩ := step_ready he hne
        · exact stampsFromClock_refl s
        · exact (stampsFromClock_xlate (stampsFromClock_refl s) hx :)
      · obtain ⟨hr, rfl⟩ := run_ready he hne
        exact (runLoop_induct (StampsFromClock s) (fun _ _ h _ _ hx => (stampsFromClock_xlate h hx :))
          (fun _ h => h) _ s (stampsFromClock_refl s) hr).resolve_left hne
    exact hst.2

/-- Settles O51: the clauses of the invariant on the frames, counted by `activePages_length` and `tlb_le_nextFree`. -/
theorem activePagesOwnDistinctFrames : Obligations.ActivePagesOwnDistinctFrames := by
  intro s t h hs hr
  have inv := inv_step h hs
  have run := inv.running hr
  have hle : t.nextFree.toNat ≤ t.cfgFrames.toNat := by have := run.bumped; omega
  refine ⟨by rw [activePages_length run]; exact hle, fun _ => frame_lt_cfgFrames run, ?_, hle, activePages_length run,
    lt_nextFree_iff run, Nat.le_min.2 ⟨inv.form.capacity, tlb_le_nextFree run⟩⟩
  intro q r hq hr hne hf
  exact hne (run.distinct q r hq hr hf)

/-- Settles O52: the clauses of the invariant on the TLB. -/
theorem tlbHoldsOnlyActiveMappings : Obligations.TlbHoldsOnlyActiveMappings := by
  intro s t h hs hr
  have run := (inv_step h hs).running hr
  refine ⟨fun e he => ?_, run.tlbNodup⟩
  obtain ⟨hact, hframe⟩ := run.tlbActive e he
  exact ⟨(isActive_iff.1 hact).2, hframe⟩

/-- Settles O53: the clause of the invariant on the frames' content, as a read. -/
theorem framesHoldTheirPages : Obligations.FramesHoldTheirPages := by
  intro s t h hs hr q hq o ho
  exact frameByte_of_active ((inv_step h hs).running hr) hq ho

/-- Settles O54: the clauses of the invariant on the time stamps. -/
theorem timeStampsAreOrderedAndDistinct : Obligations.TimeStampsAreOrderedAndDistinct := by
  intro s t h hs hr
  have run := (inv_step h hs).running hr
  exact ⟨run.stamped, run.apart⟩

/-- Settles O8: the values `Regs.reset` names. -/
theorem resetHoldsTheSpecifiedValues : Obligations.ResetHoldsTheSpecifiedValues := by
  obtain ⟨hframes, hpolicy, hrefN, hclock, htlb, habsent, hnext, hhits, hmisses, hfaults⟩ := fresh_reset
  exact ⟨hframes, hpolicy, rfl, rfl, hclock, hrefN, by rw [htlb]; rfl, habsent, hnext, hhits, hmisses, hfaults⟩

/-- Settles O41: the update of CLOCK is all CLK.ADV is. -/
theorem clkAdvAddsOne : Obligations.ClkAdvAddsOne :=
  fun _ => rfl

/-- Settles O48: the registers at reset are those hardware reset gives, and nothing was raised. -/
theorem resetMeetsTheInvariant : Obligations.ResetMeetsTheInvariant :=
  ⟨⟨wf_reset, Nat.zero_le _⟩, rfl, by decide, by decide, fun _ => fresh_reset, nofun⟩

end Sys2Proof.Proofs
end

section
/-! What FR.FILL leaves in the frame memory (R124), and the sign rule of R157. -/

namespace Sys2Proof.Laws

open Sys2Proof.Machine

/-- Byte `k` of frame F after FR.FILL (R124). -/
theorem memRead_frFill_inside (s : State) {k : Nat} (hk : k < 256) :
    memRead (frFill s).frame (addrOf s.f k) = some s.blk[k] := by
  have hin : addrOf s.f 0 ≤ addrOf s.f k ∧ addrOf s.f k < addrOf s.f 256 := by simp only [addrOf]; omega
  have hoff : addrOf s.f k - addrOf s.f 0 = k := by simp only [addrOf]; omega
  rw [frFill, memRead_writeFrame, dif_pos hin]
  simp only [hoff]

theorem memRead_frFill_outside (s : State) {a : Nat} (ha : a < addrOf s.f 0 ∨ addrOf s.f 256 ≤ a) :
    memRead (frFill s).frame a = memRead s.frame a := by
  have hout : ¬ (addrOf s.f 0 ≤ a ∧ a < addrOf s.f 256) := by omega
  rw [frFill, memRead_writeFrame, dif_neg hout]

/-- Nine bits hold every signed byte value, -126 to 129 (R157, R73). -/
theorem signedByte_toInt (b : Byte) : (signedByte b).toInt = signedValue b := by
  have hrange : -256 ≤ signedValue b ∧ signedValue b < 256 := by unfold signedValue; split <;> omega
  exact BitVec.toInt_ofInt_eq_self (by decide) hrange.1 hrange.2

theorem signedByte_toInt_of_gt {b : Byte} (h : 129 < b.toNat) : (signedByte b).toInt = (b.toNat : Int) - 256 := by
  rw [signedByte_toInt, signedValue, if_pos h]

theorem signedByte_toInt_of_le {b : Byte} (h : b.toNat ≤ 129) : (signedByte b).toInt = b.toNat := by
  rw [signedByte_toInt, signedValue, if_neg (by omega)]

end Sys2Proof.Laws
end

section
/-! The statements of spec/20_memory.md: what FR.FILL writes and what FR.XBYTE reads. -/

namespace Sys2Proof.Proofs

open Sys2Proof.Machine Sys2Proof.Laws

/-- Settles O39: a byte of the frame memory after FR.FILL, inside frame F and outside it. -/
theorem frFillWritesTheWholeFrame : Obligations.FrFillWritesTheWholeFrame := by
  intro s
  exact ⟨frFill s, rfl, fun _ => memRead_frFill_inside s, fun _ => memRead_frFill_outside s, rfl⟩

/-- Settles O40: SB is the signed value of the byte read, on each side of R157's threshold. -/
theorem frXbyteKeepsTheSignThreshold : Obligations.FrXbyteKeepsTheSignThreshold := by
  intro s
  exact ⟨frXbyte s, rfl, rfl, signedByte_toInt_of_gt, signedByte_toInt_of_le, rfl⟩

end Sys2Proof.Proofs
end

section
/-! SUPPORT. The encoding: a word's fields as numbers, the words of an instruction, what each format accepts, and the
decoder and the encoder as inverses (R60 to R66, R69). -/

namespace Sys2Proof.Laws

open Sys2Proof.Machine

/-! ### The fields of a word, as numbers -/

theorem opcField_toNat (w : Word) : (opcField w).toNat = w.toNat / 2 ^ 24 := by
  have := w.isLt
  rw [opcField, BitVec.extractLsb'_toNat, Nat.shiftRight_eq_div_pow]; omega

theorem operandField_toNat (w : Word) : (operandField w).toNat = w.toNat % 2 ^ 24 := by
  rw [operandField, BitVec.extractLsb'_toNat, Nat.shiftRight_zero]

/-- FRAMES and POLICY lie in the operand field, one above the other (R62). -/
theorem framesField_toNat (w : Word) : (framesField w).toNat = (operandField w).toNat % 2 ^ 9 := by
  rw [framesField, BitVec.extractLsb'_toNat, operandField_toNat, Nat.shiftRight_zero]; omega

theorem policyField_toNat (w : Word) : (policyField w).toNat = (operandField w).toNat / 2 ^ 9 % 2 ^ 2 := by
  rw [policyField, BitVec.extractLsb'_toNat, operandField_toNat, Nat.shiftRight_eq_div_pow]; omega

theorem selField_toNat (w : Word) : (selField w).toNat = (operandField w).toNat % 2 ^ 4 := by
  rw [selField, BitVec.extractLsb'_toNat, operandField_toNat, Nat.shiftRight_zero]; omega

/-- The bits a format reserves above its `k` operand bits are 0 when the operand field is a number of `k` bits. -/
theorem reserved_eq_zero_iff (w : Word) {k n : Nat} (h : k + n = 24) :
    w.extractLsb' k n = 0 ↔ (operandField w).toNat < 2 ^ k := by
  rw [← BitVec.toNat_inj, BitVec.extractLsb'_toNat, operandField_toNat, ← h, Nat.pow_add, Nat.shiftRight_eq_div_pow,
    ← Nat.mod_mul_right_div_self]
  exact Nat.div_eq_zero_iff_lt (Nat.two_pow_pos k)

/-! ### The word of an instruction -/

/-- The word as a number: the opcode above the 24 bits of the operand field (R60). -/
theorem encode_toNat (i : Instr) : (encode i).toNat = (opcodeOf i).toNat * 2 ^ 24 + (operandOf i).toNat := by
  have hopc := (opcodeOf i).isLt
  have hop := (operandOf i).isLt
  have e8 : ((opcodeOf i).setWidth 32).toNat = (opcodeOf i).toNat := BitVec.toNat_setWidth_of_le (by decide)
  have e24 : ((operandOf i).setWidth 32).toNat = (operandOf i).toNat := BitVec.toNat_setWidth_of_le (by decide)
  rw [encode, toNat_shiftLeft_or (by omega) (by omega), e8, e24]

@[simp] theorem opcField_encode (i : Instr) : opcField (encode i) = opcodeOf i := by
  have hop := (operandOf i).isLt
  exact BitVec.eq_of_toNat_eq (by rw [opcField_toNat, encode_toNat]; omega)

@[simp] theorem operandField_encode (i : Instr) : operandField (encode i) = operandOf i := by
  have hop := (operandOf i).isLt
  exact BitVec.eq_of_toNat_eq (by rw [operandField_toNat, encode_toNat]; omega)

/-- An instruction's word is the word whose OPC and operand field it has (R60). -/
theorem encode_eq_of_fields {w : Word} {i : Instr} (hopc : opcField w = opcodeOf i)
    (hop : operandField w = operandOf i) : encode i = w := by
  refine BitVec.eq_of_toNat_eq ?_
  rw [encode_toNat, ← hopc, ← hop, opcField_toNat, operandField_toNat]
  exact Nat.div_add_mod' _ _

/-- INIT's operands as a number: POLICY above the 9 bits of FRAMES (R62). -/
theorem operandOf_init_toNat (f : BitVec 9) (p : BitVec 2) :
    (operandOf (.init f p)).toNat = p.toNat * 2 ^ 9 + f.toNat := by
  have hp := p.isLt
  have hf := f.isLt
  simp only [operandOf, BitVec.toNat_or, BitVec.toNat_shiftLeft, BitVec.toNat_setWidth]
  rw [Nat.mod_eq_of_lt (by omega : p.toNat < 2 ^ 24), Nat.mod_eq_of_lt (by omega : f.toNat < 2 ^ 24),
    Nat.mod_eq_of_lt (by rw [Nat.shiftLeft_eq]; omega), ← Nat.shiftLeft_add_eq_or_of_lt hf, Nat.shiftLeft_eq]

theorem operandOf_rdstat_toNat (sel : BitVec 4) : (operandOf (.rdstat sel)).toNat = sel.toNat :=
  BitVec.toNat_setWidth_of_le (by decide)

/-- FRAMES and POLICY are the whole operand field when the bits above them are 0 (R62). -/
theorem operandField_eq_init {w : Word} (h : (operandField w).toNat < 2 ^ 11) :
    operandField w = operandOf (.init (framesField w) (policyField w)) :=
  BitVec.eq_of_toNat_eq (by rw [operandOf_init_toNat, policyField_toNat, framesField_toNat]; omega)

/-- SEL is the whole operand field when the bits above it are 0 (R63). -/
theorem operandField_eq_rdstat {w : Word} (h : (operandField w).toNat < 2 ^ 4) :
    operandField w = operandOf (.rdstat (selField w)) :=
  BitVec.eq_of_toNat_eq (by rw [operandOf_rdstat_toNat, selField_toNat]; omega)

/-! ### The formats -/

/-- Format C accepts the operand fields of INIT (R62). -/
theorem formatC_ok_iff {w : Word} {i : Instr} :
    formatC w = .ok i ↔ ∃ f p, i = .init f p ∧ operandField w = operandOf (.init f p) := by
  simp only [formatC, reserved_eq_zero_iff w (show 11 + 13 = 24 from rfl)]
  constructor
  · intro h
    split at h
    · next hlt =>
      cases h
      exact ⟨_, _, rfl, operandField_eq_init hlt⟩
    · cases h
  · rintro ⟨f, p, rfl, h⟩
    have hp := p.isLt
    have hf := f.isLt
    have hnum := operandOf_init_toNat f p
    rw [← h] at hnum
    have hframes : framesField w = f := BitVec.eq_of_toNat_eq (by rw [framesField_toNat]; omega)
    have hpolicy : policyField w = p := BitVec.eq_of_toNat_eq (by rw [policyField_toNat]; omega)
    rw [if_pos (by omega), hframes, hpolicy]

/-- Format S accepts the operand fields of RDSTAT with a defined selector (R63, R68). -/
theorem formatS_ok_iff {w : Word} {i : Instr} :
    formatS w = .ok i ↔
      ∃ sel, i = .rdstat sel ∧ selectorDefined sel = true ∧ operandField w = operandOf (.rdstat sel) := by
  simp only [formatS, reserved_eq_zero_iff w (show 4 + 20 = 24 from rfl)]
  constructor
  · intro h
    split at h
    · next hlt =>
      split at h
      · next hsel =>
        cases h
        exact ⟨_, rfl, hsel, operandField_eq_rdstat hlt⟩
      · cases h
    · cases h
  · rintro ⟨sel, rfl, hsel, h⟩
    have hlt := sel.isLt
    have hnum := operandOf_rdstat_toNat sel
    rw [← h] at hnum
    have hfield : selField w = sel := BitVec.eq_of_toNat_eq (by rw [selField_toNat]; omega)
    rw [if_pos (by omega), hfield, if_pos hsel]

/-- Format N accepts the operand field 0 (R61). -/
theorem formatN_ok_iff {w : Word} {i j : Instr} : formatN w i = .ok j ↔ i = j ∧ operandField w = 0 := by
  unfold formatN
  split <;> simp_all

/-! ### The decoder and the encoder -/

/-- A decoded word has the fields of a well-formed instruction, row by row of the opcode map (R65). -/
theorem fields_of_decodeWord {w : Word} {i : Instr} (h : decodeWord w = .ok i) :
    WellFormed i = true ∧ opcField w = opcodeOf i ∧ operandField w = operandOf i := by
  unfold decodeWord at h
  split at h
  case h_1 hopc =>
    obtain ⟨f, p, rfl, hop⟩ := formatC_ok_iff.1 h
    exact ⟨rfl, BitVec.eq_of_toNat_eq hopc, hop⟩
  case h_4 hopc =>
    obtain ⟨sel, rfl, hsel, hop⟩ := formatS_ok_iff.1 h
    exact ⟨hsel, BitVec.eq_of_toNat_eq hopc, hop⟩
  case h_22 => cases h
  all_goals
    next hopc =>
    obtain ⟨rfl, hop⟩ := formatN_ok_iff.1 h
    exact ⟨rfl, BitVec.eq_of_toNat_eq hopc, hop⟩

/-- The decoder reads a well-formed instruction from its word, row by row of the opcode map (R65). -/
theorem decodeWord_encode {i : Instr} (h : WellFormed i = true) : decodeWord (encode i) = .ok i := by
  unfold decodeWord
  rw [opcField_encode]
  cases i
  case init f p => exact formatC_ok_iff.2 ⟨f, p, rfl, operandField_encode _⟩
  case rdstat sel => exact formatS_ok_iff.2 ⟨sel, rfl, h, operandField_encode _⟩
  all_goals exact formatN_ok_iff.2 ⟨rfl, operandField_encode _⟩

/-- A word decodes to an instruction exactly when the instruction is well formed and the word is its word. -/
theorem decodeWord_ok_iff {w : Word} {i : Instr} : decodeWord w = .ok i ↔ WellFormed i = true ∧ encode i = w := by
  constructor
  · intro h
    obtain ⟨hwf, hopc, hop⟩ := fields_of_decodeWord h
    exact ⟨hwf, encode_eq_of_fields hopc hop⟩
  · rintro ⟨hwf, rfl⟩
    exact decodeWord_encode hwf

/-! ### The host command port -/

theorem decodeHost_ok_iff {w : Word} {i : Instr} :
    decodeHost w = .ok i ↔ isHostCommand i = true ∧ WellFormed i = true ∧ encode i = w := by
  rw [← decodeWord_ok_iff]
  unfold decodeHost
  cases decodeWord w with
  | error r => simp
  | ok j =>
    dsimp only
    constructor
    · intro h
      split at h
      · next hj => cases h; exact ⟨hj, rfl⟩
      · cases h
    · rintro ⟨hi, h⟩
      cases h
      rw [if_pos hi]

/-- R69's legal words, by the fields of the word. -/
theorem legalHostWord_iff (w : Word) : LegalHostWord w ↔
    ((opcField w).toNat = 1 ∧ (operandField w).toNat < 2 ^ 11) ∨
    ((opcField w).toNat = 2 ∧ (operandField w).toNat = 0) ∨ ((opcField w).toNat = 3 ∧ (operandField w).toNat = 0) ∨
    ((opcField w).toNat = 4 ∧ (operandField w).toNat < 10) := by
  rw [opcField_toNat, operandField_toNat, LegalHostWord]

/-- The word of a well-formed host command is legal (R69). -/
theorem legalHostWord_encode {i : Instr} (hhost : isHostCommand i = true) (hwf : WellFormed i = true) :
    LegalHostWord (encode i) := by
  rw [legalHostWord_iff, opcField_encode, operandField_encode]
  cases i
  case init f p =>
    refine .inl ⟨rfl, ?_⟩
    rw [operandOf_init_toNat]; omega
  case step => exact .inr (.inl ⟨rfl, rfl⟩)
  case run => exact .inr (.inr (.inl ⟨rfl, rfl⟩))
  case rdstat sel =>
    refine .inr (.inr (.inr ⟨rfl, ?_⟩))
    rw [operandOf_rdstat_toNat]
    exact of_decide_eq_true hwf
  all_goals cases hhost

/-- A legal word is the word of a well-formed host command, read from its fields (R69). -/
theorem host_of_legalHostWord {w : Word} (h : LegalHostWord w) :
    ∃ i, isHostCommand i = true ∧ WellFormed i = true ∧ encode i = w := by
  obtain ⟨hopc, hop⟩ | ⟨hopc, hop⟩ | ⟨hopc, hop⟩ | ⟨hopc, hop⟩ := (legalHostWord_iff w).1 h
  · exact ⟨.init (framesField w) (policyField w), rfl, rfl,
      encode_eq_of_fields (BitVec.eq_of_toNat_eq hopc) (operandField_eq_init hop)⟩
  · exact ⟨.step, rfl, rfl, encode_eq_of_fields (BitVec.eq_of_toNat_eq hopc) (BitVec.eq_of_toNat_eq hop)⟩
  · exact ⟨.run, rfl, rfl, encode_eq_of_fields (BitVec.eq_of_toNat_eq hopc) (BitVec.eq_of_toNat_eq hop)⟩
  · have hsel : (selField w).toNat < 10 := by rw [selField_toNat]; omega
    exact ⟨.rdstat (selField w), rfl, decide_eq_true hsel,
      encode_eq_of_fields (BitVec.eq_of_toNat_eq hopc) (operandField_eq_rdstat (by omega))⟩

/-- The host port decodes the legal words and no others (R69). -/
theorem decodeHost_ok_iff_legal (w : Word) : (∃ i, decodeHost w = .ok i) ↔ LegalHostWord w := by
  simp only [decodeHost_ok_iff]
  constructor
  · rintro ⟨i, hhost, hwf, rfl⟩
    exact legalHostWord_encode hhost hwf
  · exact host_of_legalHostWord

/-! ### A step takes the word and performs its instruction -/

/-- The word on the bus is taken before anything at the ports (R64, log 4). -/
theorem fetch_bus {s : State} {w : Word} (hb : s.bus = some w) : fetch s = takeMicro w { s with bus := none } := by
  rw [fetch, hb]

theorem fetch_word {s : State} {w : Word} {rest : List PortEvent} (hb : s.bus = none)
    (hi : s.input = .word w :: rest) : fetch s = takeCommand w { s with input := rest } := by
  rw [fetch, hb, hi]

/-- In ERROR a word on the command port is refused, whatever it is (R70, R174). -/
theorem step_word_of_error {s : State} {w : Word} {rest : List PortEvent} (hb : s.bus = none)
    (hi : s.input = .word w :: rest) (he : s.runState = .error) : step s = .next (refuse { s with input := rest }) := by
  rw [step, fetch_word hb hi, takeCommand, if_pos he]

/-- Outside ERROR a word the host port does not decode raises CommandError (R69, R195). -/
theorem step_word_of_illegal {s : State} {w : Word} {rest : List PortEvent} (hb : s.bus = none)
    (hi : s.input = .word w :: rest) (he : s.runState ≠ .error) (hw : ¬ LegalHostWord w) :
    step s = .next (raise .command { s with input := rest }) := by
  rw [step, fetch_word hb hi, takeCommand, if_neg he]
  cases hd : decodeHost w with
  | ok i => exact absurd ((decodeHost_ok_iff_legal w).1 ⟨i, hd⟩) hw
  | error r => rfl

theorem accept_of_error {s : State} (allowed : RunState → Bool) (go : State → State) (he : s.runState = .error) :
    accept allowed s go = refuse s := by
  rw [accept, if_pos he]

/-- In ERROR every host command is refused (R174). -/
theorem exec_host_of_error {s : State} {i : Instr} (hhost : isHostCommand i = true) (he : s.runState = .error) :
    exec i s = .next (refuse s) := by
  cases i
  case init f p => rw [exec, execInit, accept_of_error _ _ he]
  case step => rw [exec, execStep, accept_of_error _ _ he]
  case run => rw [exec, execRun, accept_of_error _ _ he]
  case rdstat sel => rw [exec, execRdstat, accept_of_error _ _ he]
  all_goals cases hhost

/-- A host command at the head of the command port is performed; in ERROR the two ways to refuse it agree (R174). -/
theorem step_word_of_host {s : State} {w : Word} {i : Instr} {rest : List PortEvent} (hb : s.bus = none)
    (hi : s.input = .word w :: rest) (hd : decodeHost w = .ok i) : step s = exec i { s with input := rest } := by
  by_cases he : s.runState = .error
  · rw [step_word_of_error hb hi he]
    exact (exec_host_of_error (s := { s with input := rest }) (host_of_decodeHost hd) he).symm
  · rw [step, fetch_word hb hi, takeCommand, if_neg he, hd]

theorem step_bus_of_micro {s : State} {w : Word} {i : Instr} (hb : s.bus = some w) (hd : decodeBus w = .ok i) :
    step s = exec i { s with bus := none } := by
  rw [step, fetch_bus hb, takeMicro, hd]

/-! ### RDSTAT -/

theorem readAllowed_iff (r : RunState) : readAllowed r = true ↔ r ≠ .error := by
  cases r <;> decide

theorem exec_rdstat_of_ne_error {s : State} (sel : BitVec 4) (hs : s.runState ≠ .error) :
    exec (.rdstat sel) s = .next (readStatus sel s) := by
  rw [exec, execRdstat, accept, if_neg hs, if_pos ((readAllowed_iff _).2 hs)]

/-- A reserved selector names no register (R68). -/
theorem statRegister_of_reserved {s : State} {sel : BitVec 4} (h : 10 ≤ sel.toNat) : statRegister s sel = none := by
  unfold statRegister
  split
  case h_11 => rfl
  all_goals omega

theorem readStatus_of_reserved {s : State} {sel : BitVec 4} (h : 10 ≤ sel.toNat) :
    readStatus sel s = raise .command s := by
  rw [readStatus, statRegister_of_reserved h]

/-! ### TLB.LOOKUP and PT.LOOKUP -/

/-- The search finds the first entry of the page (R86). -/
theorem tlbFind_append {pre post : List TlbEntry} {e : TlbEntry} (hpre : ∀ x ∈ pre, x.page ≠ e.page) :
    tlbFind (pre ++ e :: post) e.page = some e := by
  rw [tlbFind, List.find?_append, ← tlbFind, tlbFind_none.2 hpre]
  simp [slotMatches]

/-- The removal takes out the first entry of the page and keeps the order of the others (R86, R88). -/
theorem tlbRemove_append {pre post : List TlbEntry} {e : TlbEntry} (hpre : ∀ x ∈ pre, x.page ≠ e.page) :
    tlbRemove (pre ++ e :: post) e.page = pre ++ post := by
  rw [tlbRemove, List.eraseP_append_right _ (by simpa [slotMatches] using hpre),
    List.eraseP_cons_of_pos (by simp [slotMatches])]

/-- A hit (R86). -/
theorem tlbLookup_of_hit {s : State} {pre post : List TlbEntry} {e : TlbEntry} (htlb : s.tlb = pre ++ e :: post)
    (hp : e.page = s.p) (hpre : ∀ x ∈ pre, x.page ≠ s.p) :
    tlbLookup s = { s with tlb := pre ++ post ++ [e], hit := true, f := e.frame } := by
  rw [← hp] at hpre
  have hfind := tlbFind_append (post := post) hpre
  rw [tlbLookup, htlb, ← hp, tlbTouch_hit hfind, tlbRemove_append hpre, lookupFrame, hfind, Option.isSome_some]

/-- A miss (R86, log 16). -/
theorem tlbLookup_of_miss {s : State} (h : ∀ x ∈ s.tlb, x.page ≠ s.p) : tlbLookup s = { s with hit := false } := by
  have hfind := tlbFind_none.2 h
  rw [tlbLookup, tlbTouch_miss hfind, lookupFrame, hfind, Option.isSome_none]

theorem ptLookup_of_present {s : State} (h : (ptAt s s.p).present = true) :
    ptLookup s = { s with ent := some (ptAt s s.p) } := by
  rw [ptLookup, if_pos h]

theorem ptLookup_of_absent {s : State} (h : (ptAt s s.p).present = false) : ptLookup s = { s with ent := none } := by
  rw [ptLookup, if_neg (by rw [h]; decide)]

end Sys2Proof.Laws
end

section
/-! The statements of spec/30_encoding.md: the decoder and the encoder, the host command port, and the answers of RDSTAT,
TLB.LOOKUP and PT.LOOKUP. -/

namespace Sys2Proof.Proofs

open Sys2Proof.Machine Sys2Proof.Laws

/-- Settles O1: one direction of `decodeWord_ok_iff`. -/
theorem decodeOfEncodeIsTheInstruction : Obligations.DecodeOfEncodeIsTheInstruction :=
  fun _ hwf => decodeWord_ok_iff.2 ⟨hwf, rfl⟩

/-- Settles O2: the other direction of `decodeWord_ok_iff`. -/
theorem encodeOfDecodeIsTheWord : Obligations.EncodeOfDecodeIsTheWord :=
  fun _ _ h => decodeWord_ok_iff.1 h

/-- Settles O4: the port decodes exactly the legal words, and what a step does with any other word. -/
theorem hostPortAcceptsExactlyTheLegalWords : Obligations.HostPortAcceptsExactlyTheLegalWords :=
  ⟨decodeHost_ok_iff_legal, fun _ _ _ hb hi hw =>
    ⟨fun he => step_word_of_illegal hb hi he hw, fun he => step_word_of_error hb hi he⟩⟩

/-- Settles O24: the list laws of a hit and of a miss. -/
theorem tlbLookupRefreshesTheHitEntry : Obligations.TlbLookupRefreshesTheHitEntry :=
  fun _ => ⟨fun _ _ _ htlb hp hpre => congrArg _ (tlbLookup_of_hit htlb hp hpre),
    fun h => congrArg _ (tlbLookup_of_miss h)⟩

/-- Settles O3: the listed words are closed facts; the listing formula is `encode_toNat` with the operand's own fields. -/
theorem listedWordsDecode : Obligations.ListedWordsDecode := by
  refine ⟨rfl, rfl, rfl, rfl, rfl, rfl, rfl, rfl, rfl, rfl, rfl, rfl, rfl, rfl, rfl, rfl, fun f p => ?_, fun sel => ?_⟩
  · have hopc : (opcodeOf (.init f p)).toNat = 1 := rfl
    rw [encode_toNat, operandOf_init_toNat, hopc]; omega
  · have hopc : (opcodeOf (.rdstat sel)).toNat = 4 := rfl
    rw [encode_toNat, operandOf_rdstat_toNat, hopc]; omega

/-- Settles O5: the port, where a host command in ERROR is refused either way, and the bus. -/
theorem stepRunsTheDecodedInstruction : Obligations.StepRunsTheDecodedInstruction :=
  ⟨fun _ _ _ _ => step_word_of_host, fun _ _ _ => step_bus_of_micro⟩

/-- Settles O14: an accepted RDSTAT is `readStatus`, which answers selector by selector. -/
theorem rdstatReadsTheSelectedRegister : Obligations.RdstatReadsTheSelectedRegister := by
  intro s hs
  simp only [exec_rdstat_of_ne_error _ hs]
  exact ⟨rfl, rfl, rfl, rfl, rfl, rfl, rfl, rfl, rfl, rfl, fun _ h => congrArg _ (readStatus_of_reserved h)⟩

/-- Settles O28: the two answers of PT.LOOKUP; residency is `resident_ptLookup`. -/
theorem ptLookupAnswersTheEntry : Obligations.PtLookupAnswersTheEntry := by
  refine fun s => ⟨fun h => congrArg _ (ptLookup_of_present h), fun h => congrArg _ (ptLookup_of_absent h), ?_⟩
  rintro t ⟨⟩
  rw [resident_ptLookup, isActive_iff, ptLookup_ptAt, ptLookup_p]

end Sys2Proof.Proofs
end

section
/-! SUPPORT. Which words DECODE accepts and how it splits them, RUN up to a given reference, and everything a
micro-operation can write (R64, R80, R172, R192). -/

namespace Sys2Proof.Laws

open Sys2Proof.Machine

/-! ### The split of a reference word -/

/-- A word is malformed exactly when it is 65536 or more, wherever it comes from (R44, R80). -/
theorem malformed_eq_false_iff (w : Word) : malformed w = false ↔ w.toNat < 65536 :=
  (wordGood_iff (env := { Env.reset with refWords := [w] }) (i := 0)).symm

theorem addressOf_toNat (w : Word) : (addressOf w).toNat = w.toNat % 65536 := by
  simp [addressOf, BitVec.extractLsb'_toNat]

theorem offset_toNat (w : Word) : (offsetOf (addressOf w)).toNat = w.toNat % 256 := by
  simp [offsetOf, addressOf, BitVec.extractLsb'_toNat]

theorem decodeReference_of_lt {s : State} (h : s.wRef.toNat < 65536) : decodeReference s =
    .ok { s with la := addressOf s.wRef, p := pageOf (addressOf s.wRef), off := offsetOf (addressOf s.wRef) } := by
  rw [decodeReference, (malformed_eq_false_iff _).2 h]
  rfl

theorem decodeReference_of_ge {s : State} (h : 65536 ≤ s.wRef.toNat) : decodeReference s = .error .inputMalformed := by
  have hm : malformed s.wRef ≠ false := fun hf => absurd ((malformed_eq_false_iff _).1 hf) (Nat.not_lt.2 h)
  rw [decodeReference, if_pos (Bool.eq_true_of_not_eq_false hm)]

theorem exec_decode (s : State) : exec .decode s = .next (settle s (decodeReference s)) := rfl

/-! ### RUN up to a given reference -/

/-- A malformed word is the first error of XLATE (R198). -/
theorem xlate_of_malformed {s : State} (h : ¬ WordGood s.env s.clock) : xlate s = .error .inputMalformed := by
  rw [wordGood_iff] at h
  rw [xlate_outcomes, if_pos (Bool.eq_true_of_not_eq_false h)]

theorem runLoop_of_malformed (n : Nat) {s : State} (lt : s.clock < s.refN) (h : ¬ WordGood s.env s.clock) :
    runLoop (n + 1) s = raise .inputMalformed s := by
  rw [runLoop, if_pos lt, xlate_of_malformed h]

/-- What a RUN from `s` has done when `fs.length` references are processed and it is at state `t`: their records are sent,
in order, and the setup and the invariant of READY are kept (R172, R161). -/
structure Processed (s : State) (fs : List Index) (t : State) : Prop where
  running : Running t
  setup : SetupKept s t
  clock : t.clock = s.clock + fs.length
  out : t.out = s.out ++ recordsFrom s.env s.clock fs

theorem Processed.nil {s : State} (h : Running s) : Processed s [] s :=
  ⟨h, .refl s, rfl, (List.append_nil _).symm⟩

/-- The reference at CLOCK, then those after it. -/
theorem Processed.cons {s u t : State} {fs : List Index} (h : Running s) (lt : s.clock < s.refN) (hx : xlate s = .ok u)
    (hp : Processed (respond u (recordOf u)) fs t) : Processed s (u.f :: fs) t := by
  obtain ⟨run, hsetup, hclock, hout⟩ := hp
  obtain ⟨-, -, hnext, -, -, -, -, henv, -, hsent, -⟩ := xlate_frame hx
  refine ⟨run, ((setupKept_xlate hx).trans (setupKept_respond _ _)).trans hsetup, ?_, ?_⟩
  · rw [hclock, respond_clock, hnext, List.length_cons]; omega
  · rw [hout, respond_out, respond_env, respond_clock, henv, hnext, hsent, xlate_record h lt hx, recordsFrom]
    simp

/-- RUN over `j` well-formed words on a readable store, without OPT, processes them and goes on from there (R172). -/
theorem runLoop_prefix (j n : Nat) (s : State) (h : Running s) (hst : StoreReadable s.env) (hp : s.cfgPolicy ≠ policyOpt)
    (hj : s.clock + j ≤ s.refN) (hw : ∀ i, s.clock ≤ i → i < s.clock + j → WordGood s.env i) :
    ∃ fs t, fs.length = j ∧ Processed s fs t ∧ runLoop (j + n) s = runLoop n t := by
  induction j generalizing s with
  | zero => exact ⟨[], s, rfl, .nil h, by rw [Nat.zero_add]⟩
  | succ j ih =>
    have lt : s.clock < s.refN := by omega
    obtain ⟨u, hx⟩ := xlate_total h hst (hw _ (Nat.le_refl _) (by omega)) (absurd · hp)
    obtain ⟨-, hpolicy, hnext, hrefN, -, -, -, henv, -⟩ := xlate_frame hx
    obtain ⟨fs, t, hlen, hproc, hrun⟩ := ih (respond u (recordOf u)) (running_respond _ (running_xlate h lt hx))
      (by rwa [respond_env, henv]) (by rwa [respond_cfgPolicy, hpolicy])
      (by rw [respond_clock, respond_refN, hnext, hrefN]; omega)
      (by
        rw [respond_clock, respond_env, hnext, henv]
        exact fun i hi hi' => hw i (by omega) (by omega))
    exact ⟨u.f :: fs, t, congrArg (· + 1) hlen, .cons h lt hx hproc,
      by rw [Nat.add_right_comm, runLoop, if_pos lt, hx, ← hrun]⟩

/-! ### What a micro-operation writes -/

/-- What a micro-operation that raises no error leaves of `s`: for each code of R65 the registers its rule names as results,
holding whatever values, and for FR.FILL the bytes of frame F. In ERROR a raise is answered and writes nothing (log 5). -/
inductive MicroWrites (s : State) : Instr → State → Prop
  | decode la p off : MicroWrites s .decode { s with la := la, p := p, off := off }
  | tlbLookup tlb hit f : MicroWrites s .tlbLookup { s with tlb := tlb, hit := hit, f := f }
  | tlbInsert tlb : MicroWrites s .tlbInsert { s with tlb := tlb }
  | tlbInval tlb : MicroWrites s .tlbInval { s with tlb := tlb }
  | ptLookup ent : MicroWrites s .ptLookup { s with ent := ent }
  | ptRecfault pt : MicroWrites s .ptRecfault { s with pt := pt }
  | ptRechit pt : MicroWrites s .ptRechit { s with pt := pt }
  | ptDeact pt : MicroWrites s .ptDeact { s with pt := pt }
  | bsRead blk : MicroWrites s .bsRead { s with blk := blk }
  | faAlloc tlb pt nextFree f vict :
    MicroWrites s .faAlloc { s with tlb := tlb, pt := pt, nextFree := nextFree, f := f, vict := vict }
  | rpSelect vict : MicroWrites s .rpSelect { s with vict := vict }
  | rpFifo vict free : MicroWrites s .rpFifo { s with vict := vict, free := free }
  | rpLru vict free : MicroWrites s .rpLru { s with vict := vict, free := free }
  | rpOpt vict free : MicroWrites s .rpOpt { s with vict := vict, free := free }
  | frFill : MicroWrites s .frFill (frFill s)
  | frXbyte raw sb : MicroWrites s .frXbyte { s with raw := raw, sb := sb }
  | clkAdv clock : MicroWrites s .clkAdv { s with clock := clock }
  | refused i (herr : s.runState = .error) : MicroWrites s i (refuse s)

/-- A micro-operation that may raise, but raised no error outside ERROR, writes what it writes when it completes. -/
theorem microWrites_settle {s : State} {i : Instr} {r : Except ErrKind State}
    (hquiet : (settle s r).runState = .error → s.runState = .error) (hr : ∀ t, r = .ok t → MicroWrites s i t) :
    MicroWrites s i (settle s r) := by
  obtain ⟨t, ht, e⟩ | ⟨k, -, e⟩ := settle_cases s r <;> rw [e] at hquiet ⊢
  · exact hr t ht
  · have herr := hquiet (raise_runState k s)
    rw [raise_of_error herr]
    exact .refused i herr

/-- Every micro-operation that raises no error writes its own results only. -/
theorem microWrites_exec {i : Instr} {s t : State} (hi : isHostCommand i = false) (he : exec i s = .next t)
    (hquiet : t.runState = .error → s.runState = .error) : MicroWrites s i t := by
  cases i <;> cases he
  case init => cases hi
  case step => cases hi
  case run => cases hi
  case rdstat => cases hi
  case decode =>
    refine microWrites_settle hquiet fun t ht => ?_
    obtain ⟨-, rfl⟩ := decodeReference_ok ht
    exact .decode ..
  case bsRead =>
    refine microWrites_settle hquiet fun t ht => ?_
    obtain ⟨-, -, rfl⟩ := bsRead_ok ht
    exact .bsRead _
  case faAlloc =>
    refine microWrites_settle hquiet fun t ht => ?_
    obtain ⟨-, rfl⟩ | ⟨-, v, -, rfl⟩ := faAlloc_cases ht
    · exact .faAlloc ..
    · exact .faAlloc ..
  case rpSelect =>
    refine microWrites_settle hquiet fun t ht => ?_
    obtain ⟨v, -, rfl⟩ := rpSelect_ok ht
    exact .rpSelect v
  case rpOpt =>
    refine microWrites_settle hquiet fun t ht => ?_
    obtain ⟨c, rfl⟩ := rpOpt_ok ht
    exact .rpOpt ..
  -- The others cannot raise: what they write is the update their definition states.
  all_goals constructor

end Sys2Proof.Laws
end

section
/-! The statements of spec/40_address_decoder.md: DECODE, the malformed word in a RUN, and the frame of the
micro-operations. -/

namespace Sys2Proof.Proofs

open Sys2Proof.Machine Sys2Proof.Laws

/-- Settles O18: RUN processes the references before word k (`runLoop_prefix`), and XLATE raises on that word. -/
theorem runStopsAtTheFirstMalformedWord : Obligations.RunStopsAtTheFirstMalformedWord := by
  intro s k h hr hst hp hle lt hw hk
  obtain ⟨n, hn⟩ : ∃ n, s.refN - s.clock = k - s.clock + (n + 1) := ⟨s.refN - k - 1, by omega⟩
  obtain ⟨fs, t, hlen, ⟨-, hsetup, hclock, hout⟩, hrun⟩ := runLoop_prefix (k - s.clock) (n + 1) s (h.running hr) hst hp
    (by omega) fun i hi hi' => hw i hi (by omega)
  have hat : t.clock = k := by omega
  have hraise : runBody s = raise .inputMalformed t := by
    rw [runBody, hn, hrun]
    exact runLoop_of_malformed n (by rwa [hat, hsetup.refN]) (by rwa [hat, hsetup.env])
  have hready : t.runState ≠ .error := by rw [hsetup.runState, hr]; decide
  refine ⟨_, fs, exec_run_of_ready hr, ?_⟩
  rw [hraise, raise_of_ne hready]
  exact ⟨rfl, rfl, hlen, by rw [hout]; rfl⟩

/-- Settles O23: the two outcomes of DECODE, with the parts of the word as numbers. -/
theorem decodeSplitsTheReferenceWord : Obligations.DecodeSplitsTheReferenceWord := by
  refine fun s => ⟨fun h => ?split, fun h => ?raise⟩
  case split =>
    rw [exec_decode, decodeReference_of_lt h]
    exact ⟨_, rfl, (addressOf_toNat _).trans (Nat.mod_eq_of_lt h), (page_toNat _).trans (Nat.mod_eq_of_lt (by omega)),
      offset_toNat _, rfl⟩
  case raise =>
    rw [exec_decode, decodeReference_of_ge h]
    rfl

/-- Settles O42: the results of each micro-operation are those `MicroWrites` lists for it; the bytes FR.FILL leaves are
those outside frame F. -/
theorem microOperationsWriteOnlyTheirResults : Obligations.MicroOperationsWriteOnlyTheirResults := by
  intro i s t hi he hquiet
  have hw := microWrites_exec hi he hquiet
  cases hw
  case frFill =>
    simpa using fun a => memRead_frFill_outside s (a := a)
  case refused => simp [refuse]
  all_goals simp [ptAt]

end Sys2Proof.Proofs
end

section
/-! SUPPORT. What TLB.INSERT and TLB.INVAL leave of the TLB, and what a reference to a cached page does (R85 to R89). -/

namespace Sys2Proof.Laws

open Sys2Proof.Machine

/-! ### TLB.INSERT -/

/-- Below its capacity the TLB keeps every entry (R87). -/
theorem tlbAppend_of_ne {tlb : List TlbEntry} {x : TlbEntry} (h : tlb.length ≠ tlbCapacity) :
    tlbAppend tlb x = tlb ++ [x] := by
  rw [tlbAppend, if_neg h]

/-- A full TLB drops its oldest entry (R87). -/
theorem tlbAppend_of_full {oldest x : TlbEntry} {rest : List TlbEntry} (h : (oldest :: rest).length = tlbCapacity) :
    tlbAppend (oldest :: rest) x = rest ++ [x] := by
  rw [tlbAppend, if_pos h, List.drop_one, List.tail_cons]

/-- Everything an append can leave: the pair at the newest end, after every entry or after all but the one at slot 0. -/
theorem tlbAppend_cases (tlb : List TlbEntry) (x : TlbEntry) :
    tlbAppend tlb x = tlb ++ [x] ∨ ∃ slot0 rest, tlb = slot0 :: rest ∧ tlbAppend tlb x = rest ++ [x] := by
  by_cases hfull : tlb.length = tlbCapacity
  · cases tlb with
    | nil => cases hfull
    | cons slot0 rest => exact .inr ⟨slot0, rest, rfl, tlbAppend_of_full hfull⟩
  · exact .inl (tlbAppend_of_ne hfull)

/-- An appended pair is found when no older entry has its page (R89 law 1). -/
theorem tlbFind_tlbAppend {tlb : List TlbEntry} {x : TlbEntry} (h : ∀ e ∈ tlb, e.page ≠ x.page) :
    tlbFind (tlbAppend tlb x) x.page = some x := by
  obtain happend | ⟨slot0, rest, rfl, happend⟩ := tlbAppend_cases tlb x <;> rw [happend]
  · exact tlbFind_append h
  · exact tlbFind_append fun e he => h e (List.mem_cons_of_mem _ he)

theorem tlbAdd_nodup {tlb : List TlbEntry} {x : TlbEntry} (h : (tlb.map TlbEntry.page).Nodup) :
    ((tlbAdd tlb x).map TlbEntry.page).Nodup := by
  by_cases hx : ∃ e ∈ tlb, e.page = x.page
  · rwa [tlbAdd_present hx]
  · have hnone := tlbFind_none.2 fun e he hp => hx ⟨e, he, hp⟩
    rw [tlbAdd_absent hnone]
    exact tlbAppend_nodup h hnone

theorem tlbInsert_of_present {s : State} (h : ∃ x ∈ s.tlb, x.page = s.p) : tlbInsert s = s := by
  rw [tlbInsert, tlbAdd_present h]

theorem tlbInsert_of_absent {s : State} (h : ∀ x ∈ s.tlb, x.page ≠ s.p) :
    tlbInsert s = { s with tlb := tlbAppend s.tlb { page := s.p, frame := s.f } } := by
  rw [tlbInsert, tlbAdd_absent (tlbFind_none.2 h)]

/-! ### TLB.INVAL and TLB.LOOKUP -/

theorem tlbRemove_absent {tlb : List TlbEntry} {p : Index} (h : ∀ x ∈ tlb, x.page ≠ p) : tlbRemove tlb p = tlb :=
  List.eraseP_of_forall_not (by simpa [slotMatches] using h)

/-- A removal takes out nothing, or one entry of the page (R89 law 4). -/
theorem tlbRemove_cases (tlb : List TlbEntry) (p : Index) :
    tlbRemove tlb p = tlb ∨ ∃ e, e.page = p ∧ tlb.Perm (e :: tlbRemove tlb p) := by
  cases hfind : tlbFind tlb p with
  | none => exact .inl (tlbRemove_absent (tlbFind_none.1 hfind))
  | some e =>
    obtain ⟨-, hpage⟩ := tlbFind_some hfind
    exact .inr ⟨e, hpage, (tlbRemove_perm hfind).symm.trans (List.perm_append_singleton ..)⟩

theorem tlbRemove_nodup {tlb : List TlbEntry} (p : Index) (h : (tlb.map TlbEntry.page).Nodup) :
    ((tlbRemove tlb p).map TlbEntry.page).Nodup :=
  h.sublist ((tlbRemove_sublist tlb p).map _)

/-- A lookup permutes the entries (R89 law 4). -/
theorem tlbTouch_perm (tlb : List TlbEntry) (p : Index) : (tlbTouch tlb p).Perm tlb := by
  cases hfind : tlbFind tlb p with
  | none => rw [tlbTouch_miss hfind]
  | some e => rw [tlbTouch_hit hfind]; exact tlbRemove_perm hfind

theorem tlbTouch_nodup {tlb : List TlbEntry} (p : Index) (h : (tlb.map TlbEntry.page).Nodup) :
    ((tlbTouch tlb p).map TlbEntry.page).Nodup :=
  ((tlbTouch_perm tlb p).map _).nodup_iff.2 h

theorem tlbInval_of_cached {s : State} {pre post : List TlbEntry} {e : TlbEntry} (htlb : s.tlb = pre ++ e :: post)
    (hp : e.page = s.vict) (hpre : ∀ x ∈ pre, x.page ≠ s.vict) : tlbInval s = { s with tlb := pre ++ post } := by
  rw [← hp] at hpre
  rw [tlbInval, htlb, ← hp, tlbRemove_append hpre]

theorem tlbInval_of_absent {s : State} (h : ∀ x ∈ s.tlb, x.page ≠ s.vict) : tlbInval s = s := by
  rw [tlbInval, tlbRemove_absent h]

/-! ### A reference to a cached page -/

/-- A STEP that ends in READY with a reference left ran XLATE and answered its record (R171). -/
theorem xlate_of_exec_step {s t : State} (he : exec .step s = .next t) (hr : t.runState = .ready)
    (lt : s.clock < s.refN) : ∃ u, xlate s = .ok u ∧ t = respond u (recordOf u) := by
  obtain ⟨-, ⟨hend, -⟩ | ⟨-, hx⟩⟩ := step_ready he (by rw [hr]; decide)
  · exact absurd hend (Nat.ne_of_lt lt)
  · exact hx

/-- The record XLATE leaves carries its page's block of the backing store (R73, R31). -/
theorem recordOf_xlate {s t : State} (h : Running s) (lt : s.clock < s.refN) (hx : xlate s = .ok t) :
    recordOf t = .record t.la t.sb t.f (blockOf fun k => storeByte s.env (addrOf t.p k)) := by
  obtain ⟨hact, hframe, -⟩ := xlate_resolved h hx
  have hblock := frameBlock_of_active (running_xlate h lt hx) hact
  rw [hframe, xlate_env hx] at hblock
  rw [recordOf, hblock]

/-- A reference to a page in the TLB is a hit that delivers the frame of the page table, which the TLB mirrors (R27, R148). -/
theorem xlate_of_cached {s t : State} (h : Running s) (hx : xlate s = .ok t)
    (hc : ∃ e ∈ s.tlb, e.page = (decoded s).p) :
    t.tlbHits = s.tlbHits + 1 ∧ t.f = (ptAt s (decoded s).p).frame := by
  have hfound : tlbFind s.tlb (decoded s).p ≠ none := fun hmiss =>
    let ⟨c, hcm, hcp⟩ := hc
    tlbFind_none.1 hmiss c hcm hcp
  obtain ⟨-, ⟨e, hfind, rfl⟩ | ⟨hmiss, -⟩ | ⟨hmiss, -⟩⟩ := xlate_cases hx
  · obtain ⟨hmem, hpage⟩ := tlbFind_some hfind
    obtain ⟨-, hframe⟩ := h.tlbActive e hmem
    rw [← hpage, hframe]
    exact ⟨by simp, by simp [-decoded_p, lookupFrame, hfind]⟩
  · exact absurd hmiss hfound
  · exact absurd hmiss hfound

end Sys2Proof.Laws
end

section
/-! The statements of spec/41_tlb_cache.md: TLB.INSERT, TLB.INVAL, the laws of the TLB operations, and a page repeated. -/

namespace Sys2Proof.Proofs

open Sys2Proof.Machine Sys2Proof.Laws

/-- Settles O25: an absent page is appended, and the length decides whether the oldest entry is dropped. -/
theorem tlbInsertAppendsAnAbsentPage : Obligations.TlbInsertAppendsAnAbsentPage := by
  refine fun s => ⟨fun h => congrArg _ (tlbInsert_of_present h), fun habsent hlt => congrArg Host.Outcome.next ?room,
    fun oldest rest htlb hlen habsent => congrArg Host.Outcome.next ?full⟩
  case room => rw [tlbInsert_of_absent habsent, tlbAppend_of_ne (Nat.ne_of_lt hlt)]
  case full =>
    have hfull : (oldest :: rest).length = tlbCapacity := congrArg (· + 1) hlen
    rw [tlbInsert_of_absent habsent, htlb, tlbAppend_of_full hfull]

/-- Settles O26: the list laws of a removal. -/
theorem tlbInvalRemovesTheVictimsEntry : Obligations.TlbInvalRemovesTheVictimsEntry :=
  fun _ => ⟨fun _ _ _ htlb hp hpre => congrArg _ (tlbInval_of_cached htlb hp hpre),
    fun h => congrArg _ (tlbInval_of_absent h)⟩

/-- Settles O27, law by law: each is a law of the list operation the micro-operation performs. -/
theorem tlbOperationsKeepTheTlbLaws : Obligations.TlbOperationsKeepTheTlbLaws := by
  refine ⟨?insertHits, ?invalMisses, ?kept, ?lookupPerm, ?invalRemoves, ?insertWrites⟩
  case insertHits =>
    rintro s t habsent ⟨⟩
    have hfind := tlbFind_tlbAppend (x := { page := s.p, frame := s.f }) habsent
    rw [tlbInsert_of_absent habsent]
    exact ⟨_, rfl, by simp [hfind], by simp [lookupFrame, hfind]⟩
  case invalMisses =>
    rintro s t hnodup ⟨⟩
    have hfind := tlbFind_none.2 (not_mem_tlbRemove (p := s.vict) hnodup)
    exact ⟨_, rfl, by simp [hfind]⟩
  case kept =>
    rintro s t i (rfl | rfl | rfl) hnodup hlen ⟨⟩
    · exact ⟨tlbTouch_nodup _ hnodup, (tlbTouch_length _ _).trans_le hlen⟩
    · exact ⟨tlbAdd_nodup hnodup, tlbAdd_length hlen⟩
    · exact ⟨tlbRemove_nodup _ hnodup, (tlbRemove_sublist _ _).length_le.trans hlen⟩
  case lookupPerm =>
    rintro s t ⟨⟩
    exact tlbTouch_perm _ _
  case invalRemoves =>
    rintro s t ⟨⟩
    exact tlbRemove_cases _ _
  case insertWrites =>
    rintro s t ⟨⟩
    by_cases hp : ∃ x ∈ s.tlb, x.page = s.p
    · exact .inl (tlbAdd_present hp)
    · right
      rw [tlbInsert_of_absent fun x hx hxp => hp ⟨x, hx, hxp⟩]
      exact tlbAppend_cases _ _

/-- Settles O59: the first STEP leaves the page's mapping in the TLB (`xlate_resolved`), so the second hits it
(`xlate_of_cached`); both records carry the page's block of the backing store (`recordOf_xlate`). -/
theorem samePageTwiceHitsTheTlb : Obligations.SamePageTwiceHitsTheTlb := by
  intro s t u h hr lt hpage hst htr htu hur
  have run := h.running hr
  have lt0 : s.clock < s.refN := Nat.lt_of_succ_lt lt
  obtain ⟨v, hv, rfl⟩ := xlate_of_exec_step hst htr lt0
  obtain ⟨-, -, hclock, hrefN, -, -, -, henv, -, hout, -, -, hp, -⟩ := xlate_frame hv
  obtain ⟨-, hframe, -, -, hcached⟩ := xlate_resolved run hv
  have run1 := running_respond (recordOf v) (running_xlate run lt0 hv)
  have lt1 : (respond v (recordOf v)).clock < (respond v (recordOf v)).refN := by
    rwa [respond_clock, respond_refN, hclock, hrefN]
  obtain ⟨w, hw, rfl⟩ := xlate_of_exec_step htu hur lt1
  obtain ⟨-, -, -, -, -, -, -, -, -, hout1, -, -, hp1, -⟩ := xlate_frame hw
  have hsame : pageOf (addressOf (refWord (respond v (recordOf v)).env (respond v (recordOf v)).clock)) = v.p := by
    rw [respond_env, respond_clock, henv, hclock, hp, hpage]
  obtain ⟨hhits, hf⟩ := xlate_of_cached run1 hw (by rw [decoded_p, hsame]; exact hcached)
  rw [decoded_p, hsame, respond_ptAt, hframe] at hf
  refine ⟨hhits, hf, v.la, v.sb, w.la, w.sb, blockOf fun k => storeByte s.env (addrOf v.p k), ?first, ?second⟩
  case first => rw [respond_out, hout, recordOf_xlate run lt0 hv, respond_f]
  case second => rw [respond_out, hout1, recordOf_xlate run1 lt1 hw, respond_env, henv, hp1, hsame, hf, respond_f]

end Sys2Proof.Proofs
end

section
/-! SUPPORT. The one write to the page table: what it leaves at its own page, at the others, and beside the table (R101 to
R103). -/

namespace Sys2Proof.Laws

open Sys2Proof.Machine

@[simp] theorem ptAt_ptPut_same (s : State) (p : Index) (e : PtEntry) : ptAt (ptPut s p e) p = e := by
  rw [ptAt_ptPut, if_pos rfl]

theorem ptAt_ptPut_of_ne (s : State) {p q : Index} (e : PtEntry) (h : q ≠ p) : ptAt (ptPut s p e) q = ptAt s q := by
  rw [ptAt_ptPut, if_neg h]

/-- A write to the page table puts the entry at its page, and keeps every other entry and everything else. -/
theorem ptPut_writes_one_entry (s : State) (p : Index) (e : PtEntry) :
    ptAt (ptPut s p e) p = e ∧ (∀ q, q ≠ p → ptAt (ptPut s p e) q = ptAt s q) ∧
      ptPut s p e = { s with pt := (ptPut s p e).pt } :=
  ⟨ptAt_ptPut_same s p e, fun _ => ptAt_ptPut_of_ne s e, rfl⟩

end Sys2Proof.Laws
end

section
/-! The statements of spec/42_page_table.md on its writers: PT.RECFAULT, PT.RECHIT and PT.DEACT each write one entry, at P
or at VICT. -/

namespace Sys2Proof.Proofs

open Sys2Proof.Machine Sys2Proof.Laws

/-- Settles O29: PT.RECFAULT is one write to the page table, at page P. -/
theorem ptRecfaultCreatesTheEntry : Obligations.PtRecfaultCreatesTheEntry :=
  fun s => ⟨ptRecfault s, rfl, ptPut_writes_one_entry s s.p _⟩

/-- Settles O30: PT.RECHIT is one write to the page table, at page P, whatever entry stands there (log 14). -/
theorem ptRechitWritesLastRefOnly : Obligations.PtRechitWritesLastRefOnly :=
  fun s => ⟨ptRechit s, rfl, ptPut_writes_one_entry s s.p _⟩

/-- Settles O31: PT.DEACT is one write to the page table, at page VICT. -/
theorem ptDeactClearsActiveOnly : Obligations.PtDeactClearsActiveOnly :=
  fun s => ⟨ptDeact s, rfl, ptPut_writes_one_entry s s.vict _⟩

end Sys2Proof.Proofs
end

section
/-! SUPPORT. The two outcomes of a block read of the backing store, and so of BS.READ (R56, R115). -/

namespace Sys2Proof.Laws

open Sys2Proof.Machine

theorem storeShort_iff {env : Env} : storeShort env = true ↔ env.bsLen < 65536 := by
  rw [storeShort, decide_eq_true_eq]

/-- A block is bad exactly when one of its 256 addresses is in BS_BAD. -/
theorem blockBad_iff {env : Env} {p : Index} : blockBad env p = true ↔ ∃ k < 256, addrOf p k ∈ env.bsBad := by
  simp only [blockBad, List.any_eq_true, Bool.and_eq_true, decide_eq_true_eq]
  simp only [addrOf]
  constructor
  · rintro ⟨a, ha, hge, hlt⟩
    have hsplit : p.toNat * 256 + (a - p.toNat * 256) = a := by omega
    exact ⟨a - p.toNat * 256, by omega, by rwa [hsplit]⟩
  · rintro ⟨k, hk, ha⟩
    exact ⟨p.toNat * 256 + k, ha, by omega, by omega⟩

theorem storeBlock_of_readable {env : Env} {p : Index} (hlen : 65536 ≤ env.bsLen)
    (hgood : ∀ k < 256, addrOf p k ∉ env.bsBad) :
    storeBlock env p = .ok (blockOf fun k => storeByte env (addrOf p k)) := by
  have hshort : ¬ storeShort env = true := fun h => Nat.not_lt.2 hlen (storeShort_iff.1 h)
  have hbad : ¬ blockBad env p = true := fun h =>
    let ⟨k, hk, ha⟩ := blockBad_iff.1 h
    hgood k hk ha
  rw [storeBlock, if_neg hshort, if_neg hbad]

theorem storeBlock_of_unreadable {env : Env} {p : Index}
    (h : env.bsLen < 65536 ∨ ∃ k < 256, addrOf p k ∈ env.bsBad) : storeBlock env p = .error .backingStore := by
  rw [storeBlock]
  obtain hshort | hbad := h
  · rw [if_pos (storeShort_iff.2 hshort)]
  · rw [if_pos (blockBad_iff.2 hbad), ite_self]

theorem exec_bsRead_of_ok {s : State} {blk : Block} (h : storeBlock s.env s.p = .ok blk) :
    exec .bsRead s = .next { s with blk := blk } := by
  change Host.Outcome.next (settle s (bsRead s)) = _
  rw [bsRead, h]
  rfl

theorem exec_bsRead_of_error {s : State} {e : ErrKind} (h : storeBlock s.env s.p = .error e) :
    exec .bsRead s = .next (raise e s) := by
  change Host.Outcome.next (settle s (bsRead s)) = _
  rw [bsRead, h]
  rfl

end Sys2Proof.Laws
end

section
/-! The statement of spec/43_backing_store.md on BS.READ. -/

namespace Sys2Proof.Proofs

open Sys2Proof.Machine Sys2Proof.Laws

/-- Settles O32: BS.READ ends as the block read of page P does, by whether that block can be read. -/
theorem bsReadFetchesTheBlock : Obligations.BsReadFetchesTheBlock := by
  refine fun s => ⟨fun hlen hgood => ?fetches, fun h => ?raises⟩
  case fetches =>
    exact ⟨_, exec_bsRead_of_ok (storeBlock_of_readable hlen hgood), blockOf_get _, rfl⟩
  case raises =>
    exact exec_bsRead_of_error (storeBlock_of_unreadable h)

end Sys2Proof.Proofs
end

section
/-! SUPPORT. How FA.ALLOC completes, what it and its calls raise, and which codes a step can leave in ERR_CODE (R120 to
R123, R130, R134, R136, R190 to R195). -/

namespace Sys2Proof.Laws

open Sys2Proof.Machine

/-! ### FA.ALLOC completes -/

theorem exec_faAlloc_of_ok {s t : State} (h : faAlloc s = .ok t) : exec .faAlloc s = .next t := by
  change Host.Outcome.next (settle s (faAlloc s)) = _
  rw [h]
  rfl

theorem exec_rpSelect_of_ok {s t : State} (h : rpSelect s = .ok t) : exec .rpSelect s = .next t := by
  change Host.Outcome.next (settle s (rpSelect s)) = _
  rw [h]
  rfl

/-- Of at most 256 frames, one that is left has an 8-bit number (R121, log 15). -/
theorem allocBump_f_toNat {s : State} (h : s.nextFree.toNat < 256) : (allocBump s).f.toNat = s.nextFree.toNat := by
  rw [allocBump_f, BitVec.toNat_setWidth, Nat.mod_eq_of_lt h]

theorem allocBump_nextFree_toNat {s : State} (h : s.nextFree.toNat < 256) :
    (allocBump s).nextFree.toNat = s.nextFree.toNat + 1 :=
  BitVec.toNat_add_of_lt (Nat.lt_trans (Nat.succ_lt_succ h) (by decide))

/-- With every frame in use the allocator evicts the victim RP.SELECT delivers, or raises what RP.SELECT raises (R122). -/
theorem faAlloc_of_full {s : State} (h : s.nextFree = s.cfgFrames) : faAlloc s = (rpSelect s).map allocEvict := by
  rw [faAlloc, h, if_neg (Nat.lt_irrefl _), if_neg (Nat.lt_irrefl _)]
  cases rpSelect s <;> rfl

/-- In a TLB that holds no page twice, a removal keeps the entries of all other pages, in order (R88, R122). -/
theorem tlbRemove_eq_filter {tlb : List TlbEntry} (p : Index) (h : (tlb.map TlbEntry.page).Nodup) :
    tlbRemove tlb p = tlb.filter fun e => e.page != p := by
  cases hfind : tlbFind tlb p with
  | none =>
    have habsent := tlbFind_none.1 hfind
    rw [tlbRemove_absent habsent, List.filter_eq_self.2 (by simpa using habsent)]
  | some e =>
    obtain ⟨hmem, rfl⟩ := tlbFind_some hfind
    obtain ⟨pre, post, rfl⟩ := List.append_of_mem hmem
    have hne : ∀ x ∈ pre ++ post, x.page ≠ e.page := by
      have hperm : ((e :: (pre ++ post)).map TlbEntry.page).Nodup := (List.perm_middle.map _).nodup_iff.1 h
      simpa [eq_comm, or_imp, forall_and] using (List.nodup_cons.1 hperm).1
    rw [tlbRemove_append fun x hx => hne x (List.mem_append_left _ hx), List.filter_append,
      List.filter_cons_of_neg (by simp), ← List.filter_append, List.filter_eq_self.2 (by simpa using hne)]

/-! ### A reference without a page fault -/

/-- A reference that counts no page fault writes no byte of the frame memory (R148, R151). -/
theorem xlate_memory_of_no_fault {s t : State} (h : xlate s = .ok t) (hp : t.pageFaults = s.pageFaults) :
    t.frame = s.frame := by
  obtain ⟨-, ⟨e, -, rfl⟩ | ⟨-, -, rfl⟩ | ⟨he, -, -, -, u, hu, rfl⟩⟩ := xlate_cases h
  · simp
  · simp
  · obtain ⟨-, -, -, -, -, -, hfaults, -⟩ := faAlloc_frame hu
    have hcount : u.pageFaults = s.pageFaults + 1 := hfaults.trans (faultPath s he).pageFaults
    exact absurd (hcount.symm.trans hp) (Nat.succ_ne_self _)

/-! ### What the replacement policy, the allocator and XLATE raise -/

theorem rpOpt_error {s : State} {e : ErrKind} (h : rpOpt s = .error e) : e = .inputMalformed := by
  by_cases hgood : FutureGood s
  · rw [rpOpt, future_ok hgood] at h; cases h
  · rw [rpOpt, future_error hgood] at h; cases h; rfl

/-- Everything RP.SELECT can raise: its two dead arms and what RP.OPT raises (R130, R134, R136). -/
theorem rpSelect_error {s : State} {e : ErrKind} (h : rpSelect s = .error e) :
    (e = .resourceExhaustion ∧ ∀ q, isActive s q = false) ∨ e = .inputMalformed ∨
    (e = .config ∧ s.cfgPolicy = policyReserved) := by
  unfold rpSelect at h
  split_ifs at h with hempty hfifo hlru hopt
  · cases h
    refine .inl ⟨rfl, fun q => ?_⟩
    rw [← Bool.not_eq_true, ← mem_activePages, List.isEmpty_iff.1 hempty]
    exact List.not_mem_nil
  · exact .inr (.inl (rpOpt_error h))
  · cases h
    have hcodes : ∀ p : BitVec 2, p ≠ policyFifo → p ≠ policyLru → p ≠ policyOpt → p = policyReserved := by decide
    exact .inr (.inr ⟨rfl, hcodes _ hfifo hlru hopt⟩)

/-- Everything FA.ALLOC can raise: the exhaustion guard, and with every frame in use what RP.SELECT raises (R122, R123). -/
theorem faAlloc_error {s : State} {e : ErrKind} (h : faAlloc s = .error e) :
    (e = .resourceExhaustion ∧ s.cfgFrames.toNat < s.nextFree.toNat) ∨
    (s.nextFree = s.cfgFrames ∧ rpSelect s = .error e) := by
  obtain hlt | heq | hgt := Nat.lt_trichotomy s.nextFree.toNat s.cfgFrames.toNat
  · rw [faAlloc_of_lt hlt] at h; cases h
  · have hfull := BitVec.eq_of_toNat_eq heq
    rw [faAlloc_of_full hfull] at h
    refine .inr ⟨hfull, ?_⟩
    cases hsel : rpSelect s <;> rw [hsel] at h <;> cases h
    rfl
  · rw [faAlloc, if_pos hgt] at h
    cases h
    exact .inl ⟨rfl, hgt⟩

/-- In READY the arms for corrupted state are dead: on the page-fault path FA.ALLOC raises for a malformed future only
(R123, R136). -/
theorem faAlloc_error_of_faultPath {s u : State} {e : ErrKind} (h : Running s) (hu : FaultPath s u)
    (he : faAlloc u = .error e) : e = .inputMalformed := by
  have hconfig := h.config
  simp only [configLegal, Bool.and_eq_true, decide_eq_true_eq, bne_iff_ne] at hconfig
  obtain ⟨⟨hpos, -⟩, hpolicy⟩ := hconfig
  have hbumped := h.bumped
  obtain ⟨-, hgt⟩ | ⟨hfull, hsel⟩ := faAlloc_error he
  · rw [hu.cfgFrames, hu.nextFree] at hgt
    omega
  · obtain ⟨-, hnone⟩ | hmalformed | ⟨-, hreserved⟩ := rpSelect_error hsel
    · rw [hu.nextFree, hu.cfgFrames] at hfull
      obtain ⟨q, hq, -⟩ := h.covered 0 (by rw [hfull]; exact hpos)
      have hactive : isActive u q = true := by rw [isActive_iff, hu.ptAt]; exact isActive_iff.1 hq
      rw [hnone q] at hactive
      cases hactive
    · exact hmalformed
    · exact absurd (hu.cfgPolicy ▸ hreserved) hpolicy

theorem storeBlock_error {env : Env} {p : Index} {e : ErrKind} (h : storeBlock env p = .error e) :
    e = .backingStore := by
  unfold storeBlock at h
  split_ifs at h <;> cases h <;> rfl

/-- In READY a reference raises InputMalformedError or BackingStoreError and no other (R192 to R194). -/
theorem xlate_error {s : State} {e : ErrKind} (h : Running s) (he : xlate s = .error e) :
    e = .inputMalformed ∨ e = .backingStore := by
  rw [xlate_outcomes] at he
  split_ifs at he with hm hhit hact
  · cases he; exact .inl rfl
  · cases hb : storeBlock s.env (decoded s).p with
    | error e' =>
      rw [hb] at he; cases he
      exact .inr (storeBlock_error hb)
    | ok blk =>
      obtain ⟨-, -, rfl⟩ := storeBlock_ok hb
      rw [hb] at he
      dsimp only at he
      have hpath := faultPath s (by simpa using hhit)
      cases ha : faAlloc { faulted s with blk := blockOf fun k => storeByte s.env (addrOf (decoded s).p k) } with
      | error e' =>
        rw [ha] at he; cases he
        exact .inl (faAlloc_error_of_faultPath h hpath ha)
      | ok u => rw [ha] at he; cases he

/-! ### The codes in ERR_CODE -/

/-- A code of ERR_CODE that neither an illegal configuration nor corrupted state leaves (R191, R193). -/
abbrev OrdinaryCode (c : BitVec 3) : Prop :=
  c ≠ errorCode .config ∧ c ≠ errorCode .resourceExhaustion

theorem ordinaryCode_command : OrdinaryCode (errorCode .command) := by decide

theorem ordinaryCode_raise {e : ErrKind} {s : State} (h : OrdinaryCode s.errCode) (he : OrdinaryCode (errorCode e)) :
    OrdinaryCode (raise e s).errCode := by
  rw [raise_errCode]
  split
  · exact h
  · exact he

theorem ordinaryCode_raise_xlate {s : State} {e : ErrKind} (run : Running s) (h : OrdinaryCode s.errCode)
    (he : xlate s = .error e) : OrdinaryCode (raise e s).errCode := by
  obtain rfl | rfl := xlate_error run he <;> exact ordinaryCode_raise h (by decide)

theorem ordinaryCode_accept {allowed : RunState → Bool} {s : State} {go : State → State} (h : OrdinaryCode s.errCode)
    (hgo : allowed s.runState = true → OrdinaryCode (go s).errCode) : OrdinaryCode (accept allowed s go).errCode := by
  obtain ⟨-, e⟩ | ⟨-, ha, e⟩ | ⟨-, -, e⟩ := accept_cases allowed s go <;> rw [e]
  · exact h
  · exact hgo ha
  · exact ordinaryCode_raise h ordinaryCode_command

theorem ordinaryCode_stepBody {s : State} (run : Running s) (h : OrdinaryCode s.errCode) :
    OrdinaryCode (stepBody s).errCode := by
  unfold stepBody processReference
  split
  · exact h
  · split
    · next t hx => rw [respond_errCode, (xlate_mode hx).2]; exact h
    · next e hx => exact ordinaryCode_raise_xlate run h hx

theorem ordinaryCode_runLoop (n : Nat) {s : State} (run : Running s) (h : OrdinaryCode s.errCode) :
    OrdinaryCode (runLoop n s).errCode := by
  induction n generalizing s with
  | zero => exact h
  | succ n ih =>
    rw [runLoop]
    split
    · next lt =>
      split
      · next t hx =>
        refine ih (running_respond _ (running_xlate run lt hx)) ?_
        rw [respond_errCode, (xlate_mode hx).2]
        exact h
      · next e hx => exact ordinaryCode_raise_xlate run h hx
    · exact h

theorem ordinaryCode_readStatus (sel : BitVec 4) {s : State} (h : OrdinaryCode s.errCode) :
    OrdinaryCode (readStatus sel s).errCode := by
  unfold readStatus
  split
  · exact h
  · exact ordinaryCode_raise h ordinaryCode_command

/-- From the invariant a host command leaves an ordinary code in ERR_CODE, or it is an INIT with illegal operands and
leaves ConfigError's (R170, R191). -/
theorem ordinaryCode_exec {i : Instr} {s t : State} (hi : isHostCommand i = true) (inv : UnitInv s)
    (h : OrdinaryCode s.errCode) (he : exec i s = .next t) :
    OrdinaryCode t.errCode ∨ ∃ f p, i = .init f p ∧ configLegal f p = false ∧ t.errCode = errorCode .config := by
  cases i <;> cases he
  case init f p =>
    obtain ⟨-, e⟩ | ⟨hne, -, e⟩ | ⟨-, -, e⟩ := accept_cases initAllowed s (configure f p) <;> rw [e]
    · exact .inl h
    · cases hc : configLegal f p with
      | false => exact .inr ⟨f, p, rfl, hc, by rw [configure, hc, if_neg (by decide), raise_errCode, if_neg hne]⟩
      | true => exact .inl (by rw [configure, if_pos hc]; exact h)
    · exact .inl (ordinaryCode_raise h ordinaryCode_command)
  case step => exact .inl (ordinaryCode_accept h fun ha => ordinaryCode_stepBody (inv.running ((runAllowed_iff _).1 ha)) h)
  case run => exact .inl (ordinaryCode_accept h fun ha => ordinaryCode_runLoop _ (inv.running ((runAllowed_iff _).1 ha)) h)
  case rdstat sel => exact .inl (ordinaryCode_accept h fun _ => ordinaryCode_readStatus sel h)
  all_goals cases hi

/-- From the invariant a step leaves an ordinary code in ERR_CODE, or it took an INIT word with illegal operands and leaves
ConfigError's (R191, R193). -/
theorem ordinaryCode_step {s t : State} (inv : UnitInv s) (h : OrdinaryCode s.errCode) (hs : step s = .next t) :
    OrdinaryCode t.errCode ∨ ∃ w rest f p, s.input = .word w :: rest ∧ decodeHost w = .ok (.init f p) ∧
      configLegal f p = false ∧ t.errCode = errorCode .config := by
  have hzero : OrdinaryCode 0 := by decide
  obtain ⟨w, i, hb, -⟩ | ⟨-, hport⟩ := step_cases hs
  · rw [inv.quiet] at hb; cases hb
  · obtain ⟨-, rfl⟩ | ⟨w, rest, hin, hw⟩ | ⟨rest, -, rfl⟩ | ⟨w, n, rest, -, rfl⟩ | ⟨env, rest, -, -, -, -, rfl⟩ := hport
    · exact .inl h
    · obtain ⟨-, rfl⟩ | ⟨-, i, hd, he⟩ | ⟨-, r, -, rfl⟩ := hw
      · exact .inl h
      · obtain hc | ⟨f, p, rfl, hc⟩ := ordinaryCode_exec (host_of_decodeHost hd) (inv_input rest inv) h he
        · exact .inl hc
        · exact .inr ⟨w, rest, f, p, hin, hd, hc⟩
      · exact .inl (ordinaryCode_raise (s := { s with input := rest }) h ordinaryCode_command)
    · exact .inl hzero
    · exact .inl hzero
    · exact .inl h

end Sys2Proof.Laws
end

section
/-! The statements of spec/44_frame_allocator.md: the two paths of FA.ALLOC, the frame of STEP, and the errors that only
corrupted state would raise. -/

namespace Sys2Proof.Proofs

open Sys2Proof.Machine Sys2Proof.Laws

/-- Settles O34: RP.SELECT delivers an active victim, the allocator goes on to its eviction, and in a TLB without
repetition the purge is a filter. -/
theorem faAllocEvictsTheChosenVictim : Obligations.FaAllocEvictsTheChosenVictim := by
  intro s hfull hactive hnodup hpolicy hfuture
  obtain ⟨u, hu⟩ := rpSelect_total hactive hpolicy hfuture
  obtain ⟨v, hv, rfl⟩ := rpSelect_ok hu
  have halloc : faAlloc s = .ok (allocEvict { s with vict := v }) := by rw [faAlloc_of_full hfull, hu]; rfl
  refine ⟨_, v, exec_rpSelect_of_ok hu, exec_faAlloc_of_ok halloc, hv, rfl, rfl, ?victim, fun q hq => ?others,
    tlbRemove_eq_filter v hnodup, rfl⟩
  case victim => rw [allocEvict_ptAt, if_pos rfl]; rfl
  case others => rw [allocEvict_ptAt, if_neg hq]; rfl

/-- Settles O43: an answer at the end of the stream writes nothing here, and a reference keeps the setup and writes to the
frame memory in the frame it resolved only, and only on a page fault. -/
theorem stepStoresOnlyInTheResolvedFrame : Obligations.StepStoresOnlyInTheResolvedFrame := by
  intro s t he hne
  obtain ⟨hsetup, hout, hquiet⟩ : SetupKept s t ∧
      (∀ a, a < addrOf t.f 0 ∨ addrOf t.f 256 ≤ a → memRead t.frame a = memRead s.frame a) ∧
      (t.pageFaults = s.pageFaults → t.frame = s.frame) := by
    obtain ⟨-, ⟨-, rfl⟩ | ⟨-, u, hx, rfl⟩⟩ := step_ready he hne
    · exact ⟨setupKept_respond s _, fun _ _ => rfl, fun _ => rfl⟩
    · exact ⟨(setupKept_xlate hx).trans (setupKept_respond u _), fun _ => xlate_memory hx,
        (xlate_memory_of_no_fault hx :)⟩
  obtain ⟨hframes, hpolicy, hrefN, hrun, hcode, henv, hlaunched, hinput, hbus⟩ := hsetup
  exact ⟨hframes, hpolicy, hrefN, hrun, hcode, henv, hlaunched, hinput, hbus, hout, fun hp a => by rw [hquiet hp]⟩

/-- Settles O56: from ERR_CODE = 0, which is ordinary, a step leaves an ordinary code or took an illegal INIT
(`ordinaryCode_step`). -/
theorem corruptedStateErrorsAreNeverRaised : Obligations.CorruptedStateErrorsAreNeverRaised := by
  intro s t inv hs hstep _
  have hzero : OrdinaryCode s.errCode := by rw [inv.code.2 hs]; decide
  obtain ⟨hconfig, hexhausted⟩ | ⟨w, rest, f, p, hin, hd, hc, hcode⟩ := ordinaryCode_step inv hzero hstep
  · exact ⟨hexhausted, fun h => absurd h hconfig⟩
  · exact ⟨by rw [hcode]; decide, fun _ => ⟨w, rest, f, p, hin, hd, hc⟩⟩

/-- Settles O33: below CFG_FRAMES the allocator is its bump path, whose two results fit their registers. -/
theorem faAllocBumpsWhileFramesAreLeft : Obligations.FaAllocBumpsWhileFramesAreLeft := by
  intro s hlt hle
  have h256 := Nat.lt_of_lt_of_le hlt hle
  exact ⟨allocBump s, exec_faAlloc_of_ok (faAlloc_of_lt hlt), allocBump_f_toNat h256, allocBump_nextFree_toNat h256, rfl⟩

end Sys2Proof.Proofs
end

section
/-! SUPPORT. RP.SELECT code by code, and what the three victim choices choose: the least key among the active pages, and
RP.OPT's choice in terms of the references still to come (R130 to R134, R136). -/

namespace Sys2Proof.Laws

open Sys2Proof.Machine

/-! ### RP.SELECT -/

theorem exec_rpSelect (s : State) : exec .rpSelect s = .next (settle s (rpSelect s)) := rfl

theorem exec_rpOpt (s : State) : exec .rpOpt s = .next (settle s (rpOpt s)) := rfl

theorem exec_faAlloc (s : State) : exec .faAlloc s = .next (settle s (faAlloc s)) := rfl

theorem activePages_ne_nil {s : State} (h : ∃ q, isActive s q = true) : activePages s ≠ [] := by
  obtain ⟨q, hq⟩ := h
  exact List.ne_nil_of_mem (mem_activePages.2 hq)

theorem activePages_eq_nil {s : State} (h : ∀ q, isActive s q = false) : activePages s = [] :=
  List.filter_eq_nil_iff.2 fun q _ => by rw [h q]; exact Bool.false_ne_true

theorem rpSelect_of_inactive {s : State} (h : ∀ q, isActive s q = false) : rpSelect s = .error .resourceExhaustion := by
  rw [rpSelect, activePages_eq_nil h]
  rfl

/-- Once a page is active, only CFG_POLICY decides what RP.SELECT does (R130). -/
theorem rpSelect_of_active {s : State} (h : ∃ q, isActive s q = true) : rpSelect s =
    if s.cfgPolicy = policyFifo then .ok (rpFifo s)
    else if s.cfgPolicy = policyLru then .ok (rpLru s)
    else if s.cfgPolicy = policyOpt then rpOpt s
    else .error .config := by
  rw [rpSelect, if_neg fun hempty => activePages_ne_nil h (List.isEmpty_iff.1 hempty)]

theorem rpSelect_of_fifo {s : State} (h : ∃ q, isActive s q = true) (hp : s.cfgPolicy = policyFifo) :
    rpSelect s = .ok (rpFifo s) := by
  rw [rpSelect_of_active h, hp]
  rfl

theorem rpSelect_of_lru {s : State} (h : ∃ q, isActive s q = true) (hp : s.cfgPolicy = policyLru) :
    rpSelect s = .ok (rpLru s) := by
  rw [rpSelect_of_active h, hp]
  rfl

theorem rpSelect_of_opt {s : State} (h : ∃ q, isActive s q = true) (hp : s.cfgPolicy = policyOpt) :
    rpSelect s = rpOpt s := by
  rw [rpSelect_of_active h, hp]
  rfl

theorem rpSelect_of_reserved {s : State} (h : ∃ q, isActive s q = true) (hp : s.cfgPolicy = policyReserved) :
    rpSelect s = .error .config := by
  rw [rpSelect_of_active h, hp]
  rfl

/-! ### RP.FIFO and RP.LRU -/

/-- The scan of a non-empty Active for the least key finds a page, and on a tie the lowest page number (R131, R132). -/
theorem firstLeast_activePages (key : Index → Nat) {s : State} (h : ∃ q, isActive s q = true) :
    ∃ v, firstLeast key (activePages s) = some v ∧ isActive s v = true ∧
      ∀ q, isActive s q = true → key v < key q ∨ (key v = key q ∧ v.toNat ≤ q.toNat) := by
  obtain ⟨v, hv⟩ := firstLeast_isSome (key := key) (activePages_ne_nil h)
  exact ⟨v, hv, mem_activePages.1 (firstLeast_mem hv),
    fun q hq => firstLeast_least (activePages_sorted s) hv q (mem_activePages.2 hq)⟩

/-! ### The future suffix -/

/-- The page numbers of the references still to come: what `future` answers when every word is well formed (`future_ok`,
R134). -/
def futurePages (s : State) : List Index :=
  (futureIndices s).map fun i => pageOf (addressOf (refWord s.env i))

theorem rpOpt_of_futureGood {s : State} (h : FutureGood s) :
    rpOpt s = .ok (setVictim s (optChoice (futurePages s) (activePages s))) := by
  rw [rpOpt, future_ok h]
  rfl

theorem usedAt_iff {s : State} {q : Index} {i : Nat} :
    UsedAt s q i ↔ s.clock < i ∧ i < s.refN ∧ pageOf (addressOf (refWord s.env i)) = q := by
  rw [UsedAt, ← page_toNat, BitVec.toNat_inj]

/-- Position j of the suffix is the reference j + 1 places after the current one (R134). -/
theorem getElem?_futurePages {s : State} {q : Index} {j : Nat} :
    (futurePages s)[j]? = some q ↔ UsedAt s q (s.clock + 1 + j) := by
  rw [usedAt_iff, futurePages, futureIndices, List.getElem?_map, Option.map_eq_some_iff]
  simp only [List.getElem?_eq_some_iff, List.length_range', List.getElem_range', Nat.one_mul]
  constructor
  · rintro ⟨_, ⟨hj, rfl⟩, rfl⟩
    exact ⟨by omega, by omega, rfl⟩
  · rintro ⟨-, hlt, rfl⟩
    exact ⟨_, ⟨by omega, rfl⟩, rfl⟩

theorem mem_futurePages {s : State} {q : Index} : q ∈ futurePages s ↔ ∃ i, UsedAt s q i := by
  simp only [futurePages, List.mem_map, mem_futureIndices, usedAt_iff, and_assoc]

/-! ### The next use of a page -/

theorem nextUse_isNone {fut : List Index} {q : Index} : (nextUse fut q).isNone = true ↔ q ∉ fut := by
  simp only [nextUse, List.findIdx?_isNone, List.all_eq_true, decide_eq_true_eq, beq_iff_eq, List.forall_mem_ne']

theorem nextUse_eq_some {fut : List Index} {q : Index} {j : Nat} :
    nextUse fut q = some j ↔ fut[j]? = some q ∧ ∀ k, k < j → fut[k]? ≠ some q := by
  simp only [nextUse, List.findIdx?_eq_some_iff_getElem, beq_iff_eq, List.getElem?_eq_some_iff, ne_eq]
  constructor
  · rintro ⟨hlt, hj, hbefore⟩
    exact ⟨⟨hlt, hj⟩, fun k hk ⟨_, hq⟩ => hbefore k hk hq⟩
  · rintro ⟨⟨hlt, hj⟩, hbefore⟩
    exact ⟨hlt, hj, fun k hk hq => hbefore k hk ⟨_, hq⟩⟩

theorem nextUseIndex_of_some {fut : List Index} {q : Index} {j : Nat} (h : nextUse fut q = some j) :
    nextUseIndex fut q = j := by
  rw [nextUseIndex, h]

theorem exists_nextUse {fut : List Index} {q : Index} (h : q ∈ fut) : ∃ j, nextUse fut q = some j :=
  Option.ne_none_iff_exists'.1 fun hnone => nextUse_isNone.1 (by rw [hnone]; rfl) h

/-- Of two pages that are both used again, the one with the smaller next use is used before the other is (R135: one
place of the suffix holds one page). -/
theorem used_before_of_nextUseIndex_le {s : State} {q v : Index} (hq : q ∈ futurePages s) (hv : v ∈ futurePages s)
    (hne : q ≠ v) (hle : nextUseIndex (futurePages s) q ≤ nextUseIndex (futurePages s) v) :
    ∃ i, UsedAt s q i ∧ ∀ j, j ≤ i → ¬ UsedAt s v j := by
  obtain ⟨m, hm⟩ := exists_nextUse hq
  obtain ⟨n, hn⟩ := exists_nextUse hv
  rw [nextUseIndex_of_some hm, nextUseIndex_of_some hn] at hle
  obtain ⟨hqm, -⟩ := nextUse_eq_some.1 hm
  obtain ⟨hvn, hbefore⟩ := nextUse_eq_some.1 hn
  have hmn : m ≠ n := fun heq => hne (Option.some.inj (hqm.symm.trans (heq ▸ hvn)))
  refine ⟨s.clock + 1 + m, getElem?_futurePages.1 hqm, fun j hj hused => ?_⟩
  have hlt : s.clock < j := hused.1
  obtain ⟨k, rfl⟩ := Nat.exists_eq_add_of_le (Nat.succ_le_of_lt hlt)
  exact hbefore k (by omega) (getElem?_futurePages.2 hused)

/-! ### RP.OPT -/

/-- A search through an ascending scan finds the lowest page of those it looks for. -/
theorem find?_lowest {p : Index → Bool} {l : List Index} {v : Index} (hs : l.Pairwise (·.toNat < ·.toNat))
    (h : l.find? p = some v) : ∀ q ∈ l, p q = true → v.toNat ≤ q.toNat := by
  obtain ⟨-, before, after, rfl, hbefore⟩ := List.find?_eq_some_iff_append.1 h
  have habove : ∀ q ∈ after, v.toNat < q.toNat := (List.pairwise_cons.1 (List.pairwise_append.1 hs).2.1).1
  intro q hq hpq
  obtain hq | rfl | hq := by simpa only [List.mem_append, List.mem_cons] using hq
  · have hnot := hbefore q hq
    rw [hpq] at hnot
    cases hnot
  · exact Nat.le_refl _
  · exact Nat.le_of_lt (habove q hq)

/-- When some page of an ascending scan is never used again, OPT chooses the lowest such page (R133). -/
theorem optChoice_of_unused {fut l : List Index} {v : Index} (hs : l.Pairwise (·.toNat < ·.toNat))
    (h : optChoice fut l = some v) (hex : ∃ q ∈ l, q ∉ fut) :
    v ∉ fut ∧ ∀ q ∈ l, q ∉ fut → v.toNat ≤ q.toNat := by
  unfold optChoice at h
  split at h
  case h_1 w hfind =>
    cases h
    have hunused := List.find?_some hfind
    exact ⟨nextUse_isNone.1 hunused, fun q hq hq' => find?_lowest hs hfind q hq (nextUse_isNone.2 hq')⟩
  case h_2 hfind =>
    obtain ⟨q, hq, hunused⟩ := hex
    exact absurd (nextUse_isNone.2 hunused) (List.find?_eq_none.1 hfind q hq)

/-- When every page of the scan is used again, no page's next use is farther than that of OPT's choice (R133). -/
theorem optChoice_of_used {fut l : List Index} {v : Index} (h : optChoice fut l = some v) (hall : ∀ q ∈ l, q ∈ fut) :
    ∀ q ∈ l, nextUseIndex fut q ≤ nextUseIndex fut v := by
  unfold optChoice at h
  split at h
  case h_1 w hfind =>
    have hunused := List.find?_some hfind
    exact absurd (hall w (List.mem_of_find?_eq_some hfind)) (nextUse_isNone.1 hunused)
  case h_2 => exact firstGreatest_greatest h

end Sys2Proof.Laws
end

section
/-! The statements of spec/45_replacement_policy.md: which algorithm RP.SELECT issues, and the victim that RP.FIFO,
RP.LRU and RP.OPT choose. -/

namespace Sys2Proof.Proofs

open Sys2Proof.Machine Sys2Proof.Laws

/-- Settles O35: the equation of RP.SELECT for each policy code, and its two arms for corrupted state. -/
theorem rpSelectFollowsThePolicyCode : Obligations.RpSelectFollowsThePolicyCode := by
  intro s
  refine ⟨fun hnone => ?inactive, fun hactive => ⟨fun hp => ?fifo, fun hp => ?lru, fun hp => ?opt, fun hp => ?reserved⟩,
    fun hgt => ?exhausted⟩
  case inactive => rw [exec_rpSelect, rpSelect_of_inactive hnone]; rfl
  case fifo => exact exec_rpSelect_of_ok (rpSelect_of_fifo hactive hp)
  case lru => exact exec_rpSelect_of_ok (rpSelect_of_lru hactive hp)
  case opt => rw [exec_rpSelect, rpSelect_of_opt hactive hp, exec_rpOpt]
  case reserved => rw [exec_rpSelect, rpSelect_of_reserved hactive hp]; rfl
  case exhausted => rw [exec_faAlloc, faAlloc, if_pos hgt]; rfl

/-- Settles O36: the scan for the least LOAD_TIME (`firstLeast_activePages`). -/
theorem rpFifoChoosesTheOldestLoad : Obligations.RpFifoChoosesTheOldestLoad := by
  intro s hactive
  obtain ⟨v, hv, hvictim, hleast⟩ := firstLeast_activePages (fun q => (ptAt s q).loadTime) hactive
  have hfifo : rpFifo s = { s with vict := v } := by rw [rpFifo, fifoChoice, hv]; rfl
  exact ⟨v, congrArg _ hfifo, fun hp => exec_rpSelect_of_ok (by rw [rpSelect_of_fifo hactive hp, hfifo]), hvictim,
    hleast⟩

/-- Settles O37: the scan for the least LAST_REF (`firstLeast_activePages`). -/
theorem rpLruChoosesTheLeastRecentReference : Obligations.RpLruChoosesTheLeastRecentReference := by
  intro s hactive
  obtain ⟨v, hv, hvictim, hleast⟩ := firstLeast_activePages (fun q => (ptAt s q).lastRef) hactive
  have hlru : rpLru s = { s with vict := v } := by rw [rpLru, lruChoice, hv]; rfl
  exact ⟨v, congrArg _ hlru, fun hp => exec_rpSelect_of_ok (by rw [rpSelect_of_lru hactive hp, hlru]), hvictim,
    hleast⟩

/-- Settles O38: in a well-formed future "never used again" is "not in the suffix" (`mem_futurePages`), and the order of
the next uses is the order of the references (`used_before_of_nextUseIndex_le`). -/
theorem rpOptLooksFarthestIntoTheFuture : Obligations.RpOptLooksFarthestIntoTheFuture := by
  intro s
  refine ⟨fun hactive hgood => ?chooses, fun hbad => ?raises⟩
  case chooses =>
    obtain ⟨v, hv⟩ := optChoice_isSome (fut := futurePages s) (activePages_ne_nil hactive)
    have hexec : exec .rpOpt s = .next { s with vict := v } := by rw [exec_rpOpt, rpOpt_of_futureGood hgood, hv]; rfl
    have hmem := optChoice_mem hv
    refine ⟨v, hexec, mem_activePages.1 hmem, ?unused, ?farthest⟩
    case unused =>
      simp only [← not_exists, ← mem_futurePages, ← mem_activePages]
      exact optChoice_of_unused (activePages_sorted s) hv
    case farthest =>
      simp only [← mem_futurePages, ← mem_activePages]
      intro hall q hq hne
      exact used_before_of_nextUseIndex_le (hall q hq) (hall v hmem) hne (optChoice_of_used hv hall q hq)
  case raises =>
    rw [exec_rpOpt, rpOpt, future_error hbad]
    rfl

end Sys2Proof.Proofs
end

section
/-! SUPPORT. What a STEP or a RUN keeps when every reference keeps it, the one function of R159 branch by branch, the misses
of a small pool, and the unit with another replacement policy (R151, R159, R161). -/

namespace Sys2Proof.Laws

open Sys2Proof.Machine

/-! ### STEP and RUN are references with their records -/

/-- A STEP or a RUN that ends outside ERROR leaves whatever each XLATE with its record keeps, and the answer done
(R171, R172). -/
theorem stepOrRun_induct (P : State → Prop)
    (hstep : ∀ u v, P u → u.clock < u.refN → xlate u = .ok v → P (respond v (recordOf v)))
    (hdone : ∀ u, P u → P (respond u .done)) {i : Instr} {s t : State} (hi : i = .step ∨ i = .run) (h0 : P s)
    (hle : s.clock ≤ s.refN) (he : exec i s = .next t) (hne : t.runState ≠ .error) : P t := by
  obtain rfl | rfl := hi
  · obtain ⟨-, ⟨-, rfl⟩ | ⟨hc, u, hx, rfl⟩⟩ := step_ready he hne
    · exact hdone s h0
    · exact hstep s u h0 (Nat.lt_of_le_of_ne hle hc) hx
  · obtain ⟨hr, rfl⟩ := run_ready he hne
    exact (runLoop_induct P (fun u v hu _ => hstep u v hu) hdone _ s h0 hr).resolve_left hne

/-! ### The one function of R159 -/

theorem xlateWhole_of_malformed {s : State} (hm : malformed (refWord s.env s.clock) = true) :
    xlateWhole s = .error .inputMalformed := by
  rw [xlateWhole, decodeReference, if_pos hm]

/-- The reference word is well formed: the rest starts from `decoded s`. -/
theorem decodeReference_fetched {s : State} (hm : ¬ malformed (refWord s.env s.clock) = true) :
    decodeReference { s with wRef := refWord s.env s.clock } = .ok (decoded s) := by
  rw [decodeReference, if_neg hm]
  rfl

/-- BS.READ on the page-fault path asks for the block of the referenced page (R153). -/
theorem bsRead_faulted (s : State) :
    bsRead (faulted s) = (storeBlock s.env (decoded s).p).map fun blk => { faulted s with blk := blk } := by
  unfold bsRead
  change (match storeBlock s.env (decoded s).p with | .ok _ => _ | .error _ => _) = _
  cases storeBlock s.env (decoded s).p <;> rfl

/-! ### A small pool -/

/-- With at most 16 frames a page outside the TLB is not active, so a reference that misses the TLB faults (R151). -/
theorem xlate_miss_is_fault {s t : State} (h : Running s) (hsmall : s.cfgFrames.toNat ≤ 16) (hx : xlate s = .ok t) :
    t.tlbMisses + s.pageFaults = s.tlbMisses + t.pageFaults := by
  obtain ⟨-, ⟨e, -, rfl⟩ | ⟨hmiss, hact, -⟩ | ⟨hmiss, -, -, -, u, hu, rfl⟩⟩ := xlate_cases hx
  · simp
  · obtain ⟨e, he, hpage⟩ := h.tlbAll hsmall _ hact
    exact absurd hpage (tlbFind_none.1 hmiss e he)
  · obtain ⟨-, -, -, -, -, hmisses, hfaults, -⟩ := faAlloc_frame hu
    have hpath := faultPath s hmiss
    rw [hpath.tlbMisses] at hmisses
    rw [hpath.pageFaults] at hfaults
    change u.tlbMisses + s.pageFaults = s.tlbMisses + u.pageFaults
    omega

/-- What a STEP or a RUN of a small pool from `s` has counted at each reference: as many page faults as TLB misses. -/
structure MissesAreFaults (s u : State) : Prop where
  running : Running u
  small : u.cfgFrames.toNat ≤ 16
  counted : u.tlbMisses + s.pageFaults = s.tlbMisses + u.pageFaults

theorem missesAreFaults_respond {s u : State} (r : Response) (h : MissesAreFaults s u) :
    MissesAreFaults s (respond u r) :=
  ⟨running_respond r h.running, h.small, h.counted⟩

theorem missesAreFaults_xlate {s u v : State} (h : MissesAreFaults s u) (lt : u.clock < u.refN) (hx : xlate u = .ok v) :
    MissesAreFaults s v := by
  refine ⟨running_xlate h.running lt hx, ?_, ?_⟩
  · rw [(setupKept_xlate hx).cfgFrames]
    exact h.small
  · have hone := xlate_miss_is_fault h.running h.small hx
    have hsofar := h.counted
    omega

/-! ### 256 frames under another policy -/

/-- The same unit under policy code `p` (R12). -/
def withPolicy (p : BitVec 2) (s : State) : State :=
  { s with cfgPolicy := p }

@[simp] theorem withPolicy_runState (p : BitVec 2) (s : State) : (withPolicy p s).runState = s.runState := rfl
@[simp] theorem withPolicy_clock (p : BitVec 2) (s : State) : (withPolicy p s).clock = s.clock := rfl
@[simp] theorem withPolicy_refN (p : BitVec 2) (s : State) : (withPolicy p s).refN = s.refN := rfl
@[simp] theorem withPolicy_env (p : BitVec 2) (s : State) : (withPolicy p s).env = s.env := rfl
@[simp] theorem withPolicy_tlb (p : BitVec 2) (s : State) : (withPolicy p s).tlb = s.tlb := rfl
@[simp] theorem withPolicy_p (p : BitVec 2) (s : State) : (withPolicy p s).p = s.p := rfl
@[simp] theorem isActive_withPolicy (p : BitVec 2) (s : State) (q : Index) :
    isActive (withPolicy p s) q = isActive s q := rfl
@[simp] theorem decoded_withPolicy (p : BitVec 2) (s : State) :
    decoded (withPolicy p s) = withPolicy p (decoded s) := rfl
@[simp] theorem faulted_withPolicy (p : BitVec 2) (s : State) :
    faulted (withPolicy p s) = withPolicy p (faulted s) := rfl

/-- While a page is inactive fewer than 256 pages are active, and so fewer than 256 frames are handed out (R30). -/
theorem nextFree_lt_of_inactive {s : State} {q : Index} (h : Running s) (hq : isActive s q = false) :
    s.nextFree.toNat < 256 := by
  rw [← activePages_length h]
  have hall : allPages.length = 256 := by simp [allPages]
  rw [← hall]
  exact List.length_filter_lt_length_iff_exists.2 ⟨q, mem_allPages q, by simp [hq]⟩

/-- With 256 frames XLATE never asks the replacement policy: FA.ALLOC has a frame left for every page that is not active
(R161). -/
theorem xlate_withPolicy {s : State} (p : BitVec 2) (h : Running s) (hfull : s.cfgFrames.toNat = 256) :
    xlate (withPolicy p s) = (xlate s).map (withPolicy p) := by
  rw [xlate_outcomes s, xlate_outcomes (withPolicy p s), decoded_withPolicy, faulted_withPolicy, isActive_withPolicy,
    withPolicy_env, withPolicy_clock, withPolicy_tlb, withPolicy_p]
  split_ifs with hm hhit hact
  · rfl
  · rfl
  · rfl
  · cases storeBlock s.env (decoded s).p with
    | error e => rfl
    | ok blk =>
      have lt : s.nextFree.toNat < s.cfgFrames.toNat := by
        rw [hfull]
        exact nextFree_lt_of_inactive h (by simpa using hact)
      have halloc : faAlloc { faulted s with blk := blk } = .ok (allocBump { faulted s with blk := blk }) :=
        faAlloc_of_lt lt
      have halloc' : faAlloc { withPolicy p (faulted s) with blk := blk } =
          .ok (allocBump { withPolicy p (faulted s) with blk := blk }) := faAlloc_of_lt lt
      dsimp only
      rw [halloc, halloc']
      rfl

/-- A RUN of 256 frames that raises nothing is the same RUN under every policy (R161). -/
theorem runLoop_withPolicy (p : BitVec 2) (n : Nat) {s : State} (h : Running s) (hfull : s.cfgFrames.toNat = 256)
    (hne : (runLoop n s).runState ≠ .error) : runLoop n (withPolicy p s) = withPolicy p (runLoop n s) := by
  induction n generalizing s with
  | zero => rfl
  | succ n ih =>
    rw [runLoop] at hne
    rw [runLoop, runLoop, xlate_withPolicy p h hfull, withPolicy_clock, withPolicy_refN]
    split_ifs at hne ⊢ with lt
    · cases hx : xlate s with
      | error e => rw [hx] at hne; exact absurd (raise_runState e s) hne
      | ok t =>
        rw [hx] at hne
        refine ih (running_respond _ (running_xlate h lt hx)) ?_ hne
        rw [respond_cfgFrames, (setupKept_xlate hx).cfgFrames, hfull]
    · rfl

theorem exec_run_withPolicy (p : BitVec 2) {s t : State} (h : Running s) (hfull : s.cfgFrames.toNat = 256)
    (he : exec .run s = .next t) (hne : t.runState ≠ .error) : exec .run (withPolicy p s) = .next (withPolicy p t) := by
  obtain ⟨hr, rfl⟩ := run_ready he hne
  rw [exec_run_of_ready (by rwa [withPolicy_runState])]
  exact congrArg _ (runLoop_withPolicy p _ h hfull hne)

theorem exec_step_withPolicy (p : BitVec 2) {s t : State} (h : Running s) (hfull : s.cfgFrames.toNat = 256)
    (he : exec .step s = .next t) (hne : t.runState ≠ .error) :
    exec .step (withPolicy p s) = .next (withPolicy p t) := by
  obtain ⟨hr, ⟨hend, rfl⟩ | ⟨hc, u, hx, rfl⟩⟩ := step_ready he hne
  · rw [exec_step_of_ready (by rwa [withPolicy_runState]), stepBody, if_pos (by rwa [withPolicy_clock])]
    rfl
  · have lt : s.clock < s.refN := Nat.lt_of_le_of_ne h.clock hc
    have hx' : xlate (withPolicy p s) = .ok (withPolicy p u) := by rw [xlate_withPolicy p h hfull, hx]; rfl
    exact exec_step_of_xlate (by rwa [withPolicy_runState]) (by rwa [withPolicy_clock]) hx'

end Sys2Proof.Laws
end

section
/-! The statements of spec/46_translation_engine.md: the chain of sequencer states as one function, small pools, and the
full pool. -/

namespace Sys2Proof.Proofs

open Sys2Proof.Machine Sys2Proof.Laws

/-- Settles O22: the branches of the chain (`xlate_outcomes`) are those of the one function. -/
theorem xlateIsTheWholeSequence : Obligations.XlateIsTheWholeSequence := by
  intro s
  rw [xlate_outcomes]
  by_cases hm : malformed (refWord s.env s.clock) = true
  · rw [if_pos hm, xlateWhole_of_malformed hm]
  rw [if_neg hm, xlateWhole, decodeReference_fetched hm]
  change _ = (match (if (tlbFind s.tlb (decoded s).p).isSome then _ else if isActive s (decoded s).p then _ else
    match bsRead (faulted s) with | .error _ => _ | .ok _ => _ : Except ErrKind State) with | .error _ => _ | .ok _ => _)
  split_ifs with hhit hact
  · rfl
  · rfl
  · rw [bsRead_faulted]
    cases storeBlock s.env (decoded s).p with
    | error e => rfl
    | ok blk =>
      dsimp only [Except.map]
      cases faAlloc { faulted s with blk := blk } <;> rfl

/-- Settles O57: every reference that misses the TLB faults (`xlate_miss_is_fault`), and a STEP or a RUN is references. -/
theorem smallPoolsNeverMissSoftly : Obligations.SmallPoolsNeverMissSoftly := by
  intro i s t hi h hr hsmall he ht
  have run := h.running hr
  have h0 : MissesAreFaults s s := ⟨run, hsmall, rfl⟩
  have hend := stepOrRun_induct (MissesAreFaults s)
    (fun _ _ hu lt hx => missesAreFaults_respond _ (missesAreFaults_xlate hu lt hx)) (fun _ => missesAreFaults_respond _)
    hi h0 run.clock he (by rw [ht]; decide)
  exact hend.counted

/-- Settles O58: with 256 frames no XLATE asks the policy (`xlate_withPolicy`), so it may be any code. -/
theorem fullPoolPoliciesAgree : Obligations.FullPoolPoliciesAgree := by
  intro i s t p hi h hr hfull _ he ht
  have run := h.running hr
  have hne : t.runState ≠ .error := by rw [ht]; decide
  obtain rfl | rfl := hi
  · exact exec_step_withPolicy p run hfull he hne
  · exact exec_run_withPolicy p run hfull he hne

end Sys2Proof.Proofs
end

section
/-! SUPPORT. The acceptance test in each RUNSTATE, INIT's operand check, how a STEP that raises ends, which call of a page
fault raises, and repeated STEP (R170 to R174, R192, R194, R196, R198). -/

namespace Sys2Proof.Laws

open Sys2Proof.Machine

/-! ### The acceptance test -/

/-- A command that RUNSTATE does not allow raises CommandError, outside ERROR (R174). -/
theorem accept_of_disallowed {allowed : RunState → Bool} {s : State} (go : State → State) (hne : s.runState ≠ .error)
    (ha : allowed s.runState = false) : accept allowed s go = raise .command s := by
  rw [accept, if_neg hne, ha, if_neg Bool.false_ne_true]

theorem exec_init_of_unconfigured {s : State} (f : BitVec 9) (p : BitVec 2) (hu : s.runState = .unconfigured) :
    exec (.init f p) s = .next (configure f p s) := by
  rw [exec, execInit, accept, hu]
  rfl

theorem exec_init_of_ready {s : State} (f : BitVec 9) (p : BitVec 2) (hr : s.runState = .ready) :
    exec (.init f p) s = .next (raise .command s) := by
  rw [exec, execInit, accept_of_disallowed _ (by rw [hr]; decide) (by rw [hr]; rfl)]

theorem exec_step_of_unconfigured {s : State} (hu : s.runState = .unconfigured) :
    exec .step s = .next (raise .command s) := by
  rw [exec, execStep, accept_of_disallowed _ (by rw [hu]; decide) (by rw [hu]; rfl)]

theorem exec_run_of_unconfigured {s : State} (hu : s.runState = .unconfigured) :
    exec .run s = .next (raise .command s) := by
  rw [exec, execRun, accept_of_disallowed _ (by rw [hu]; decide) (by rw [hu]; rfl)]

/-! ### INIT -/

/-- INIT's operand check as bounds on the numbers (R170). -/
theorem configLegal_iff {f : BitVec 9} {p : BitVec 2} :
    configLegal f p = true ↔ 1 ≤ f.toNat ∧ f.toNat ≤ 256 ∧ p ≠ policyReserved := by
  simp only [configLegal, Bool.and_eq_true, decide_eq_true_eq, bne_iff_ne, and_assoc]

theorem configure_of_legal {s : State} {f : BitVec 9} {p : BitVec 2} (h : configLegal f p = true) :
    configure f p s = { s with
      cfgFrames := f, cfgPolicy := p, refN := s.env.refCount, runState := .ready, launched := true
      out := s.out ++ [.ok] } := by
  rw [configure, if_pos h]
  rfl

theorem configure_of_illegal {s : State} {f : BitVec 9} {p : BitVec 2} (h : ¬ configLegal f p = true) :
    configure f p s = raise .config s := by
  rw [configure, if_neg h]

/-! ### The end of the stream, and a STEP that raises -/

theorem stepBody_of_end {s : State} (h : s.clock = s.refN) : stepBody s = respond s .done := by
  rw [stepBody, if_pos h]

theorem runBody_of_end {s : State} (h : s.clock = s.refN) : runBody s = respond s .done := by
  rw [runBody, h, Nat.sub_self, runLoop]

/-- STEP with a reference left enters the error from the state before it when XLATE raises (R171, R196). -/
theorem exec_step_of_xlate_error {s : State} {e : ErrKind} (hr : s.runState = .ready) (lt : s.clock < s.refN)
    (hx : xlate s = .error e) : exec .step s = .next (raise e s) := by
  rw [exec_step_of_ready hr, stepBody, if_neg (Nat.ne_of_lt lt), processReference, hx]

/-! ### What a page fault raises -/

/-- A well-formed reference to a page that is not active gets as far as BS.READ, which raises first (R194, R198). -/
theorem xlate_of_unreadable {s : State} (h : Running s) (hw : WordGood s.env s.clock)
    (ha : isActive s (decoded s).p = false)
    (hbad : s.env.bsLen < 65536 ∨ ∃ k < 256, addrOf (decoded s).p k ∈ s.env.bsBad) :
    xlate s = .error .backingStore := by
  rw [xlate_outcomes, wordGood_iff.1 hw, tlbFind_of_inactive h ha, ha, storeBlock_of_unreadable hbad]
  rfl

/-- On a readable store a page fault raises what FA.ALLOC raises, which comes after BS.READ (R198). -/
theorem xlate_of_faAlloc_error {s : State} {e : ErrKind} (h : Running s) (hw : WordGood s.env s.clock)
    (ha : isActive s (decoded s).p = false) (hst : StoreReadable s.env)
    (halloc : ∀ u, FaultPath s u → faAlloc u = .error e) : xlate s = .error e := by
  have he := tlbFind_of_inactive h ha
  rw [xlate_outcomes, wordGood_iff.1 hw, he, ha, storeBlock_total hst]
  dsimp only
  rw [halloc _ (faultPath s he)]
  rfl

/-- In READY at least one frame exists, so when every frame is in use some page is active (R11, R30). -/
theorem exists_active_of_full {s : State} (h : Running s) (hfull : s.nextFree = s.cfgFrames) :
    ∃ q, isActive s q = true := by
  obtain ⟨hpos, -, -⟩ := configLegal_iff.1 h.config
  obtain ⟨q, hq, -⟩ := h.covered 0 (by rw [hfull]; exact hpos)
  exact ⟨q, hq⟩

theorem FaultPath.isActive {s u : State} (hu : FaultPath s u) (q : Index) : isActive u q = isActive s q := by
  rw [Machine.isActive, hu.ptAt, Machine.isActive]

/-- The page-fault path does not move the future suffix (R134). -/
theorem FaultPath.futureGood_iff {s u : State} (hu : FaultPath s u) : FutureGood u ↔ FutureGood s := by
  rw [FutureGood, hu.clock, hu.refN, hu.env]

/-- With every frame in use, OPT's scan meets the malformed word of the future (R122, R134, R192). -/
theorem faAlloc_of_malformed_future {s u : State} (h : Running s) (hu : FaultPath s u) (hfull : s.nextFree = s.cfgFrames)
    (hopt : s.cfgPolicy = policyOpt) (hbad : ¬ FutureGood s) : faAlloc u = .error .inputMalformed := by
  obtain ⟨q, hq⟩ := exists_active_of_full h hfull
  have hactive : ∃ q, isActive u q = true := ⟨q, (hu.isActive q).trans hq⟩
  rw [faAlloc_of_full (hu.nextFree.trans (hfull.trans hu.cfgFrames.symm)),
    rpSelect_of_opt hactive (hu.cfgPolicy.trans hopt), rpOpt, future_error (mt hu.futureGood_iff.1 hbad)]
  rfl

/-! ### Repeated STEP -/

/-- Repeated STEP ends with the first STEP that leaves READY (R172). -/
theorem stepAgain_of_left_ready {s t : State} (n : Nat) (he : exec .step s = .next t) (ht : t.runState ≠ .ready) :
    stepAgain n s = .next t := by
  cases n with
  | zero => exact he
  | succ n => rw [stepAgain, he]; exact if_neg ht

/-- Repeated STEP goes on from a STEP that ends in READY (R172). -/
theorem stepAgain_succ_of_ready {s t : State} (n : Nat) (he : exec .step s = .next t) (ht : t.runState = .ready) :
    stepAgain (n + 1) s = stepAgain n t := by
  rw [stepAgain, he]
  exact if_pos ht

/-- Accepted in READY, RUN's loop is repeated STEP: one STEP for each reference left, and one that answers done (R172). -/
theorem stepAgain_eq_runLoop (n : Nat) {s : State} (hr : s.runState = .ready) (hn : s.clock + n = s.refN) :
    stepAgain n s = .next (runLoop n s) := by
  induction n generalizing s with
  | zero =>
    rw [stepAgain, exec_step_of_ready hr, stepBody_of_end hn]
    rfl
  | succ n ih =>
    have lt : s.clock < s.refN := by omega
    rw [runLoop, if_pos lt]
    cases hx : xlate s with
    | error e =>
      refine stepAgain_of_left_ready _ (exec_step_of_xlate_error hr lt hx) ?_
      rw [raise_runState]
      decide
    | ok t =>
      obtain ⟨-, -, hclock, hrefN, hrun, -⟩ := xlate_frame hx
      have hready : (respond t (recordOf t)).runState = .ready := hrun.trans hr
      rw [stepAgain_succ_of_ready n (exec_step_of_xlate hr lt hx) hready]
      exact ih hready (by rw [respond_clock, respond_refN]; omega)

end Sys2Proof.Laws
end

section
/-! The statements of spec/47_host_commands.md and spec/60_exceptions.md: which command is accepted when, INIT, STEP, RUN,
the error entry, and the order of the errors. -/

namespace Sys2Proof.Proofs

open Sys2Proof.Machine Sys2Proof.Laws

/-- Settles O21: in READY by induction over RUN's loop (`stepAgain_eq_runLoop`); in any other RUNSTATE RUN and STEP are
answered alike and the first STEP is the last. -/
theorem runIsRepeatedStep : Obligations.RunIsRepeatedStep := by
  intro s hle
  cases hs : s.runState with
  | ready =>
    rw [exec_run_of_ready hs, runBody, stepAgain_eq_runLoop _ hs (Nat.add_sub_cancel' hle)]
  | unconfigured =>
    rw [exec_run_of_unconfigured hs]
    exact (stepAgain_of_left_ready _ (exec_step_of_unconfigured hs) (by rw [raise_runState]; decide)).symm
  | error =>
    have hleft : (refuse s).runState ≠ .ready := by
      change s.runState ≠ .ready
      rw [hs]
      decide
    rw [exec_host_of_error rfl hs]
    exact (stepAgain_of_left_ready _ (exec_host_of_error rfl hs) hleft).symm

/-- Settles O20: XLATE's branches in order, each of which STEP enters the error from (`exec_step_of_xlate_error`). -/
theorem stepRaisesTheFirstErrorOfTheOrder : Obligations.StepRaisesTheFirstErrorOfTheOrder := by
  intro s inv hr lt
  have run := inv.running hr
  refine ⟨fun hbad => ?malformed, fun hw ha => ⟨fun hbad => ?store, fun hst hfull hopt hbad => ?future⟩⟩
  case malformed => exact exec_step_of_xlate_error hr lt (xlate_of_malformed hbad)
  case store => exact exec_step_of_xlate_error hr lt (xlate_of_unreadable run hw ha hbad)
  case future =>
    exact exec_step_of_xlate_error hr lt
      (xlate_of_faAlloc_error run hw ha hst fun _ hu => faAlloc_of_malformed_future run hu hfull hopt hbad)

/-- Settles O7, row by row of R174's table. -/
theorem acceptanceDependsOnRunState : Obligations.AcceptanceDependsOnRunState := by
  intro s
  refine ⟨fun he => ⟨fun _ _ hb hi => ?_, fun _ hhost => ?_⟩, fun hne _ _ hb hi hw => ?_, fun hu => ?_, fun hr => ?_,
    fun hne sel => ?_⟩
  · exact step_word_of_error hb hi he
  · exact exec_host_of_error hhost he
  · exact step_word_of_illegal hb hi hne hw
  · exact ⟨fun f p => exec_init_of_unconfigured f p hu, exec_step_of_unconfigured hu, exec_run_of_unconfigured hu⟩
  · exact ⟨fun f p => exec_init_of_ready f p hr, exec_step_of_ready hr, exec_run_of_ready hr⟩
  · exact exec_rdstat_of_ne_error sel hne

/-- Settles O13: the acceptance test in each RUNSTATE, and in UNCONFIGURED the operand check (`configLegal_iff`). -/
theorem initConfiguresTheUnit : Obligations.InitConfiguresTheUnit := by
  intro s f p
  refine ⟨fun hu hmin hmax hp => ?_, fun hu hbad => ?_, fun hr => exec_init_of_ready f p hr,
    fun he => exec_host_of_error rfl he⟩
  · have hc := configure_of_legal (s := s) (configLegal_iff.2 ⟨hmin, hmax, hp⟩)
    exact ⟨_, exec_init_of_unconfigured f p hu, by rw [hc]⟩
  · have hillegal : ¬ configLegal f p = true := fun hc => by
      obtain ⟨hmin, hmax, hp⟩ := configLegal_iff.1 hc
      obtain hlow | hhigh | hreserved := hbad
      · omega
      · omega
      · exact hp hreserved
    rw [exec_init_of_unconfigured f p hu, configure_of_illegal hillegal]

/-- Settles O15: at CLOCK = REF_N both bodies answer done at once. -/
theorem endOfStreamAnswersDone : Obligations.EndOfStreamAnswersDone := by
  intro s hr hend
  refine ⟨?_, ?_⟩
  · rw [exec_step_of_ready hr, stepBody_of_end hend]
    rfl
  · rw [exec_run_of_ready hr, runBody_of_end hend]
    rfl

/-- Settles O10: the codes of `errorCode`, and the error entry as `raise_of_ne` gives it. -/
theorem errorEntryWritesCodeAndRunState : Obligations.ErrorEntryWritesCodeAndRunState := by
  refine ⟨rfl, rfl, rfl, rfl, rfl, fun e s hne => ?_⟩
  rw [raise_of_ne hne]
  exact ⟨rfl, rfl, rfl⟩

end Sys2Proof.Proofs
end
